-- ==== Sys2Proof/Word.lean ====
section
/-! DEFINITION. The word types of the machine (10_state.md R20, 20_memory.md R50; spec notation R7). -/

namespace Sys2Proof

/-- A byte: 8 bits (R7). -/
abbrev Byte := BitVec 8

/-- A quadword: 64 bits, the width of a general-purpose register (R20). Narrower operands are carried in the
low bits of a quadword whose other bits are zero. -/
abbrev QWord := BitVec 64

/-- The number of a general-purpose register, the 4-bit value an instruction field selects (R21, R93). -/
abbrev Reg := BitVec 4

end Sys2Proof
end

