-- ==== Sys2Proof/Config.lean ====
section
/-! DEFINITION. What a launch fixes and what the spec leaves open: the operating modes and sizes of 00_scope.md R6, the
constant MAX_INSN_LEN, and the opaque choices behind `any value` (93_implementation_defined.md U1, U2, U6). -/

namespace Sys2Proof

/-- The operating modes of R6 and R32. -/
inductive Mode where
  /-- real-address mode -/
  | real
  /-- protected mode, legacy and not virtual-8086 -/
  | prot
  /-- virtual-8086 mode -/
  | v86
  /-- compatibility mode, a sub-mode of IA-32e mode -/
  | compat
  /-- 64-bit mode, a sub-mode of IA-32e mode -/
  | long64
deriving DecidableEq, Repr

/-- `cs_d` of R6: the default operand and address size of the code segment outside 64-bit mode. -/
inductive CodeSize where
  | d16
  | d32
deriving DecidableEq, Repr

/-- LINEAR_BITS of R6 (D11): the width of a canonical linear address. -/
inductive LinearBits where
  | bits48
  | bits57
deriving DecidableEq, Repr

/-- What decoding consults besides the bytes: the mode and the D bit of the code segment (R90, R91). -/
structure Ctx where
  mode : Mode
  csD : CodeSize
deriving DecidableEq, Repr

/-- MAX_INSN_LEN of R6: the longest legal instruction, in bytes (R108). -/
def Config.maxInsnLen : Nat := 15

/-- The mode and code size right after reset: real-address mode (R36, R240; PRESUMED, log 2), 16-bit code (R6). -/
def Config.resetCtx : Ctx := ⟨.real, .d16⟩

/-- U1: whether `#AC(0)` is the one reported when an operand is both misaligned and in a faulting page. No body:
either answer may be the hardware's (R209; log 8). Applied to `State.choice`. -/
opaque Config.alignmentReportedFirst : Nat → Bool

/-- U2: which faulting page of an operand that lies in several faulting pages is reported. No body: any of them may
be the hardware's (R63; log 7). Applied to `State.choice`. -/
opaque Config.faultingPageReported : Nat → Nat

/-- U6: whether a non-canonical reference whose SS segment comes only from an explicit 36H override raises `#SS(0)`
rather than `#GP(0)`. No body (R59; log 9). Applied to `State.choice`. -/
opaque Config.overrideReportsStack : Nat → Bool

end Sys2Proof
end

