-- ==== Sys2Proof/Machine/State.lean ====
section
/-! DEFINITION. The state of the machine as plain data, its reset value, and the reasons a step stops
(10_state.md R20 to R37, 20_memory.md R50, R62, R65, R66, 60_exceptions.md R200, R211). -/

namespace Sys2Proof.Machine

open Sys2Proof

/-- A segment register (R30). -/
structure Segment where
  /-- the visible part -/
  selector : BitVec 16
  /-- linear address of offset 0; 32 bits of it are used outside 64-bit mode -/
  base : BitVec 64
  /-- highest valid offset of an expand-up segment -/
  limit : BitVec 32
  /-- data segment whose valid offsets lie above the limit -/
  expandDown : Bool
  /-- for expand-down segments: upper bound FFFFFFFFH rather than FFFFH -/
  big : Bool
  /-- false for an execute-only code segment -/
  readable : Bool
deriving DecidableEq, Repr

/-- The six segment registers (R30). -/
structure SegRegs where
  cs : Segment
  ss : Segment
  ds : Segment
  es : Segment
  fs : Segment
  gs : Segment
deriving DecidableEq, Repr

/-- The kinds of access the paging oracle is asked about (R62); CMOVcc only reads (R52). -/
inductive AccessKind where
  | read
  | write
deriving DecidableEq, Repr

/-- What the paging oracle answers for a byte (R62). -/
inductive Translation where
  /-- the physical address -/
  | physical (p : BitVec 64)
  /-- a page fault and its error code -/
  | pageFault (code : BitVec 32)
deriving DecidableEq, Repr

/-- One page of the paging oracle `Translate(a, access, CPL)` as data (R62, D3; log 6): the linear addresses from
`base` to `base + size - 1`, for one kind of access at one privilege level. A translated page starts at the physical
address given; a faulting page gives its error code. -/
structure Page where
  base : BitVec 64
  size : Nat
  access : AccessKind
  cpl : BitVec 2
  result : Translation
deriving DecidableEq, Repr

/-- A region of physical addresses declared as device memory (R65, D13). -/
structure Region where
  base : Nat
  size : Nat
deriving DecidableEq, Repr

/-- The machine's state (R20 to R37 and the parameters of R6, which R37 counts into the launch state). -/
structure State where
  /-- x[0..15] (R20) -/
  regs : Vector (BitVec 64) 16
  /-- RIP, EIP or IP: the offset of the instruction in the code segment (R25) -/
  pc : BitVec 64
  /-- EFLAGS / RFLAGS, the whole word (R27; log 20) -/
  rflags : BitVec 64
  /-- CS, SS, DS, ES, FS, GS (R30) -/
  segs : SegRegs
  /-- the operating mode (R6, R32) -/
  mode : Mode
  /-- the D bit of the code segment (R6, R32) -/
  csD : CodeSize
  /-- the current privilege level (R6, R32) -/
  cpl : BitVec 2
  /-- alignment checking is enabled (R6, R32) -/
  acEnabled : Bool
  /-- the processor implements CMOVcc (R6, R111) -/
  cmovSupported : Bool
  /-- the width of a canonical linear address (R6, R59) -/
  linearBits : LinearBits
  /-- the paging oracle; an address in no page is translated to itself (R6, R62). No step changes it: R62 and D3 make it a function
  within one instruction only, and one table for a whole run is the model's DESIGN CHOICE (log 6) -/
  paging : List Page
  /-- the memory map: physical address and byte, rising; an address not listed is outside the map (R66; log 16) -/
  mem : List Host.Cell
  /-- the MODEL's own field, the read oracle of R53, R67 and R249 as data: for each read event to come, the bytes that other
  agents have put in memory as that event sees it; with no entry nobody else has written (U11, D7; log 27) -/
  readOracle : List (List Host.Cell)
  /-- the regions declared as device memory (R65) -/
  devices : List Region
  /-- the program text: linear address and byte, rising (R6, R70; log 3, log 5) -/
  code : List Host.Cell
  /-- the MODEL's own field: what Config's opaque choices are applied to (log 10) -/
  choice : Nat
deriving DecidableEq, Repr

/-- The exceptions a CMOVcc can raise (R200). -/
inductive ExcKind where
  /-- `#UD`, invalid opcode -/
  | ud
  /-- `#SS`, stack-segment fault -/
  | ss
  /-- `#GP`, general protection -/
  | gp
  /-- `#PF`, page fault -/
  | pf
  /-- `#AC`, alignment check -/
  | ac
deriving DecidableEq, Repr

/-- The reasons a step faults. -/
inductive Fault where
  /-- An exception of R200, a terminal outcome (R211, D2): its kind, its error code or none, the faulting linear address
  for `#PF` or none (R206), and the unchanged state before the instruction (R210). Raised by `raise` alone, from the
  checks of R109 and R60. Safe: the hardware goes on in a handler of which the spec says nothing. -/
  | exception (kind : ExcKind) (code : Option (BitVec 32)) (addr : Option (BitVec 64)) (state : State)
  /-- A read (or a write) of a physical address outside the memory map: no step (R66, U8). Raised by `memRead` and
  `memWrite`. Safe. -/
  | unmapped (addr : Nat)
  /-- An operand whose offsets run past FFFFFFFFH in a segment of 4 GiB, or in 64-bit mode whose bytes run past 2^64 (R72, U7;
  log 15). Raised by `formLinear`. Safe. -/
  | addressWrap
deriving DecidableEq, Repr

/-- The reasons a step is refused. All are safe: the model says nothing of what the hardware does. -/
inductive Refusal where
  /-- Raised by exec's arm of an instruction that has no meaning yet; no arm is. -/
  | notModelled (mnemonic : String)
  /-- The bytes at the program counter are no CMOVcc (R5, R83): the first byte after the prefixes, and the second where the
  first is `0F`. Raised by `step`. -/
  | notCmov (b0 : BitVec 8) (b1 : Option (BitVec 8))
  /-- The instruction's bytes are not wholly inside `code`, or run past the code-segment limit or the top of the address
  space (R26, R70, D6; log 5). Raised by `step`. -/
  | fetchOutsideCode
  /-- An F2 or F3 prefix (R94, D5). Raised by `decodeChecks`. -/
  | repPrefix
  /-- More than one segment-override prefix (R95, D18). Raised by `decodeChecks`. -/
  | severalSegmentOverrides
  /-- A REX byte not immediately before the opcode (R106, D19). Raised by `decodeChecks`. -/
  | misplacedRex
  /-- An operand in a region declared as device memory (R65, D13). Raised by `memRead` and `memWrite`. -/
  | deviceMemory (addr : Nat)
  /-- A term of Instr that no bytes decode to in the machine's mode (R89), so that no step meets it (log 25). Raised by
  `decodeChecks`. -/
  | notEncodable
deriving DecidableEq, Repr

/-- A segment register after reset other than CS (R36, K24; log 2). -/
def Segment.reset : Segment :=
  ⟨0x0000#16, 0#64, 0xFFFF#32, false, false, true⟩

/-- The machine right after reset (R36, R240: the source states no value; log 1, log 2). -/
def State.reset : State where
  regs := Vector.replicate 16 0#64
  pc := 0x0000FFF0#64
  rflags := 0x00000002#64
  segs := ⟨⟨0xF000#16, 0xFFFF0000#64, 0xFFFF#32, false, false, true⟩,
    Segment.reset, Segment.reset, Segment.reset, Segment.reset, Segment.reset⟩
  mode := Config.resetCtx.mode
  csD := Config.resetCtx.csD
  cpl := 0#2
  acEnabled := false
  cmovSupported := true
  linearBits := .bits48
  paging := []
  mem := []
  readOracle := []
  devices := []
  code := []
  choice := 0

end Sys2Proof.Machine
end

