-- ==== Sys2Proof/Syntax.lean ====
section
/-! DEFINITION. The syntax of the CMOVcc instructions: the parts of an instruction as 30_encoding.md R80 lays them out,
and one constructor per row of the opcode table (R115). -/

namespace Sys2Proof

/-- The six segment registers (10_state.md R30). -/
inductive SegName where
  | cs
  | ss
  | ds
  | es
  | fs
  | gs
deriving DecidableEq, Repr

/-- The REX prefix's four bits (R82). -/
structure Rex where
  w : Bool
  r : Bool
  x : Bool
  b : Bool
deriving DecidableEq, Repr

/-- A prefix byte: a legacy prefix (R81) or a REX prefix (R82). Any number may precede the opcode. -/
inductive Prefix where
  /-- F0 -/
  | lock
  /-- F2 -/
  | repne
  /-- F3 -/
  | rep
  /-- 2E, 36, 3E, 26, 64, 65: segment override -/
  | seg (s : SegName)
  /-- 66: operand-size override -/
  | opSize
  /-- 67: address-size override -/
  | addrSize
  /-- 40 to 4F, 64-bit mode only -/
  | rex (r : Rex)
deriving DecidableEq, Repr

/-- The sixteen conditions, one per opcode `0F 40` to `0F 4F` (R84), under the suffix of the opcode's canonical
mnemonic (R113). -/
inductive Cond where
  | o
  | no
  | b
  | ae
  | e
  | ne
  | be
  | a
  | s
  | ns
  | p
  | np
  | l
  | ge
  | le
  | g
deriving DecidableEq, Repr

/-- OperandSize (R90): 16, 32 or 64 bits. There is no 8-bit form (R143). -/
inductive OpSize where
  | w16
  | w32
  | w64
deriving DecidableEq, Repr

/-- AddrSize (R91): 16, 32 or 64 bits. -/
inductive AddrSize where
  | a16
  | a32
  | a64
deriving DecidableEq, Repr

/-- The ModR/M byte (R85). -/
structure ModRM where
  mod : BitVec 2
  reg : BitVec 3
  rm : BitVec 3
deriving DecidableEq, Repr

/-- The SIB byte (R86). -/
structure Sib where
  scale : BitVec 2
  index : BitVec 3
  base : BitVec 3
deriving DecidableEq, Repr

/-- The displacement, by its size in the instruction (R87). -/
inductive Disp where
  | none
  | disp8 (d : BitVec 8)
  | disp16 (d : BitVec 16)
  | disp32 (d : BitVec 32)
deriving DecidableEq, Repr

/-- Everything of a CMOVcc instruction but its two opcode bytes: the prefix bytes in their order, ModR/M, SIB and
displacement (R80). Redundant prefixes are kept, since the length of an instruction is observable (R114). -/
structure Form where
  prefixes : List Prefix
  modrm : ModRM
  sib : Option Sib
  disp : Disp
deriving DecidableEq, Repr

/-- The instructions: one constructor per row of the opcode table, in the table's order (R115). `cmovaR16` is the row
`CMOVA r16, r/m16`, and so on. Synonyms have constructors of their own (R113). -/
inductive Instr where
  /-- `CMOVA r16, r/m16`, `0F 47 /r` (R160) -/
  | cmovaR16 (f : Form)
  /-- `CMOVA r32, r/m32`, `0F 47 /r` (R160) -/
  | cmovaR32 (f : Form)
  /-- `CMOVA r64, r/m64`, `REX.W + 0F 47 /r` (R160) -/
  | cmovaR64 (f : Form)
  /-- `CMOVAE r16, r/m16`, `0F 43 /r` (R161) -/
  | cmovaeR16 (f : Form)
  /-- `CMOVAE r32, r/m32`, `0F 43 /r` (R161) -/
  | cmovaeR32 (f : Form)
  /-- `CMOVAE r64, r/m64`, `REX.W + 0F 43 /r` (R161) -/
  | cmovaeR64 (f : Form)
  /-- `CMOVB r16, r/m16`, `0F 42 /r` (R162) -/
  | cmovbR16 (f : Form)
  /-- `CMOVB r32, r/m32`, `0F 42 /r` (R162) -/
  | cmovbR32 (f : Form)
  /-- `CMOVB r64, r/m64`, `REX.W + 0F 42 /r` (R162) -/
  | cmovbR64 (f : Form)
  /-- `CMOVBE r16, r/m16`, `0F 46 /r` (R163) -/
  | cmovbeR16 (f : Form)
  /-- `CMOVBE r32, r/m32`, `0F 46 /r` (R163) -/
  | cmovbeR32 (f : Form)
  /-- `CMOVBE r64, r/m64`, `REX.W + 0F 46 /r` (R163) -/
  | cmovbeR64 (f : Form)
  /-- `CMOVC r16, r/m16`, `0F 42 /r` (R164) -/
  | cmovcR16 (f : Form)
  /-- `CMOVC r32, r/m32`, `0F 42 /r` (R164) -/
  | cmovcR32 (f : Form)
  /-- `CMOVC r64, r/m64`, `REX.W + 0F 42 /r` (R164) -/
  | cmovcR64 (f : Form)
  /-- `CMOVE r16, r/m16`, `0F 44 /r` (R165) -/
  | cmoveR16 (f : Form)
  /-- `CMOVE r32, r/m32`, `0F 44 /r` (R165) -/
  | cmoveR32 (f : Form)
  /-- `CMOVE r64, r/m64`, `REX.W + 0F 44 /r` (R165) -/
  | cmoveR64 (f : Form)
  /-- `CMOVG r16, r/m16`, `0F 4F /r` (R166) -/
  | cmovgR16 (f : Form)
  /-- `CMOVG r32, r/m32`, `0F 4F /r` (R166) -/
  | cmovgR32 (f : Form)
  /-- `CMOVG r64, r/m64`, `REX.W + 0F 4F /r` (R166) -/
  | cmovgR64 (f : Form)
  /-- `CMOVGE r16, r/m16`, `0F 4D /r` (R167) -/
  | cmovgeR16 (f : Form)
  /-- `CMOVGE r32, r/m32`, `0F 4D /r` (R167) -/
  | cmovgeR32 (f : Form)
  /-- `CMOVGE r64, r/m64`, `REX.W + 0F 4D /r` (R167) -/
  | cmovgeR64 (f : Form)
  /-- `CMOVL r16, r/m16`, `0F 4C /r` (R168) -/
  | cmovlR16 (f : Form)
  /-- `CMOVL r32, r/m32`, `0F 4C /r` (R168) -/
  | cmovlR32 (f : Form)
  /-- `CMOVL r64, r/m64`, `REX.W + 0F 4C /r` (R168) -/
  | cmovlR64 (f : Form)
  /-- `CMOVLE r16, r/m16`, `0F 4E /r` (R169) -/
  | cmovleR16 (f : Form)
  /-- `CMOVLE r32, r/m32`, `0F 4E /r` (R169) -/
  | cmovleR32 (f : Form)
  /-- `CMOVLE r64, r/m64`, `REX.W + 0F 4E /r` (R169) -/
  | cmovleR64 (f : Form)
  /-- `CMOVNA r16, r/m16`, `0F 46 /r` (R170) -/
  | cmovnaR16 (f : Form)
  /-- `CMOVNA r32, r/m32`, `0F 46 /r` (R170) -/
  | cmovnaR32 (f : Form)
  /-- `CMOVNA r64, r/m64`, `REX.W + 0F 46 /r` (R170) -/
  | cmovnaR64 (f : Form)
  /-- `CMOVNAE r16, r/m16`, `0F 42 /r` (R171) -/
  | cmovnaeR16 (f : Form)
  /-- `CMOVNAE r32, r/m32`, `0F 42 /r` (R171) -/
  | cmovnaeR32 (f : Form)
  /-- `CMOVNAE r64, r/m64`, `REX.W + 0F 42 /r` (R171) -/
  | cmovnaeR64 (f : Form)
  /-- `CMOVNB r16, r/m16`, `0F 43 /r` (R172) -/
  | cmovnbR16 (f : Form)
  /-- `CMOVNB r32, r/m32`, `0F 43 /r` (R172) -/
  | cmovnbR32 (f : Form)
  /-- `CMOVNB r64, r/m64`, `REX.W + 0F 43 /r` (R172) -/
  | cmovnbR64 (f : Form)
  /-- `CMOVNBE r16, r/m16`, `0F 47 /r` (R173) -/
  | cmovnbeR16 (f : Form)
  /-- `CMOVNBE r32, r/m32`, `0F 47 /r` (R173) -/
  | cmovnbeR32 (f : Form)
  /-- `CMOVNBE r64, r/m64`, `REX.W + 0F 47 /r` (R173) -/
  | cmovnbeR64 (f : Form)
  /-- `CMOVNC r16, r/m16`, `0F 43 /r` (R174) -/
  | cmovncR16 (f : Form)
  /-- `CMOVNC r32, r/m32`, `0F 43 /r` (R174) -/
  | cmovncR32 (f : Form)
  /-- `CMOVNC r64, r/m64`, `REX.W + 0F 43 /r` (R174) -/
  | cmovncR64 (f : Form)
  /-- `CMOVNE r16, r/m16`, `0F 45 /r` (R175) -/
  | cmovneR16 (f : Form)
  /-- `CMOVNE r32, r/m32`, `0F 45 /r` (R175) -/
  | cmovneR32 (f : Form)
  /-- `CMOVNE r64, r/m64`, `REX.W + 0F 45 /r` (R175) -/
  | cmovneR64 (f : Form)
  /-- `CMOVNG r16, r/m16`, `0F 4E /r` (R176) -/
  | cmovngR16 (f : Form)
  /-- `CMOVNG r32, r/m32`, `0F 4E /r` (R176) -/
  | cmovngR32 (f : Form)
  /-- `CMOVNG r64, r/m64`, `REX.W + 0F 4E /r` (R176) -/
  | cmovngR64 (f : Form)
  /-- `CMOVNGE r16, r/m16`, `0F 4C /r` (R177) -/
  | cmovngeR16 (f : Form)
  /-- `CMOVNGE r32, r/m32`, `0F 4C /r` (R177) -/
  | cmovngeR32 (f : Form)
  /-- `CMOVNGE r64, r/m64`, `REX.W + 0F 4C /r` (R177) -/
  | cmovngeR64 (f : Form)
  /-- `CMOVNL r16, r/m16`, `0F 4D /r` (R178) -/
  | cmovnlR16 (f : Form)
  /-- `CMOVNL r32, r/m32`, `0F 4D /r` (R178) -/
  | cmovnlR32 (f : Form)
  /-- `CMOVNL r64, r/m64`, `REX.W + 0F 4D /r` (R178) -/
  | cmovnlR64 (f : Form)
  /-- `CMOVNLE r16, r/m16`, `0F 4F /r` (R179) -/
  | cmovnleR16 (f : Form)
  /-- `CMOVNLE r32, r/m32`, `0F 4F /r` (R179) -/
  | cmovnleR32 (f : Form)
  /-- `CMOVNLE r64, r/m64`, `REX.W + 0F 4F /r` (R179) -/
  | cmovnleR64 (f : Form)
  /-- `CMOVNO r16, r/m16`, `0F 41 /r` (R180) -/
  | cmovnoR16 (f : Form)
  /-- `CMOVNO r32, r/m32`, `0F 41 /r` (R180) -/
  | cmovnoR32 (f : Form)
  /-- `CMOVNO r64, r/m64`, `REX.W + 0F 41 /r` (R180) -/
  | cmovnoR64 (f : Form)
  /-- `CMOVNP r16, r/m16`, `0F 4B /r` (R181) -/
  | cmovnpR16 (f : Form)
  /-- `CMOVNP r32, r/m32`, `0F 4B /r` (R181) -/
  | cmovnpR32 (f : Form)
  /-- `CMOVNP r64, r/m64`, `REX.W + 0F 4B /r` (R181) -/
  | cmovnpR64 (f : Form)
  /-- `CMOVNS r16, r/m16`, `0F 49 /r` (R182) -/
  | cmovnsR16 (f : Form)
  /-- `CMOVNS r32, r/m32`, `0F 49 /r` (R182) -/
  | cmovnsR32 (f : Form)
  /-- `CMOVNS r64, r/m64`, `REX.W + 0F 49 /r` (R182) -/
  | cmovnsR64 (f : Form)
  /-- `CMOVNZ r16, r/m16`, `0F 45 /r` (R183) -/
  | cmovnzR16 (f : Form)
  /-- `CMOVNZ r32, r/m32`, `0F 45 /r` (R183) -/
  | cmovnzR32 (f : Form)
  /-- `CMOVNZ r64, r/m64`, `REX.W + 0F 45 /r` (R183) -/
  | cmovnzR64 (f : Form)
  /-- `CMOVO r16, r/m16`, `0F 40 /r` (R184) -/
  | cmovoR16 (f : Form)
  /-- `CMOVO r32, r/m32`, `0F 40 /r` (R184) -/
  | cmovoR32 (f : Form)
  /-- `CMOVO r64, r/m64`, `REX.W + 0F 40 /r` (R184) -/
  | cmovoR64 (f : Form)
  /-- `CMOVP r16, r/m16`, `0F 4A /r` (R185) -/
  | cmovpR16 (f : Form)
  /-- `CMOVP r32, r/m32`, `0F 4A /r` (R185) -/
  | cmovpR32 (f : Form)
  /-- `CMOVP r64, r/m64`, `REX.W + 0F 4A /r` (R185) -/
  | cmovpR64 (f : Form)
  /-- `CMOVPE r16, r/m16`, `0F 4A /r` (R186) -/
  | cmovpeR16 (f : Form)
  /-- `CMOVPE r32, r/m32`, `0F 4A /r` (R186) -/
  | cmovpeR32 (f : Form)
  /-- `CMOVPE r64, r/m64`, `REX.W + 0F 4A /r` (R186) -/
  | cmovpeR64 (f : Form)
  /-- `CMOVPO r16, r/m16`, `0F 4B /r` (R187) -/
  | cmovpoR16 (f : Form)
  /-- `CMOVPO r32, r/m32`, `0F 4B /r` (R187) -/
  | cmovpoR32 (f : Form)
  /-- `CMOVPO r64, r/m64`, `REX.W + 0F 4B /r` (R187) -/
  | cmovpoR64 (f : Form)
  /-- `CMOVS r16, r/m16`, `0F 48 /r` (R188) -/
  | cmovsR16 (f : Form)
  /-- `CMOVS r32, r/m32`, `0F 48 /r` (R188) -/
  | cmovsR32 (f : Form)
  /-- `CMOVS r64, r/m64`, `REX.W + 0F 48 /r` (R188) -/
  | cmovsR64 (f : Form)
  /-- `CMOVZ r16, r/m16`, `0F 44 /r` (R189) -/
  | cmovzR16 (f : Form)
  /-- `CMOVZ r32, r/m32`, `0F 44 /r` (R189) -/
  | cmovzR32 (f : Form)
  /-- `CMOVZ r64, r/m64`, `REX.W + 0F 44 /r` (R189) -/
  | cmovzR64 (f : Form)
deriving DecidableEq, Repr

end Sys2Proof
end

