-- ==== Sys2Proof/Machine/Flags.lean ====
section
/-! DEFINITION. The five status flags and the sixteen conditions over them (10_state.md R27, 40_cmovcc_operation.md R131). -/

namespace Sys2Proof.Machine

open Sys2Proof

/-- The record of five independent bits that R27 gives the machine as `flags`. -/
structure Flags where
  cf : Bool
  pf : Bool
  zf : Bool
  sf : Bool
  of : Bool
deriving DecidableEq, Repr

/-- The five flags in an EFLAGS image: CF bit 0, PF bit 2, ZF bit 6, SF bit 7, OF bit 11 (R27). -/
def flagsOfImage (v : BitVec 64) : Flags :=
  ⟨v.getLsbD 0, v.getLsbD 2, v.getLsbD 6, v.getLsbD 7, v.getLsbD 11⟩

/-- The machine's status flags (R27). -/
def State.flags (s : State) : Flags :=
  flagsOfImage s.rflags

/-- The condition predicate (R131). AF is never tested. -/
def condHolds (c : Cond) (fl : Flags) : Bool :=
  match c with
  | .o => fl.of
  | .no => !fl.of
  | .b => fl.cf
  | .ae => !fl.cf
  | .e => fl.zf
  | .ne => !fl.zf
  | .be => fl.cf || fl.zf
  | .a => !fl.cf && !fl.zf
  | .s => fl.sf
  | .ns => !fl.sf
  | .p => fl.pf
  | .np => !fl.pf
  | .l => fl.sf != fl.of
  | .ge => fl.sf == fl.of
  | .le => fl.zf || fl.sf != fl.of
  | .g => !fl.zf && fl.sf == fl.of

/-- The value of a whole EFLAGS word's bits that R27 fixes: bit 1 reads 1; bits 3, 5, 15 and 22 to 63 read 0. -/
def reservedFlagBitsOk (v : BitVec 64) : Bool :=
  v.getLsbD 1 && !v.getLsbD 3 && !v.getLsbD 5 && !v.getLsbD 15 && v.extractLsb' 22 42 == 0#42

end Sys2Proof.Machine
end

