-- ==== Sys2Proof/Decode.lean ====
section
/-! DEFINITION. The decoder and the encoder of 30_encoding.md: prefix bytes, opcode, ModR/M, SIB, displacement, operand and
address size, length, and what R109 asks of the prefixes. Decoding is total on any bytes; the legality checks that raise
an exception or refuse (R92, R94, R95, R106, R108, R111) are made by the meaning, in R109's order, on what is decoded here. -/

namespace Sys2Proof

/-! ### Numbers of the names -/

/-- The condition number of a condition (R84). -/
def Cond.num : Cond → BitVec 4
  | .o => 0#4
  | .no => 1#4
  | .b => 2#4
  | .ae => 3#4
  | .e => 4#4
  | .ne => 5#4
  | .be => 6#4
  | .a => 7#4
  | .s => 8#4
  | .ns => 9#4
  | .p => 10#4
  | .np => 11#4
  | .l => 12#4
  | .ge => 13#4
  | .le => 14#4
  | .g => 15#4

/-- The condition a condition number selects (R84). -/
def Cond.ofNum (v : BitVec 4) : Cond :=
  match v.toNat with
  | 0 => .o
  | 1 => .no
  | 2 => .b
  | 3 => .ae
  | 4 => .e
  | 5 => .ne
  | 6 => .be
  | 7 => .a
  | 8 => .s
  | 9 => .ns
  | 10 => .p
  | 11 => .np
  | 12 => .l
  | 13 => .ge
  | 14 => .le
  | _ => .g

/-- The byte of a segment-override prefix (R81). -/
def SegName.overrideByte : SegName → Byte
  | .cs => 0x2E#8
  | .ss => 0x36#8
  | .ds => 0x3E#8
  | .es => 0x26#8
  | .fs => 0x64#8
  | .gs => 0x65#8

/-- The REX bits of a byte (R82): W is bit 3, R bit 2, X bit 1, B bit 0. -/
def Rex.ofByte (b : Byte) : Rex :=
  ⟨b.getLsbD 3, b.getLsbD 2, b.getLsbD 1, b.getLsbD 0⟩

/-- The byte `0100WRXB` (R82). -/
def Rex.byte (r : Rex) : Byte :=
  0x4#4 ++ BitVec.ofBool r.w ++ BitVec.ofBool r.r ++ BitVec.ofBool r.x ++ BitVec.ofBool r.b

/-- Whether a byte's high nibble is 4: a REX byte in prefix position (R82), a CMOVcc byte after `0F` (R83). -/
def highNibbleIs4 (b : Byte) : Bool :=
  b.extractLsb' 4 4 == 4#4

/-- The prefix a byte is, if it is one: the legacy bytes of R81, and in 64-bit mode the REX bytes of R82. -/
def Prefix.ofByte (ctx : Ctx) (b : Byte) : Option Prefix :=
  match b.toNat with
  | 0xF0 => some .lock
  | 0xF2 => some .repne
  | 0xF3 => some .rep
  | 0x2E => some (.seg .cs)
  | 0x36 => some (.seg .ss)
  | 0x3E => some (.seg .ds)
  | 0x26 => some (.seg .es)
  | 0x64 => some (.seg .fs)
  | 0x65 => some (.seg .gs)
  | 0x66 => some .opSize
  | 0x67 => some .addrSize
  | _ => if ctx.mode = .long64 ∧ highNibbleIs4 b then some (.rex (Rex.ofByte b)) else none

/-- The byte of a prefix (R81, R82). -/
def Prefix.byte : Prefix → Byte
  | .lock => 0xF0#8
  | .repne => 0xF2#8
  | .rep => 0xF3#8
  | .seg s => s.overrideByte
  | .opSize => 0x66#8
  | .addrSize => 0x67#8
  | .rex r => r.byte

/-- The fields of a ModR/M byte (R85). -/
def ModRM.ofByte (b : Byte) : ModRM :=
  ⟨b.extractLsb' 6 2, b.extractLsb' 3 3, b.extractLsb' 0 3⟩

/-- The ModR/M byte (R85). -/
def ModRM.byte (m : ModRM) : Byte :=
  m.mod ++ m.reg ++ m.rm

/-- The fields of a SIB byte (R86). -/
def Sib.ofByte (b : Byte) : Sib :=
  ⟨b.extractLsb' 6 2, b.extractLsb' 3 3, b.extractLsb' 0 3⟩

/-- The SIB byte (R86). -/
def Sib.byte (s : Sib) : Byte :=
  s.scale ++ s.index ++ s.base

/-! ### What the prefixes say -/

/-- The REX prefix in force: the last prefix byte, if it is a REX byte (R82, R106). -/
def rexOf (ps : List Prefix) : Option Rex :=
  match ps.getLast? with
  | some (.rex r) => some r
  | _ => none

/-- Whether a prefix is a REX prefix. -/
def Prefix.isRex : Prefix → Bool
  | .rex _ => true
  | _ => false

/-- The segment register a prefix names, if it is a segment override (R81). -/
def Prefix.segment? : Prefix → Option SegName
  | .seg s => some s
  | _ => none

/-- REX.W; 0 when there is no REX byte. -/
def rexW (ps : List Prefix) : Bool := match rexOf ps with | some r => r.w | none => false

/-- REX.R; 0 when there is no REX byte (R93). -/
def rexR (ps : List Prefix) : Bool := match rexOf ps with | some r => r.r | none => false

/-- REX.X; 0 when there is no REX byte (R93). -/
def rexX (ps : List Prefix) : Bool := match rexOf ps with | some r => r.x | none => false

/-- REX.B; 0 when there is no REX byte (R93). -/
def rexB (ps : List Prefix) : Bool := match rexOf ps with | some r => r.b | none => false

/-- The segment overrides among the prefixes, in order (R95). -/
def segOverrides (ps : List Prefix) : List SegName :=
  ps.filterMap Prefix.segment?

/-- Whether a LOCK prefix is among the prefixes (R92). -/
def hasLock (ps : List Prefix) : Bool :=
  decide (Prefix.lock ∈ ps)

/-- Whether an F2 or F3 prefix is among the prefixes (R94). -/
def hasRep (ps : List Prefix) : Bool :=
  decide (Prefix.repne ∈ ps) || decide (Prefix.rep ∈ ps)

/-- Whether a REX byte is followed by another prefix byte (R106). -/
def misplacedRex (ps : List Prefix) : Bool :=
  ps.dropLast.any Prefix.isRex

/-! ### Sizes -/

/-- The default operand and address size outside 64-bit mode: `cs_d`, and 16 in real-address and virtual-8086 mode (R6). -/
def Ctx.defaultSize (ctx : Ctx) : CodeSize :=
  match ctx.mode with
  | .real => .d16
  | .v86 => .d16
  | _ => ctx.csD

/-- OperandSize (R90): REX.W overrides 66H, a repeated 66H has the effect of one (R106). -/
def operandSize (ctx : Ctx) (ps : List Prefix) : OpSize :=
  match ctx.mode with
  | .long64 => if rexW ps then .w64 else if Prefix.opSize ∈ ps then .w16 else .w32
  | _ =>
    match ctx.defaultSize with
    | .d32 => if Prefix.opSize ∈ ps then .w16 else .w32
    | .d16 => if Prefix.opSize ∈ ps then .w32 else .w16

/-- AddrSize (R91). -/
def addressSize (ctx : Ctx) (ps : List Prefix) : AddrSize :=
  match ctx.mode with
  | .long64 => if Prefix.addrSize ∈ ps then .a32 else .a64
  | _ =>
    match ctx.defaultSize with
    | .d32 => if Prefix.addrSize ∈ ps then .a16 else .a32
    | .d16 => if Prefix.addrSize ∈ ps then .a32 else .a16

/-- Whether ModR/M is followed by a SIB byte (R86). -/
def needsSib (a : AddrSize) (m : ModRM) : Bool :=
  a != .a16 && m.mod != 3#2 && m.rm == 4#3

/-- The sizes a displacement may have in the instruction (R87). -/
inductive DispKind where
  | none
  | disp8
  | disp16
  | disp32
deriving DecidableEq, Repr

/-- Whether the SIB byte is present with base field 5 (R87, R99). -/
def sibBaseIs5 : Option Sib → Bool
  | some s => s.base == 5#3
  | none => false

/-- The displacement that follows ModR/M and SIB (R87). -/
def dispKind (a : AddrSize) (m : ModRM) (sib : Option Sib) : DispKind :=
  match m.mod.toNat with
  | 0 =>
    if a = .a16 then (if m.rm = 6#3 then .disp16 else .none)
    else if m.rm = 5#3 || sibBaseIs5 sib then .disp32 else .none
  | 1 => .disp8
  | 2 => if a = .a16 then .disp16 else .disp32
  | _ => .none

/-- The kind of a displacement. -/
def Disp.kind : Disp → DispKind
  | .none => .none
  | .disp8 _ => .disp8
  | .disp16 _ => .disp16
  | .disp32 _ => .disp32

/-! ### Decoding -/

/-- The prefix bytes at the front of the bytes, and what follows them (R107). -/
def takePrefixes (ctx : Ctx) : List Byte → List Prefix × List Byte
  | [] => ([], [])
  | b :: bs =>
    match Prefix.ofByte ctx b with
    | some p => (p :: (takePrefixes ctx bs).1, (takePrefixes ctx bs).2)
    | none => ([], b :: bs)

/-- The displacement at the front of the bytes, little-endian (R105), and what follows it. -/
def takeDisp : DispKind → List Byte → Option (Disp × List Byte)
  | .none, bs => some (.none, bs)
  | .disp8, d0 :: bs => some (.disp8 d0, bs)
  | .disp16, d0 :: d1 :: bs => some (.disp16 (d1 ++ d0), bs)
  | .disp32, d0 :: d1 :: d2 :: d3 :: bs => some (.disp32 (d3 ++ d2 ++ d1 ++ d0), bs)
  | _, _ => none

/-- The SIB byte at the front of the bytes where one is present, and what follows it (R86). -/
def takeSib : Bool → List Byte → Option (Option Sib × List Byte)
  | false, bs => some (none, bs)
  | true, b :: bs => some (some (Sib.ofByte b), bs)
  | true, [] => none

/-- What follows the two opcode bytes: ModR/M, SIB, displacement (R107). -/
def takeForm (ctx : Ctx) (ps : List Prefix) : List Byte → Option (Form × List Byte)
  | [] => none
  | b :: bs =>
    match takeSib (needsSib (addressSize ctx ps) (ModRM.ofByte b)) bs with
    | none => none
    | some (sib, bs') =>
      match takeDisp (dispKind (addressSize ctx ps) (ModRM.ofByte b) sib) bs' with
      | none => none
      | some (d, rest) => some (⟨ps, ModRM.ofByte b, sib, d⟩, rest)

/-- The instruction a disassembler names for a condition, an operand size and a form: the canonical mnemonic of the
opcode (R113). -/
def Instr.ofParts : Cond → OpSize → Form → Instr
  | .o, .w16 => .cmovoR16
  | .o, .w32 => .cmovoR32
  | .o, .w64 => .cmovoR64
  | .no, .w16 => .cmovnoR16
  | .no, .w32 => .cmovnoR32
  | .no, .w64 => .cmovnoR64
  | .b, .w16 => .cmovbR16
  | .b, .w32 => .cmovbR32
  | .b, .w64 => .cmovbR64
  | .ae, .w16 => .cmovaeR16
  | .ae, .w32 => .cmovaeR32
  | .ae, .w64 => .cmovaeR64
  | .e, .w16 => .cmoveR16
  | .e, .w32 => .cmoveR32
  | .e, .w64 => .cmoveR64
  | .ne, .w16 => .cmovneR16
  | .ne, .w32 => .cmovneR32
  | .ne, .w64 => .cmovneR64
  | .be, .w16 => .cmovbeR16
  | .be, .w32 => .cmovbeR32
  | .be, .w64 => .cmovbeR64
  | .a, .w16 => .cmovaR16
  | .a, .w32 => .cmovaR32
  | .a, .w64 => .cmovaR64
  | .s, .w16 => .cmovsR16
  | .s, .w32 => .cmovsR32
  | .s, .w64 => .cmovsR64
  | .ns, .w16 => .cmovnsR16
  | .ns, .w32 => .cmovnsR32
  | .ns, .w64 => .cmovnsR64
  | .p, .w16 => .cmovpR16
  | .p, .w32 => .cmovpR32
  | .p, .w64 => .cmovpR64
  | .np, .w16 => .cmovnpR16
  | .np, .w32 => .cmovnpR32
  | .np, .w64 => .cmovnpR64
  | .l, .w16 => .cmovlR16
  | .l, .w32 => .cmovlR32
  | .l, .w64 => .cmovlR64
  | .ge, .w16 => .cmovgeR16
  | .ge, .w32 => .cmovgeR32
  | .ge, .w64 => .cmovgeR64
  | .le, .w16 => .cmovleR16
  | .le, .w32 => .cmovleR32
  | .le, .w64 => .cmovleR64
  | .g, .w16 => .cmovgR16
  | .g, .w32 => .cmovgR32
  | .g, .w64 => .cmovgR64

/-- What the decoder answers. -/
inductive Decoded where
  /-- an instruction, and the bytes after it -/
  | instr (i : Instr) (rest : List Byte)
  /-- the bytes after the prefixes are no CMOVcc: the first of them, and the second where the first is `0F` (R83, R5) -/
  | notCmov (b0 : Byte) (b1 : Option Byte)
  /-- the bytes end before the instruction does -/
  | truncated
deriving DecidableEq, Repr

/-- The decoder (R107, R109): prefixes, `0F`, `4x`, and the rest of the form. The operand size R90 gives selects the
row of the opcode table. -/
def decode (ctx : Ctx) (bs : List Byte) : Decoded :=
  match (takePrefixes ctx bs).2 with
  | [] => .truncated
  | b0 :: r0 =>
    if b0 = 0x0F#8 then
      match r0 with
      | [] => .truncated
      | b1 :: r1 =>
        if highNibbleIs4 b1 then
          match takeForm ctx (takePrefixes ctx bs).1 r1 with
          | none => .truncated
          | some (f, rest) => .instr (Instr.ofParts (Cond.ofNum (b1.extractLsb' 0 4)) (operandSize ctx f.prefixes) f) rest
        else .notCmov b0 (some b1)
    else .notCmov b0 none

/-! ### The parts of an instruction -/

/-- The condition each constructor tests (R84; the rows' rules R160 to R189). -/
def Instr.cond : Instr → Cond
  | .cmovaR16 _ => .a
  | .cmovaR32 _ => .a
  | .cmovaR64 _ => .a
  | .cmovaeR16 _ => .ae
  | .cmovaeR32 _ => .ae
  | .cmovaeR64 _ => .ae
  | .cmovbR16 _ => .b
  | .cmovbR32 _ => .b
  | .cmovbR64 _ => .b
  | .cmovbeR16 _ => .be
  | .cmovbeR32 _ => .be
  | .cmovbeR64 _ => .be
  | .cmovcR16 _ => .b
  | .cmovcR32 _ => .b
  | .cmovcR64 _ => .b
  | .cmoveR16 _ => .e
  | .cmoveR32 _ => .e
  | .cmoveR64 _ => .e
  | .cmovgR16 _ => .g
  | .cmovgR32 _ => .g
  | .cmovgR64 _ => .g
  | .cmovgeR16 _ => .ge
  | .cmovgeR32 _ => .ge
  | .cmovgeR64 _ => .ge
  | .cmovlR16 _ => .l
  | .cmovlR32 _ => .l
  | .cmovlR64 _ => .l
  | .cmovleR16 _ => .le
  | .cmovleR32 _ => .le
  | .cmovleR64 _ => .le
  | .cmovnaR16 _ => .be
  | .cmovnaR32 _ => .be
  | .cmovnaR64 _ => .be
  | .cmovnaeR16 _ => .b
  | .cmovnaeR32 _ => .b
  | .cmovnaeR64 _ => .b
  | .cmovnbR16 _ => .ae
  | .cmovnbR32 _ => .ae
  | .cmovnbR64 _ => .ae
  | .cmovnbeR16 _ => .a
  | .cmovnbeR32 _ => .a
  | .cmovnbeR64 _ => .a
  | .cmovncR16 _ => .ae
  | .cmovncR32 _ => .ae
  | .cmovncR64 _ => .ae
  | .cmovneR16 _ => .ne
  | .cmovneR32 _ => .ne
  | .cmovneR64 _ => .ne
  | .cmovngR16 _ => .le
  | .cmovngR32 _ => .le
  | .cmovngR64 _ => .le
  | .cmovngeR16 _ => .l
  | .cmovngeR32 _ => .l
  | .cmovngeR64 _ => .l
  | .cmovnlR16 _ => .ge
  | .cmovnlR32 _ => .ge
  | .cmovnlR64 _ => .ge
  | .cmovnleR16 _ => .g
  | .cmovnleR32 _ => .g
  | .cmovnleR64 _ => .g
  | .cmovnoR16 _ => .no
  | .cmovnoR32 _ => .no
  | .cmovnoR64 _ => .no
  | .cmovnpR16 _ => .np
  | .cmovnpR32 _ => .np
  | .cmovnpR64 _ => .np
  | .cmovnsR16 _ => .ns
  | .cmovnsR32 _ => .ns
  | .cmovnsR64 _ => .ns
  | .cmovnzR16 _ => .ne
  | .cmovnzR32 _ => .ne
  | .cmovnzR64 _ => .ne
  | .cmovoR16 _ => .o
  | .cmovoR32 _ => .o
  | .cmovoR64 _ => .o
  | .cmovpR16 _ => .p
  | .cmovpR32 _ => .p
  | .cmovpR64 _ => .p
  | .cmovpeR16 _ => .p
  | .cmovpeR32 _ => .p
  | .cmovpeR64 _ => .p
  | .cmovpoR16 _ => .np
  | .cmovpoR32 _ => .np
  | .cmovpoR64 _ => .np
  | .cmovsR16 _ => .s
  | .cmovsR32 _ => .s
  | .cmovsR64 _ => .s
  | .cmovzR16 _ => .e
  | .cmovzR32 _ => .e
  | .cmovzR64 _ => .e

/-- The operand size of each constructor's row. -/
def Instr.size : Instr → OpSize
  | .cmovaR16 _ => .w16
  | .cmovaR32 _ => .w32
  | .cmovaR64 _ => .w64
  | .cmovaeR16 _ => .w16
  | .cmovaeR32 _ => .w32
  | .cmovaeR64 _ => .w64
  | .cmovbR16 _ => .w16
  | .cmovbR32 _ => .w32
  | .cmovbR64 _ => .w64
  | .cmovbeR16 _ => .w16
  | .cmovbeR32 _ => .w32
  | .cmovbeR64 _ => .w64
  | .cmovcR16 _ => .w16
  | .cmovcR32 _ => .w32
  | .cmovcR64 _ => .w64
  | .cmoveR16 _ => .w16
  | .cmoveR32 _ => .w32
  | .cmoveR64 _ => .w64
  | .cmovgR16 _ => .w16
  | .cmovgR32 _ => .w32
  | .cmovgR64 _ => .w64
  | .cmovgeR16 _ => .w16
  | .cmovgeR32 _ => .w32
  | .cmovgeR64 _ => .w64
  | .cmovlR16 _ => .w16
  | .cmovlR32 _ => .w32
  | .cmovlR64 _ => .w64
  | .cmovleR16 _ => .w16
  | .cmovleR32 _ => .w32
  | .cmovleR64 _ => .w64
  | .cmovnaR16 _ => .w16
  | .cmovnaR32 _ => .w32
  | .cmovnaR64 _ => .w64
  | .cmovnaeR16 _ => .w16
  | .cmovnaeR32 _ => .w32
  | .cmovnaeR64 _ => .w64
  | .cmovnbR16 _ => .w16
  | .cmovnbR32 _ => .w32
  | .cmovnbR64 _ => .w64
  | .cmovnbeR16 _ => .w16
  | .cmovnbeR32 _ => .w32
  | .cmovnbeR64 _ => .w64
  | .cmovncR16 _ => .w16
  | .cmovncR32 _ => .w32
  | .cmovncR64 _ => .w64
  | .cmovneR16 _ => .w16
  | .cmovneR32 _ => .w32
  | .cmovneR64 _ => .w64
  | .cmovngR16 _ => .w16
  | .cmovngR32 _ => .w32
  | .cmovngR64 _ => .w64
  | .cmovngeR16 _ => .w16
  | .cmovngeR32 _ => .w32
  | .cmovngeR64 _ => .w64
  | .cmovnlR16 _ => .w16
  | .cmovnlR32 _ => .w32
  | .cmovnlR64 _ => .w64
  | .cmovnleR16 _ => .w16
  | .cmovnleR32 _ => .w32
  | .cmovnleR64 _ => .w64
  | .cmovnoR16 _ => .w16
  | .cmovnoR32 _ => .w32
  | .cmovnoR64 _ => .w64
  | .cmovnpR16 _ => .w16
  | .cmovnpR32 _ => .w32
  | .cmovnpR64 _ => .w64
  | .cmovnsR16 _ => .w16
  | .cmovnsR32 _ => .w32
  | .cmovnsR64 _ => .w64
  | .cmovnzR16 _ => .w16
  | .cmovnzR32 _ => .w32
  | .cmovnzR64 _ => .w64
  | .cmovoR16 _ => .w16
  | .cmovoR32 _ => .w32
  | .cmovoR64 _ => .w64
  | .cmovpR16 _ => .w16
  | .cmovpR32 _ => .w32
  | .cmovpR64 _ => .w64
  | .cmovpeR16 _ => .w16
  | .cmovpeR32 _ => .w32
  | .cmovpeR64 _ => .w64
  | .cmovpoR16 _ => .w16
  | .cmovpoR32 _ => .w32
  | .cmovpoR64 _ => .w64
  | .cmovsR16 _ => .w16
  | .cmovsR32 _ => .w32
  | .cmovsR64 _ => .w64
  | .cmovzR16 _ => .w16
  | .cmovzR32 _ => .w32
  | .cmovzR64 _ => .w64

/-- The form an instruction has. -/
def Instr.form : Instr → Form
  | .cmovaR16 f => f
  | .cmovaR32 f => f
  | .cmovaR64 f => f
  | .cmovaeR16 f => f
  | .cmovaeR32 f => f
  | .cmovaeR64 f => f
  | .cmovbR16 f => f
  | .cmovbR32 f => f
  | .cmovbR64 f => f
  | .cmovbeR16 f => f
  | .cmovbeR32 f => f
  | .cmovbeR64 f => f
  | .cmovcR16 f => f
  | .cmovcR32 f => f
  | .cmovcR64 f => f
  | .cmoveR16 f => f
  | .cmoveR32 f => f
  | .cmoveR64 f => f
  | .cmovgR16 f => f
  | .cmovgR32 f => f
  | .cmovgR64 f => f
  | .cmovgeR16 f => f
  | .cmovgeR32 f => f
  | .cmovgeR64 f => f
  | .cmovlR16 f => f
  | .cmovlR32 f => f
  | .cmovlR64 f => f
  | .cmovleR16 f => f
  | .cmovleR32 f => f
  | .cmovleR64 f => f
  | .cmovnaR16 f => f
  | .cmovnaR32 f => f
  | .cmovnaR64 f => f
  | .cmovnaeR16 f => f
  | .cmovnaeR32 f => f
  | .cmovnaeR64 f => f
  | .cmovnbR16 f => f
  | .cmovnbR32 f => f
  | .cmovnbR64 f => f
  | .cmovnbeR16 f => f
  | .cmovnbeR32 f => f
  | .cmovnbeR64 f => f
  | .cmovncR16 f => f
  | .cmovncR32 f => f
  | .cmovncR64 f => f
  | .cmovneR16 f => f
  | .cmovneR32 f => f
  | .cmovneR64 f => f
  | .cmovngR16 f => f
  | .cmovngR32 f => f
  | .cmovngR64 f => f
  | .cmovngeR16 f => f
  | .cmovngeR32 f => f
  | .cmovngeR64 f => f
  | .cmovnlR16 f => f
  | .cmovnlR32 f => f
  | .cmovnlR64 f => f
  | .cmovnleR16 f => f
  | .cmovnleR32 f => f
  | .cmovnleR64 f => f
  | .cmovnoR16 f => f
  | .cmovnoR32 f => f
  | .cmovnoR64 f => f
  | .cmovnpR16 f => f
  | .cmovnpR32 f => f
  | .cmovnpR64 f => f
  | .cmovnsR16 f => f
  | .cmovnsR32 f => f
  | .cmovnsR64 f => f
  | .cmovnzR16 f => f
  | .cmovnzR32 f => f
  | .cmovnzR64 f => f
  | .cmovoR16 f => f
  | .cmovoR32 f => f
  | .cmovoR64 f => f
  | .cmovpR16 f => f
  | .cmovpR32 f => f
  | .cmovpR64 f => f
  | .cmovpeR16 f => f
  | .cmovpeR32 f => f
  | .cmovpeR64 f => f
  | .cmovpoR16 f => f
  | .cmovpoR32 f => f
  | .cmovpoR64 f => f
  | .cmovsR16 f => f
  | .cmovsR32 f => f
  | .cmovsR64 f => f
  | .cmovzR16 f => f
  | .cmovzR32 f => f
  | .cmovzR64 f => f

/-- The same instruction under the canonical mnemonic of its opcode (R113). -/
def Instr.canonical (i : Instr) : Instr :=
  Instr.ofParts i.cond i.size i.form

/-! ### Encoding -/

/-- The bytes of a displacement, little-endian (R105). -/
def Disp.bytes : Disp → List Byte
  | .none => []
  | .disp8 d => [d]
  | .disp16 d => [d.extractLsb' 0 8, d.extractLsb' 8 8]
  | .disp32 d => [d.extractLsb' 0 8, d.extractLsb' 8 8, d.extractLsb' 16 8, d.extractLsb' 24 8]

/-- The bytes of the SIB byte, where there is one. -/
def sibBytes : Option Sib → List Byte
  | some s => [s.byte]
  | none => []

/-- The second opcode byte, `40H + cc` (R83). -/
def opcodeByte (c : Cond) : Byte :=
  0x4#4 ++ c.num

/-- The bytes of an instruction (R80). -/
def encode (i : Instr) : List Byte :=
  i.form.prefixes.map Prefix.byte ++
    0x0F#8 :: opcodeByte i.cond :: i.form.modrm.byte :: (sibBytes i.form.sib ++ i.form.disp.bytes)

/-- The size of a displacement in bytes (R87). -/
def Disp.size : Disp → Nat
  | .none => 0
  | .disp8 _ => 1
  | .disp16 _ => 2
  | .disp32 _ => 4

/-- The length `L` of an instruction in bytes (R107). -/
def Form.length (f : Form) : Nat :=
  f.prefixes.length + 2 + 1 + (if f.sib.isSome then 1 else 0) + f.disp.size

/-- Whether some bytes decode, in a context, to this form at this operand size: REX bytes only in 64-bit mode (R82), the
operand size that R90 gives, a SIB byte exactly where R86 has one, the displacement R87 gives. -/
def Form.encodable (ctx : Ctx) (n : OpSize) (f : Form) : Bool :=
  (ctx.mode == .long64 || !f.prefixes.any Prefix.isRex) &&
    operandSize ctx f.prefixes == n &&
    f.sib.isSome == needsSib (addressSize ctx f.prefixes) f.modrm &&
    f.disp.kind == dispKind (addressSize ctx f.prefixes) f.modrm f.sib

/-! ### The opcode table's words -/

/-- Byte `k` of a table word: the first word is the two opcode bytes with `0F` in bits 15:8 (R115), the later bytes
follow from bit 16 on, the lowest first (log 4). -/
def tableByte (v k : Nat) : Byte :=
  match k with
  | 0 => BitVec.ofNat 8 (v / 2 ^ 8)
  | 1 => BitVec.ofNat 8 v
  | k + 2 => BitVec.ofNat 8 (v / 2 ^ (8 * (k + 2)))

/-- The fifteen bytes that a table word of `nbits` bits stands for, zero above its bits (log 4). -/
def tableBytes (nbits w : Nat) : List Byte :=
  (List.range Config.maxInsnLen).map (tableByte (w % 2 ^ nbits))

/-- The instruction the decoder reads, right after reset, from a word of the opcode table (log 4). -/
def decodeTableWord (nbits w : Nat) : Option Instr :=
  match decode Config.resetCtx (tableBytes nbits w) with
  | .instr i _ => some i
  | _ => none

end Sys2Proof
end

