-- ==== Sys2Proof/WellFormed.lean ====
section
/-! DEFINITION. When an instruction is well formed in a context: some bytes decode to it there, and it is neither illegal
nor reserved (30_encoding.md R110). Each check has a smoke test in Sys2Proof/Tests/Slice0.lean. -/

namespace Sys2Proof

/-- A form that is neither illegal nor reserved (R110): no LOCK (R92), no F2 or F3 (R94), at most one segment override
(R95), no REX byte but immediately before the opcode (R106), at most fifteen bytes (R108). -/
def Form.legal (f : Form) : Bool :=
  !hasLock f.prefixes && !hasRep f.prefixes && decide ((segOverrides f.prefixes).length ≤ 1) &&
    !misplacedRex f.prefixes && decide (f.length ≤ Config.maxInsnLen)

/-- A form well formed at an operand size in a context. -/
def Form.wf (ctx : Ctx) (n : OpSize) (f : Form) : Bool :=
  f.encodable ctx n && f.legal

/-- Whether some bytes decode to the instruction, under its canonical mnemonic, in a context. -/
def Instr.encodable (ctx : Ctx) (i : Instr) : Bool :=
  i.form.encodable ctx i.size

/-- A well-formed instruction. -/
def Instr.wf (ctx : Ctx) (i : Instr) : Bool :=
  i.form.wf ctx i.size

end Sys2Proof
end

