-- ==== Sys2Proof/Machine/Ops.lean ====
section
/-! DEFINITION. The named operations: registers and the program counter (10_state.md R22, R23, R26), taking an exception
(60_exceptions.md R200 to R211), memory, paging, segmentation and the checked operand read (20_memory.md R51 to R72),
and fetching an instruction's bytes (R70). -/

namespace Sys2Proof.Machine

open Sys2Proof

/-! ### Results -/

/-- What an operation answers: a value, a fault or a refusal. -/
abbrev Res (α : Type) := Host.Outcome α Fault Refusal

/-- Go on with the value, or stop. -/
def andThen {α β : Type} (r : Res α) (k : α → Res β) : Res β :=
  match r with
  | .next a => k a
  | .fault x => .fault x
  | .refused x => .refused x

/-! ### Mode and control state (R32) -/

/-- What decoding consults. -/
def State.ctx (s : State) : Ctx :=
  ⟨s.mode, s.csD⟩

/-- IA32E_ACTIVE (R6). -/
def State.ia32eActive (s : State) : Bool :=
  s.mode == .compat || s.mode == .long64

/-- The privilege level in force: 0 in real-address mode, 3 in virtual-8086 mode (R32; log 17). -/
def State.level (s : State) : BitVec 2 :=
  match s.mode with
  | .real => 0#2
  | .v86 => 3#2
  | _ => s.cpl

/-- Whether the alignment of an operand is checked: alignment checking is enabled and the privilege level is 3
(R32, R61, R207; log 17). Never in real-address mode, where the level is 0. -/
def State.checksAlignment (s : State) : Bool :=
  s.acEnabled && s.level == 3#2

/-- Whether the processor implements CMOVcc: forced true in IA-32e mode (R111, R146, D10; log 18). -/
def State.supportsCmov (s : State) : Bool :=
  s.cmovSupported || s.ia32eActive

/-! ### Registers (R20 to R23) and the program counter (R25, R26) -/

/-- x[r], all 64 bits (R9). -/
def State.reg (s : State) (r : Reg) : QWord :=
  s.regs[r.toNat]'r.isLt

/-- x[r] <- v, all 64 bits (R9). -/
def State.setReg (s : State) (r : Reg) (v : QWord) : State :=
  { s with regs := s.regs.set r.toNat v r.isLt }

/-- The program counter holds the value given. -/
def State.setPc (s : State) (v : QWord) : State :=
  { s with pc := v }

/-- The low 16, 32 or 64 bits of a quadword, the rest zero. -/
def lowBits (n : OpSize) (v : QWord) : QWord :=
  match n with
  | .w16 => (v.setWidth 16).setWidth 64
  | .w32 => (v.setWidth 32).setWidth 64
  | .w64 => v

/-- The size of an operand in bytes (R52). -/
def opBytes : OpSize → Nat
  | .w16 => 2
  | .w32 => 4
  | .w64 => 8

/-- gpr_read(r, n), in the low bits of a quadword (R22). -/
def State.gprRead (s : State) (r : Reg) (n : OpSize) : QWord :=
  lowBits n (s.reg r)

/-- gpr_write(r, n, v), of the low n bits of `v` (R23): a 32-bit write clears bits 63:32 in IA-32e mode and leaves them
elsewhere, a 16-bit write leaves bits 63:16. -/
def State.gprWrite (s : State) (r : Reg) (n : OpSize) (v : QWord) : State :=
  match n with
  | .w64 => s.setReg r v
  | .w32 =>
    if s.ia32eActive then s.setReg r ((v.setWidth 32).setWidth 64)
    else s.setReg r ((s.reg r).extractLsb' 32 32 ++ v.setWidth 32)
  | .w16 => s.setReg r ((s.reg r).extractLsb' 16 48 ++ v.setWidth 16)

/-- `DEST[63:32] ← 0` (R130). -/
def State.clearUpper (s : State) (r : Reg) : State :=
  s.setReg r (((s.reg r).setWidth 32).setWidth 64)

/-- The width of the instruction pointer in bits (R25). -/
def State.ipBits (s : State) : Nat :=
  match s.mode with
  | .long64 => 64
  | _ =>
    match s.ctx.defaultSize with
    | .d32 => 32
    | .d16 => 16

/-- A value as wide as the instruction pointer (R26; log 21). -/
def State.wrapPc (s : State) (v : QWord) : QWord :=
  match s.mode with
  | .long64 => v
  | _ =>
    match s.ctx.defaultSize with
    | .d32 => (v.setWidth 32).setWidth 64
    | .d16 => (v.setWidth 16).setWidth 64

/-- `pc <- pc + L` (R26). -/
def State.advance (s : State) (len : Nat) : State :=
  s.setPc (s.wrapPc (s.pc + BitVec.ofNat 64 len))

/-! ### Taking an exception (R200, R206, R210, R211) -/

/-- The vector number of an exception (R200). -/
def ExcKind.vector : ExcKind → Nat
  | .ud => 6
  | .ss => 12
  | .gp => 13
  | .pf => 14
  | .ac => 17

/-- Raise an exception: the terminal outcome `Fault(kind, code, addr)`, carrying the state before the instruction
(R211, D2; log 11). Every exception of the model is raised here. -/
def raise {α : Type} (s : State) (kind : ExcKind) (code : Option (BitVec 32)) (addr : Option (BitVec 64)) : Res α :=
  .fault (.exception kind code addr s)

/-- The error code of `#GP(0)` and `#SS(0)`: zero, and none in real-address mode (R201 to R205; log 12). -/
def State.zeroCode (s : State) : Option (BitVec 32) :=
  match s.mode with
  | .real => none
  | _ => some 0#32

/-- `#UD` (R206, R208). -/
def raiseUD {α : Type} (s : State) : Res α := raise s .ud none none

/-- `#GP(0)`; `#GP` in real-address mode (R206). -/
def raiseGP {α : Type} (s : State) : Res α := raise s .gp s.zeroCode none

/-- `#SS(0)`; `#SS` in real-address mode (R206). -/
def raiseSS {α : Type} (s : State) : Res α := raise s .ss s.zeroCode none

/-- `#AC(0)` (R206, R207). -/
def raiseAC {α : Type} (s : State) : Res α := raise s .ac (some 0#32) none

/-- `#PF(code)` with the faulting linear address (R206). -/
def raisePF {α : Type} (s : State) (code : BitVec 32) (addr : BitVec 64) : Res α := raise s .pf (some code) (some addr)

/-! ### The memory map (R50, R66) -/

/-- The form a memory map has: addresses strictly rising, each below 2^64. Equal maps are equal lists. No entry equals
what an unlisted address reads as, since an unlisted address reads as nothing (R66; log 16). -/
abbrev Memory.wf (m : List Host.Cell) : Prop :=
  m.Pairwise (fun a b => a.1 < b.1) ∧ ∀ c ∈ m, c.1 < 2 ^ 64

/-- The byte at an address; none where the map has none (R66). -/
def Memory.read : List Host.Cell → Nat → Option Byte
  | [], _ => none
  | (a, b) :: m, x => if a = x then some b else Memory.read m x

/-- The map with a byte at an address. -/
def Memory.write : List Host.Cell → Nat → Byte → List Host.Cell
  | [], x, v => [(x, v)]
  | (a, b) :: m, x, v =>
    if x < a then (x, v) :: (a, b) :: m
    else if x = a then (x, v) :: m
    else (a, b) :: Memory.write m x v

/-- The map with some bytes at the addresses from one on. -/
def Memory.writeFrom (m : List Host.Cell) (x : Nat) : List Byte → List Host.Cell
  | [] => m
  | b :: bs => Memory.writeFrom (Memory.write m x b) (x + 1) bs

/-- The value of bytes in little-endian order (R51). -/
def littleEndian : List Byte → QWord
  | [] => 0#64
  | b :: bs => littleEndian bs <<< 8 ||| b.setWidth 64

/-- Byte `k` of a value in little-endian order (R51). -/
def byteOf (v : QWord) (k : Nat) : Byte :=
  v.extractLsb' (8 * k) 8

/-! ### Paging: the oracle Translate (R62, R63; log 6) -/

/-- Whether a page answers for an address, a kind of access and a privilege level. -/
def Page.covers (p : Page) (a : BitVec 64) (k : AccessKind) (level : BitVec 2) : Bool :=
  decide (p.base.toNat ≤ a.toNat) && decide (a.toNat < p.base.toNat + p.size) && p.access == k && p.cpl == level

/-- The page of an address, if it has one: the first of the table that covers it. None in real-address mode (R62). -/
def State.pageOf (s : State) (a : BitVec 64) (k : AccessKind) : Option Page :=
  match s.mode with
  | .real => none
  | _ => s.paging.find? fun p => p.covers a k s.level

/-- `Translate(a, access, CPL)` (R62): the identity for an address in no page. -/
def translateAddress (s : State) (a : BitVec 64) (k : AccessKind) : Translation :=
  match s.pageOf a k with
  | none => .physical a
  | some p =>
    match p.result with
    | .physical b => .physical (b + (a - p.base))
    | .pageFault c => .pageFault c

/-- The linear address of byte `k` of an operand: modulo 2^64 in 64-bit mode, else modulo 2^32 (R53). -/
def byteAddress (s : State) (lin : BitVec 64) (k : Nat) : BitVec 64 :=
  match s.mode with
  | .long64 => lin + BitVec.ofNat 64 k
  | _ => ((lin + BitVec.ofNat 64 k).setWidth 32).setWidth 64

/-- The page fault that byte `k` of an operand stands for: the byte faults and no byte before it lies in the same page.
Its code, and the address of the byte (R206; log 7). -/
def pageFaultAt (s : State) (acc : AccessKind) (lin : BitVec 64) (k : Nat) : Option (BitVec 32 × BitVec 64) :=
  match translateAddress s (byteAddress s lin k) acc with
  | .physical _ => none
  | .pageFault c =>
    if k = 0 ∨ s.pageOf (byteAddress s lin k) acc ≠ s.pageOf (byteAddress s lin (k - 1)) acc then
      some (c, byteAddress s lin k)
    else none

/-- The page faults of an operand of `n` bytes, one for each faulting page it touches (R63). -/
def pageFaults (s : State) (acc : AccessKind) (lin : BitVec 64) (n : Nat) : List (BitVec 32 × BitVec 64) :=
  (List.range n).filterMap (pageFaultAt s acc lin)

/-- Report one of the page faults of an operand; with several, any of them (R63, U2). -/
def reportPageFault {α : Type} (s : State) (f : BitVec 32 × BitVec 64) : List (BitVec 32 × BitVec 64) → Res α
  | [] => raisePF s f.1 f.2
  | g :: fs =>
    match (f :: g :: fs)[Config.faultingPageReported s.choice % (fs.length + 2)]? with
    | some h => raisePF s h.1 h.2
    | none => raisePF s f.1 f.2

/-- The physical address a translation gives. -/
def Translation.address? : Translation → Option Nat
  | .physical p => some p.toNat
  | .pageFault _ => none

/-- The physical addresses of the bytes of an operand. -/
def physicalAddresses (s : State) (acc : AccessKind) (lin : BitVec 64) (n : Nat) : List Nat :=
  (List.range n).filterMap fun k => (translateAddress s (byteAddress s lin k) acc).address?

/-- Whether a region holds an address. -/
def Region.covers (r : Region) (p : Nat) : Bool :=
  decide (r.base ≤ p) && decide (p < r.base + r.size)

/-- Whether an address lies in device memory (R65). -/
def State.isDevice (s : State) (p : Nat) : Bool :=
  s.devices.any fun r => r.covers p

/-- The byte that a read event to come sees at a physical address: what another agent has put there by then, else the byte of
the memory map; none outside the map (R53, R66, R67; log 27). -/
def State.byteSeen (s : State) (event p : Nat) : Option Byte :=
  match Memory.read s.mem p with
  | none => none
  | some b =>
    match s.readOracle[event]? with
    | none => some b
    | some written => some ((Memory.read written p).getD b)

/-- The event that reads byte `k` of an operand: an aligned operand is read in one event, an unaligned one byte by byte
(R64, U11, D7). -/
def readEvent (lin : BitVec 64) (n k : Nat) : Nat :=
  if lin.toNat % n = 0 then 0 else k

/-- How many events the read of an operand takes (R64). -/
def readEvents (lin : BitVec 64) (n : Nat) : Nat :=
  if lin.toNat % n = 0 then 1 else n

/-- The bytes at some addresses, numbered from `k` on, as a look at each sees it; stuck at one outside the map (R66). -/
def readBytes (look : Nat → Nat → Option Byte) : List Nat → Nat → Res (List Byte)
  | [], _ => .next []
  | p :: ps, k =>
    match look k p with
    | none => .fault (.unmapped p)
    | some b => andThen (readBytes look ps (k + 1)) fun bs => .next (b :: bs)

/-- MemRead(lin, n): the bytes of an operand at a linear address, through `Translate`, as the read oracle has them,
little-endian (R53, R62, R63). All translations precede the reads (log 16). -/
def memRead (s : State) (lin : BitVec 64) (n : Nat) : Res QWord :=
  match pageFaults s .read lin n with
  | f :: fs => reportPageFault s f fs
  | [] =>
    match (physicalAddresses s .read lin n).find? s.isDevice with
    | some p => .refused (.deviceMemory p)
    | none =>
      andThen (readBytes (fun k p => s.byteSeen (readEvent lin n k) p) (physicalAddresses s .read lin n) 0) fun bs =>
        .next (littleEndian bs)

/-- The map with the bytes of a value stored, the first at the first address; stuck at one outside the map. -/
def writeBytes (m : List Host.Cell) (v : QWord) : List Nat → Nat → Res (List Host.Cell)
  | [], _ => .next m
  | p :: ps, k =>
    match Memory.read m p with
    | none => .fault (.unmapped p)
    | some _ => writeBytes (Memory.write m p (byteOf v k)) v ps (k + 1)

/-- MemWrite(lin, n, v) (R54): for completeness of the notation; no instruction calls it. -/
def memWrite (s : State) (lin : BitVec 64) (n : Nat) (v : QWord) : Res State :=
  match pageFaults s .write lin n with
  | f :: fs => reportPageFault s f fs
  | [] =>
    match (physicalAddresses s .write lin n).find? s.isDevice with
    | some p => .refused (.deviceMemory p)
    | none => andThen (writeBytes s.mem v (physicalAddresses s .write lin n) 0) fun m => .next { s with mem := m }

/-! ### Segmentation (R30, R31, R56 to R59) -/

/-- seg[g] (R9). -/
def State.seg (s : State) : SegName → Segment
  | .cs => s.segs.cs
  | .ss => s.segs.ss
  | .ds => s.segs.ds
  | .es => s.segs.es
  | .fs => s.segs.fs
  | .gs => s.segs.gs

/-- A NULL selector: `selector[15:2] = 0` (R30). -/
def Segment.isNull (g : Segment) : Bool :=
  g.selector.extractLsb' 2 14 == 0#14

/-- Whether the NULL-selector clause names a segment register: DS, ES, FS, GS (R58). -/
def nullChecked : SegName → Bool
  | .cs => false
  | .ss => false
  | _ => true

/-- Whether an access of `n` bytes at offset `ea` is outside the segment limit (R57). -/
def Segment.outside (g : Segment) (ea n : Nat) : Bool :=
  if g.expandDown then
    decide (ea ≤ g.limit.toNat) || decide (ea + n - 1 > if g.big then 0xFFFFFFFF else 0xFFFF)
  else decide (ea + n - 1 > g.limit.toNat)

/-- Whether an access runs past offset FFFFFFFFH in a segment of 4 GiB (R72, U7). -/
def Segment.offsetWraps (g : Segment) (ea n : Nat) : Bool :=
  !g.expandDown && g.limit == 0xFFFFFFFF#32 && decide (ea + n - 1 > 0xFFFFFFFF)

/-- Canonical form (R59): bits 63 down to LINEAR_BITS-1 all equal. -/
def canonical (w : LinearBits) (a : BitVec 64) : Bool :=
  match w with
  | .bits48 => a.extractLsb' 47 17 == 0#17 || a.extractLsb' 47 17 == BitVec.allOnes 17
  | .bits57 => a.extractLsb' 56 8 == 0#8 || a.extractLsb' 56 8 == BitVec.allOnes 8

/-- A memory operand: the segment register that forms its address, its effective address, and whether an explicit 36H
override, ignored in forming the address, names SS on a reference whose default segment is not SS (R103, R59). -/
structure MemRef where
  seg : SegName
  ea : BitVec 64
  stackOverride : Bool
deriving DecidableEq, Repr

/-- The segment base that is added in 64-bit mode: FS and GS keep theirs, the others count as zero (R31, R59). -/
def State.longBase (s : State) : SegName → BitVec 64
  | .fs => s.segs.fs.base
  | .gs => s.segs.gs.base
  | _ => 0#64

/-- The linear address in 64-bit mode (R59). -/
def State.longLinear (s : State) (m : MemRef) : BitVec 64 :=
  s.longBase m.seg + m.ea

/-- The linear address outside 64-bit mode, modulo 2^32 (R56). -/
def State.legacyLinear (s : State) (m : MemRef) : BitVec 64 :=
  (((s.seg m.seg).base + m.ea).setWidth 32).setWidth 64

/-- The linear address of a memory operand (R56, R59). -/
def State.linear (s : State) (m : MemRef) : BitVec 64 :=
  match s.mode with
  | .long64 => s.longLinear m
  | _ => s.legacyLinear m

/-- The state past the read of an operand: its read events are over (R53, R249; log 27). -/
def State.passRead (s : State) (m : MemRef) (n : Nat) : State :=
  { s with readOracle := s.readOracle.drop (readEvents (s.linear m) n) }

/-- Whether every byte of an operand is canonical (R59). -/
def State.allCanonical (s : State) (lin : BitVec 64) (n : Nat) : Bool :=
  (List.range n).all fun k => canonical s.linearBits (lin + BitVec.ofNat 64 k)

/-- The exception of a non-canonical reference: `#SS(0)` through SS, `#GP(0)` otherwise, either when SS comes only from an
explicit override (R59, U6; log 9). -/
def raiseNonCanonical {α : Type} (s : State) (m : MemRef) : Res α :=
  if m.seg = .ss then raiseSS s
  else if m.stackOverride then
    (if Config.overrideReportsStack s.choice then raiseSS s else raiseGP s)
  else raiseGP s

/-- Address formation in 64-bit mode (R59, R72). -/
def formLinearLong (s : State) (m : MemRef) (n : Nat) : Res (BitVec 64) :=
  if s.allCanonical (s.longLinear m) n then
    (if (s.longLinear m).toNat + n > 2 ^ 64 then .fault .addressWrap else .next (s.longLinear m))
  else raiseNonCanonical s m

/-- Whether the mode checks a selector for NULL and a segment for readability: protected and compatibility mode
(R58; log 14). -/
def State.checksDescriptors (s : State) : Bool :=
  s.mode == .prot || s.mode == .compat

/-- Address formation outside 64-bit mode: NULL selector, readability, limit (R57, R58, R72; log 14, log 15). An operand whose
linear bytes pass 2^32 is read modulo 2^32 (R53). -/
def formLinearLegacy (s : State) (m : MemRef) (n : Nat) : Res (BitVec 64) :=
  if s.checksDescriptors && nullChecked m.seg && (s.seg m.seg).isNull then raiseGP s
  else if s.checksDescriptors && !(s.seg m.seg).readable then raiseGP s
  else if (s.seg m.seg).offsetWraps m.ea.toNat n then .fault .addressWrap
  else if (s.seg m.seg).outside m.ea.toNat n then (if m.seg = .ss then raiseSS s else raiseGP s)
  else .next (s.legacyLinear m)

/-- From logical to linear address with the checks on the way (R60). -/
def formLinear (s : State) (m : MemRef) (n : Nat) : Res (BitVec 64) :=
  match s.mode with
  | .long64 => formLinearLong s m n
  | _ => formLinearLegacy s m n

/-- The access to an operand at a linear address: `#AC(0)`, `#PF(code)` or the value; with both exceptions applying,
either (R60, R61, R209, U1; log 8). -/
def accessOperand (s : State) (lin : BitVec 64) (n : Nat) : Res QWord :=
  if s.checksAlignment && decide (lin.toNat % n ≠ 0) then
    (if (pageFaults s .read lin n).isEmpty then raiseAC s
    else if Config.alignmentReportedFirst s.choice then raiseAC s
    else memRead s lin n)
  else memRead s lin n

/-- LoadOperand(s, ea, n): the checked operand read (R60). -/
def loadOperand (s : State) (m : MemRef) (n : Nat) : Res QWord :=
  andThen (formLinear s m n) fun lin => accessOperand s lin n

/-! ### Fetching an instruction's bytes (R50, R70; log 5) -/

/-- The linear address of the instruction: through CS at `pc` (R70). -/
def State.fetchAddress (s : State) : Nat :=
  match s.mode with
  | .long64 => s.pc.toNat
  | _ => ((s.segs.cs.base + s.pc).setWidth 32).toNat

/-- The linear address at which the bytes of an instruction must end: the top of the address space and, outside 64-bit
mode, the code-segment limit and the width of the instruction pointer (R26). -/
def State.fetchBound (s : State) : Nat :=
  match s.mode with
  | .long64 => 2 ^ 64
  | _ => min (2 ^ 32) (s.fetchAddress + (min (2 ^ s.ipBits) (s.segs.cs.limit.toNat + 1) - s.pc.toNat))

/-- The consecutive bytes of a map from an address on, below a bound. -/
def bytesFrom : List Host.Cell → Nat → Nat → List Byte
  | [], _, _ => []
  | (a, b) :: m, x, top =>
    if a = x then (if x < top then b :: bytesFrom m (x + 1) top else [])
    else if a < x then bytesFrom m x top
    else []

/-- The bytes of the program text from the program counter on (R70). -/
def fetch (s : State) : List Byte :=
  bytesFrom s.code s.fetchAddress s.fetchBound

end Sys2Proof.Machine
end

