-- ==== Sys2Proof/Machine/Operands.lean ====
section
/-! DEFINITION. The operand forms of 30_encoding.md R93 to R105: register numbers, effective addresses at every address
size, segment selection, and reading operand 2. -/

namespace Sys2Proof.Machine

open Sys2Proof

/-! ### Register numbers (R93) -/

/-- A 4-bit register number: a REX bit over a 3-bit field (R93). -/
def regNum (ext : Bool) (field : BitVec 3) : Reg :=
  BitVec.ofBool ext ++ field

/-- dest_num = REX.R ++ ModRM.reg: operand 1 (R93). -/
def destNum (f : Form) : Reg :=
  regNum (rexR f.prefixes) f.modrm.reg

/-- src_num = REX.B ++ ModRM.r/m: operand 2 when mod = 3, the base register when there is no SIB byte (R93). -/
def srcNum (f : Form) : Reg :=
  regNum (rexB f.prefixes) f.modrm.rm

/-- base_num = REX.B ++ SIB.base (R93). -/
def baseNum (f : Form) (b : Sib) : Reg :=
  regNum (rexB f.prefixes) b.base

/-- index_num = REX.X ++ SIB.index (R93). -/
def indexNum (f : Form) (b : Sib) : Reg :=
  regNum (rexX f.prefixes) b.index

/-! ### Effective addresses -/

/-- A value modulo 2^AddrSize (R104). -/
def cutAddress (a : AddrSize) (v : QWord) : QWord :=
  match a with
  | .a16 => (v.setWidth 16).setWidth 64
  | .a32 => (v.setWidth 32).setWidth 64
  | .a64 => v

/-- areg(r): an address register read at the address size (R96). -/
def areg (s : State) (a : AddrSize) (r : Reg) : QWord :=
  cutAddress a (s.reg r)

/-- The value of a displacement, sign-extended (R105); sums are cut to the address size. -/
def dispValue : Disp → QWord
  | .none => 0#64
  | .disp8 d => d.signExtend 64
  | .disp16 d => d.signExtend 64
  | .disp32 d => d.signExtend 64

/-- The registers of a 16-bit addressing form and its default segment (R97). -/
def base16 (s : State) (mod : BitVec 2) (rm : BitVec 3) : QWord × SegName :=
  match rm.toNat with
  | 0 => (areg s .a16 3#4 + areg s .a16 6#4, .ds)
  | 1 => (areg s .a16 3#4 + areg s .a16 7#4, .ds)
  | 2 => (areg s .a16 5#4 + areg s .a16 6#4, .ss)
  | 3 => (areg s .a16 5#4 + areg s .a16 7#4, .ss)
  | 4 => (areg s .a16 6#4, .ds)
  | 5 => (areg s .a16 7#4, .ds)
  | 6 => if mod = 0#2 then (0#64, .ds) else (areg s .a16 5#4, .ss)
  | _ => (areg s .a16 3#4, .ds)

/-- SS for a base register numbered 4 (RSP) or 5 (RBP), else DS: the full 4-bit number decides (R98, R99, D15). -/
def baseSegment (r : Reg) : SegName :=
  if r = 4#4 ∨ r = 5#4 then .ss else .ds

/-- The base of a 32- or 64-bit form without SIB and its default segment (R98); with mod 0 and r/m 5, the address of the
next instruction in 64-bit mode (R100) and nothing elsewhere. -/
def basePlain (s : State) (a : AddrSize) (f : Form) : QWord × SegName :=
  if f.modrm.mod = 0#2 ∧ f.modrm.rm = 5#3 then
    (match s.mode with
    | .long64 => (s.pc + BitVec.ofNat 64 f.length, .ds)
    | _ => (0#64, .ds))
  else (areg s a (srcNum f), baseSegment (srcNum f))

/-- The scaled index: index number 4 is none (R99, R104). -/
def indexTerm (s : State) (a : AddrSize) (f : Form) (b : Sib) : QWord :=
  if indexNum f b = 4#4 then 0#64 else areg s a (indexNum f b) <<< b.scale.toNat

/-- Whether a SIB form has a base register: not with SIB.base 5 and mod 0 (R99). -/
def sibHasBase (f : Form) (b : Sib) : Bool :=
  !(b.base == 5#3 && f.modrm.mod == 0#2)

/-- Base and scaled index of a SIB form, and its default segment (R99). -/
def baseSib (s : State) (a : AddrSize) (f : Form) (b : Sib) : QWord × SegName :=
  if sibHasBase f b then (areg s a (baseNum f b) + indexTerm s a f b, baseSegment (baseNum f b))
  else (indexTerm s a f b, .ds)

/-- The part of a memory operand's address before the displacement, and its default segment (R97 to R100). -/
def baseOf (s : State) (f : Form) : QWord × SegName :=
  match addressSize s.ctx f.prefixes with
  | .a16 => base16 s f.modrm.mod f.modrm.rm
  | a =>
    match f.sib with
    | some b => baseSib s a f b
    | none => basePlain s a f

/-- The effective address of a memory operand, modulo 2^AddrSize (R97 to R104). -/
def effectiveAddress (s : State) (f : Form) : QWord :=
  cutAddress (addressSize s.ctx f.prefixes) ((baseOf s f).1 + dispValue f.disp)

/-- The default segment of a memory operand (R97 to R100). -/
def defaultSegment (s : State) (f : Form) : SegName :=
  (baseOf s f).2

/-- The segment of a memory operand (R103): the override if there is one, else the default; in 64-bit mode only an FS or
GS override counts. -/
def operandSegment (s : State) (f : Form) : SegName :=
  match (segOverrides f.prefixes).head? with
  | none => defaultSegment s f
  | some g =>
    match s.mode with
    | .long64 => if g = .fs ∨ g = .gs then g else defaultSegment s f
    | _ => g

/-- Whether SS comes only from an explicit 36H override that 64-bit mode ignores in forming the address (R59, U6). -/
def stackOnlyByOverride (s : State) (f : Form) : Bool :=
  s.mode == .long64 && (segOverrides f.prefixes).head? == some .ss && defaultSegment s f != .ss

/-- The memory operand of a form (R96). -/
def memRef (s : State) (f : Form) : MemRef :=
  ⟨operandSegment s f, effectiveAddress s f, stackOnlyByOverride s f⟩

/-! ### Operand 2 -/

/-- The value of operand 2 (R96): a register when mod = 3, else the checked read of the memory operand. -/
def readSource (n : OpSize) (f : Form) (s : State) : Res QWord :=
  if f.modrm.mod = 3#2 then .next (s.gprRead (srcNum f) n)
  else loadOperand s (memRef s f) (opBytes n)

/-- The state past the read of operand 2 (R53, R96). -/
def passSource (n : OpSize) (f : Form) (s : State) : State :=
  if f.modrm.mod = 3#2 then s else s.passRead (memRef s f) (opBytes n)

end Sys2Proof.Machine
end

