-- ==== Sys2Proof/Machine/Cmov.lean ====
section
/-! DEFINITION. The meanings of the CMOVcc instructions: the shared operation of 40_cmovcc_operation.md R130 after the
checks of 30_encoding.md R109, and one meaning per row of the opcode table (41_cmovcc_instructions.md R160 to R189). -/

namespace Sys2Proof.Machine

open Sys2Proof

/-- What decoding finds wrong with an instruction, in R109's order: LOCK (R92), the refused prefixes (R94, R95, R106), no
CMOV feature (R111), more than fifteen bytes (R108; log 12, log 13). A term no bytes decode to is refused (log 25). -/
def decodeChecks (n : OpSize) (f : Form) (s : State) : Res Unit :=
  if f.encodable s.ctx n then
    if hasLock f.prefixes then raiseUD s
    else if hasRep f.prefixes then .refused .repPrefix
    else if (segOverrides f.prefixes).length > 1 then .refused .severalSegmentOverrides
    else if misplacedRex f.prefixes then .refused .misplacedRex
    else if s.supportsCmov then
      (if f.length > Config.maxInsnLen then raiseGP s else .next ())
    else raiseUD s
  else .refused .notEncodable

/-- Step 2 of R130: the destination after the test. A 32-bit form whose condition is false clears bits 63:32 in IA-32e
mode. -/
def writeDest (moved : Bool) (n : OpSize) (f : Form) (t : QWord) (s : State) : State :=
  if moved then s.gprWrite (destNum f) n t
  else if n = .w32 ∧ s.ia32eActive then s.clearUpper (destNum f)
  else s

/-- CMOVcc(cc, n, d, source, L): the operation of R130. The source is read, with all its checks, whatever the condition
(R55, R133). -/
def cmov (c : Cond) (n : OpSize) (f : Form) (s : State) : Res State :=
  andThen (decodeChecks n f s) fun _ =>
    andThen (readSource n f s) fun t =>
      .next ((writeDest (condHolds c s.flags) n f t (passSource n f s)).advance f.length)

/-- `CMOVA r16, r/m16`: Move if above (CF=0 and ZF=0). (R160) -/
def execCmovaR16 (f : Form) (s : State) : Res State := cmov .a .w16 f s

/-- `CMOVA r32, r/m32`: Move if above (CF=0 and ZF=0). (R160) -/
def execCmovaR32 (f : Form) (s : State) : Res State := cmov .a .w32 f s

/-- `CMOVA r64, r/m64`: Move if above (CF=0 and ZF=0). (R160) -/
def execCmovaR64 (f : Form) (s : State) : Res State := cmov .a .w64 f s

/-- `CMOVAE r16, r/m16`: Move if above or equal (CF=0). (R161) -/
def execCmovaeR16 (f : Form) (s : State) : Res State := cmov .ae .w16 f s

/-- `CMOVAE r32, r/m32`: Move if above or equal (CF=0). (R161) -/
def execCmovaeR32 (f : Form) (s : State) : Res State := cmov .ae .w32 f s

/-- `CMOVAE r64, r/m64`: Move if above or equal (CF=0). (R161) -/
def execCmovaeR64 (f : Form) (s : State) : Res State := cmov .ae .w64 f s

/-- `CMOVB r16, r/m16`: Move if below (CF=1). (R162) -/
def execCmovbR16 (f : Form) (s : State) : Res State := cmov .b .w16 f s

/-- `CMOVB r32, r/m32`: Move if below (CF=1). (R162) -/
def execCmovbR32 (f : Form) (s : State) : Res State := cmov .b .w32 f s

/-- `CMOVB r64, r/m64`: Move if below (CF=1). (R162) -/
def execCmovbR64 (f : Form) (s : State) : Res State := cmov .b .w64 f s

/-- `CMOVBE r16, r/m16`: Move if below or equal (CF=1 or ZF=1). (R163) -/
def execCmovbeR16 (f : Form) (s : State) : Res State := cmov .be .w16 f s

/-- `CMOVBE r32, r/m32`: Move if below or equal (CF=1 or ZF=1). (R163) -/
def execCmovbeR32 (f : Form) (s : State) : Res State := cmov .be .w32 f s

/-- `CMOVBE r64, r/m64`: Move if below or equal (CF=1 or ZF=1). (R163) -/
def execCmovbeR64 (f : Form) (s : State) : Res State := cmov .be .w64 f s

/-- `CMOVC r16, r/m16`: Move if carry (CF=1). (R164) -/
def execCmovcR16 (f : Form) (s : State) : Res State := cmov .b .w16 f s

/-- `CMOVC r32, r/m32`: Move if carry (CF=1). (R164) -/
def execCmovcR32 (f : Form) (s : State) : Res State := cmov .b .w32 f s

/-- `CMOVC r64, r/m64`: Move if carry (CF=1). (R164) -/
def execCmovcR64 (f : Form) (s : State) : Res State := cmov .b .w64 f s

/-- `CMOVE r16, r/m16`: Move if equal (ZF=1). (R165) -/
def execCmoveR16 (f : Form) (s : State) : Res State := cmov .e .w16 f s

/-- `CMOVE r32, r/m32`: Move if equal (ZF=1). (R165) -/
def execCmoveR32 (f : Form) (s : State) : Res State := cmov .e .w32 f s

/-- `CMOVE r64, r/m64`: Move if equal (ZF=1). (R165) -/
def execCmoveR64 (f : Form) (s : State) : Res State := cmov .e .w64 f s

/-- `CMOVG r16, r/m16`: Move if greater (ZF=0 and SF=OF). (R166) -/
def execCmovgR16 (f : Form) (s : State) : Res State := cmov .g .w16 f s

/-- `CMOVG r32, r/m32`: Move if greater (ZF=0 and SF=OF). (R166) -/
def execCmovgR32 (f : Form) (s : State) : Res State := cmov .g .w32 f s

/-- `CMOVG r64, r/m64`: Move if greater (ZF=0 and SF=OF). (R166) -/
def execCmovgR64 (f : Form) (s : State) : Res State := cmov .g .w64 f s

/-- `CMOVGE r16, r/m16`: Move if greater or equal (SF=OF). (R167) -/
def execCmovgeR16 (f : Form) (s : State) : Res State := cmov .ge .w16 f s

/-- `CMOVGE r32, r/m32`: Move if greater or equal (SF=OF). (R167) -/
def execCmovgeR32 (f : Form) (s : State) : Res State := cmov .ge .w32 f s

/-- `CMOVGE r64, r/m64`: Move if greater or equal (SF=OF). (R167) -/
def execCmovgeR64 (f : Form) (s : State) : Res State := cmov .ge .w64 f s

/-- `CMOVL r16, r/m16`: Move if less (SF≠ OF). (R168) -/
def execCmovlR16 (f : Form) (s : State) : Res State := cmov .l .w16 f s

/-- `CMOVL r32, r/m32`: Move if less (SF≠ OF). (R168) -/
def execCmovlR32 (f : Form) (s : State) : Res State := cmov .l .w32 f s

/-- `CMOVL r64, r/m64`: Move if less (SF≠ OF). (R168) -/
def execCmovlR64 (f : Form) (s : State) : Res State := cmov .l .w64 f s

/-- `CMOVLE r16, r/m16`: Move if less or equal (ZF=1 or SF≠ OF). (R169) -/
def execCmovleR16 (f : Form) (s : State) : Res State := cmov .le .w16 f s

/-- `CMOVLE r32, r/m32`: Move if less or equal (ZF=1 or SF≠ OF). (R169) -/
def execCmovleR32 (f : Form) (s : State) : Res State := cmov .le .w32 f s

/-- `CMOVLE r64, r/m64`: Move if less or equal (ZF=1 or SF≠ OF). (R169) -/
def execCmovleR64 (f : Form) (s : State) : Res State := cmov .le .w64 f s

/-- `CMOVNA r16, r/m16`: Move if not above (CF=1 or ZF=1). (R170) -/
def execCmovnaR16 (f : Form) (s : State) : Res State := cmov .be .w16 f s

/-- `CMOVNA r32, r/m32`: Move if not above (CF=1 or ZF=1). (R170) -/
def execCmovnaR32 (f : Form) (s : State) : Res State := cmov .be .w32 f s

/-- `CMOVNA r64, r/m64`: Move if not above (CF=1 or ZF=1). (R170) -/
def execCmovnaR64 (f : Form) (s : State) : Res State := cmov .be .w64 f s

/-- `CMOVNAE r16, r/m16`: Move if not above or equal (CF=1). (R171) -/
def execCmovnaeR16 (f : Form) (s : State) : Res State := cmov .b .w16 f s

/-- `CMOVNAE r32, r/m32`: Move if not above or equal (CF=1). (R171) -/
def execCmovnaeR32 (f : Form) (s : State) : Res State := cmov .b .w32 f s

/-- `CMOVNAE r64, r/m64`: Move if not above or equal (CF=1). (R171) -/
def execCmovnaeR64 (f : Form) (s : State) : Res State := cmov .b .w64 f s

/-- `CMOVNB r16, r/m16`: Move if not below (CF=0). (R172) -/
def execCmovnbR16 (f : Form) (s : State) : Res State := cmov .ae .w16 f s

/-- `CMOVNB r32, r/m32`: Move if not below (CF=0). (R172) -/
def execCmovnbR32 (f : Form) (s : State) : Res State := cmov .ae .w32 f s

/-- `CMOVNB r64, r/m64`: Move if not below (CF=0). (R172) -/
def execCmovnbR64 (f : Form) (s : State) : Res State := cmov .ae .w64 f s

/-- `CMOVNBE r16, r/m16`: Move if not below or equal (CF=0 and ZF=0). (R173) -/
def execCmovnbeR16 (f : Form) (s : State) : Res State := cmov .a .w16 f s

/-- `CMOVNBE r32, r/m32`: Move if not below or equal (CF=0 and ZF=0). (R173) -/
def execCmovnbeR32 (f : Form) (s : State) : Res State := cmov .a .w32 f s

/-- `CMOVNBE r64, r/m64`: Move if not below or equal (CF=0 and ZF=0). (R173) -/
def execCmovnbeR64 (f : Form) (s : State) : Res State := cmov .a .w64 f s

/-- `CMOVNC r16, r/m16`: Move if not carry (CF=0). (R174) -/
def execCmovncR16 (f : Form) (s : State) : Res State := cmov .ae .w16 f s

/-- `CMOVNC r32, r/m32`: Move if not carry (CF=0). (R174) -/
def execCmovncR32 (f : Form) (s : State) : Res State := cmov .ae .w32 f s

/-- `CMOVNC r64, r/m64`: Move if not carry (CF=0). (R174) -/
def execCmovncR64 (f : Form) (s : State) : Res State := cmov .ae .w64 f s

/-- `CMOVNE r16, r/m16`: Move if not equal (ZF=0). (R175) -/
def execCmovneR16 (f : Form) (s : State) : Res State := cmov .ne .w16 f s

/-- `CMOVNE r32, r/m32`: Move if not equal (ZF=0). (R175) -/
def execCmovneR32 (f : Form) (s : State) : Res State := cmov .ne .w32 f s

/-- `CMOVNE r64, r/m64`: Move if not equal (ZF=0). (R175) -/
def execCmovneR64 (f : Form) (s : State) : Res State := cmov .ne .w64 f s

/-- `CMOVNG r16, r/m16`: Move if not greater (ZF=1 or SF≠ OF). (R176) -/
def execCmovngR16 (f : Form) (s : State) : Res State := cmov .le .w16 f s

/-- `CMOVNG r32, r/m32`: Move if not greater (ZF=1 or SF≠ OF). (R176) -/
def execCmovngR32 (f : Form) (s : State) : Res State := cmov .le .w32 f s

/-- `CMOVNG r64, r/m64`: Move if not greater (ZF=1 or SF≠ OF). (R176) -/
def execCmovngR64 (f : Form) (s : State) : Res State := cmov .le .w64 f s

/-- `CMOVNGE r16, r/m16`: Move if not greater or equal (SF≠ OF). (R177) -/
def execCmovngeR16 (f : Form) (s : State) : Res State := cmov .l .w16 f s

/-- `CMOVNGE r32, r/m32`: Move if not greater or equal (SF≠ OF). (R177) -/
def execCmovngeR32 (f : Form) (s : State) : Res State := cmov .l .w32 f s

/-- `CMOVNGE r64, r/m64`: Move if not greater or equal (SF≠ OF). (R177) -/
def execCmovngeR64 (f : Form) (s : State) : Res State := cmov .l .w64 f s

/-- `CMOVNL r16, r/m16`: Move if not less (SF=OF). (R178) -/
def execCmovnlR16 (f : Form) (s : State) : Res State := cmov .ge .w16 f s

/-- `CMOVNL r32, r/m32`: Move if not less (SF=OF). (R178) -/
def execCmovnlR32 (f : Form) (s : State) : Res State := cmov .ge .w32 f s

/-- `CMOVNL r64, r/m64`: Move if not less (SF=OF). (R178) -/
def execCmovnlR64 (f : Form) (s : State) : Res State := cmov .ge .w64 f s

/-- `CMOVNLE r16, r/m16`: Move if not less or equal (ZF=0 and SF=OF). (R179) -/
def execCmovnleR16 (f : Form) (s : State) : Res State := cmov .g .w16 f s

/-- `CMOVNLE r32, r/m32`: Move if not less or equal (ZF=0 and SF=OF). (R179) -/
def execCmovnleR32 (f : Form) (s : State) : Res State := cmov .g .w32 f s

/-- `CMOVNLE r64, r/m64`: Move if not less or equal (ZF=0 and SF=OF). (R179) -/
def execCmovnleR64 (f : Form) (s : State) : Res State := cmov .g .w64 f s

/-- `CMOVNO r16, r/m16`: Move if not overflow (OF=0). (R180) -/
def execCmovnoR16 (f : Form) (s : State) : Res State := cmov .no .w16 f s

/-- `CMOVNO r32, r/m32`: Move if not overflow (OF=0). (R180) -/
def execCmovnoR32 (f : Form) (s : State) : Res State := cmov .no .w32 f s

/-- `CMOVNO r64, r/m64`: Move if not overflow (OF=0). (R180) -/
def execCmovnoR64 (f : Form) (s : State) : Res State := cmov .no .w64 f s

/-- `CMOVNP r16, r/m16`: Move if not parity (PF=0). (R181) -/
def execCmovnpR16 (f : Form) (s : State) : Res State := cmov .np .w16 f s

/-- `CMOVNP r32, r/m32`: Move if not parity (PF=0). (R181) -/
def execCmovnpR32 (f : Form) (s : State) : Res State := cmov .np .w32 f s

/-- `CMOVNP r64, r/m64`: Move if not parity (PF=0). (R181) -/
def execCmovnpR64 (f : Form) (s : State) : Res State := cmov .np .w64 f s

/-- `CMOVNS r16, r/m16`: Move if not sign (SF=0). (R182) -/
def execCmovnsR16 (f : Form) (s : State) : Res State := cmov .ns .w16 f s

/-- `CMOVNS r32, r/m32`: Move if not sign (SF=0). (R182) -/
def execCmovnsR32 (f : Form) (s : State) : Res State := cmov .ns .w32 f s

/-- `CMOVNS r64, r/m64`: Move if not sign (SF=0). (R182) -/
def execCmovnsR64 (f : Form) (s : State) : Res State := cmov .ns .w64 f s

/-- `CMOVNZ r16, r/m16`: Move if not zero (ZF=0). (R183) -/
def execCmovnzR16 (f : Form) (s : State) : Res State := cmov .ne .w16 f s

/-- `CMOVNZ r32, r/m32`: Move if not zero (ZF=0). (R183) -/
def execCmovnzR32 (f : Form) (s : State) : Res State := cmov .ne .w32 f s

/-- `CMOVNZ r64, r/m64`: Move if not zero (ZF=0). (R183) -/
def execCmovnzR64 (f : Form) (s : State) : Res State := cmov .ne .w64 f s

/-- `CMOVO r16, r/m16`: Move if overflow (OF=1). (R184) -/
def execCmovoR16 (f : Form) (s : State) : Res State := cmov .o .w16 f s

/-- `CMOVO r32, r/m32`: Move if overflow (OF=1). (R184) -/
def execCmovoR32 (f : Form) (s : State) : Res State := cmov .o .w32 f s

/-- `CMOVO r64, r/m64`: Move if overflow (OF=1). (R184) -/
def execCmovoR64 (f : Form) (s : State) : Res State := cmov .o .w64 f s

/-- `CMOVP r16, r/m16`: Move if parity (PF=1). (R185) -/
def execCmovpR16 (f : Form) (s : State) : Res State := cmov .p .w16 f s

/-- `CMOVP r32, r/m32`: Move if parity (PF=1). (R185) -/
def execCmovpR32 (f : Form) (s : State) : Res State := cmov .p .w32 f s

/-- `CMOVP r64, r/m64`: Move if parity (PF=1). (R185) -/
def execCmovpR64 (f : Form) (s : State) : Res State := cmov .p .w64 f s

/-- `CMOVPE r16, r/m16`: Move if parity even (PF=1). (R186) -/
def execCmovpeR16 (f : Form) (s : State) : Res State := cmov .p .w16 f s

/-- `CMOVPE r32, r/m32`: Move if parity even (PF=1). (R186) -/
def execCmovpeR32 (f : Form) (s : State) : Res State := cmov .p .w32 f s

/-- `CMOVPE r64, r/m64`: Move if parity even (PF=1). (R186) -/
def execCmovpeR64 (f : Form) (s : State) : Res State := cmov .p .w64 f s

/-- `CMOVPO r16, r/m16`: Move if parity odd (PF=0). (R187) -/
def execCmovpoR16 (f : Form) (s : State) : Res State := cmov .np .w16 f s

/-- `CMOVPO r32, r/m32`: Move if parity odd (PF=0). (R187) -/
def execCmovpoR32 (f : Form) (s : State) : Res State := cmov .np .w32 f s

/-- `CMOVPO r64, r/m64`: Move if parity odd (PF=0). (R187) -/
def execCmovpoR64 (f : Form) (s : State) : Res State := cmov .np .w64 f s

/-- `CMOVS r16, r/m16`: Move if sign (SF=1). (R188) -/
def execCmovsR16 (f : Form) (s : State) : Res State := cmov .s .w16 f s

/-- `CMOVS r32, r/m32`: Move if sign (SF=1). (R188) -/
def execCmovsR32 (f : Form) (s : State) : Res State := cmov .s .w32 f s

/-- `CMOVS r64, r/m64`: Move if sign (SF=1). (R188) -/
def execCmovsR64 (f : Form) (s : State) : Res State := cmov .s .w64 f s

/-- `CMOVZ r16, r/m16`: Move if zero (ZF=1). (R189) -/
def execCmovzR16 (f : Form) (s : State) : Res State := cmov .e .w16 f s

/-- `CMOVZ r32, r/m32`: Move if zero (ZF=1). (R189) -/
def execCmovzR32 (f : Form) (s : State) : Res State := cmov .e .w32 f s

/-- `CMOVZ r64, r/m64`: Move if zero (ZF=1). (R189) -/
def execCmovzR64 (f : Form) (s : State) : Res State := cmov .e .w64 f s

end Sys2Proof.Machine
end

