-- ==== Sys2Proof/Machine/Dispatch.lean ====
section
/-! DEFINITION. The dispatch: one arm per instruction, one direct call of its meaning. -/

namespace Sys2Proof.Machine

open Sys2Proof

def exec (i : Instr) (s : State) : Host.Outcome State Fault Refusal :=
  match i with
  | .cmovaR16 f => Sys2Proof.Machine.execCmovaR16 f s
  | .cmovaR32 f => Sys2Proof.Machine.execCmovaR32 f s
  | .cmovaR64 f => Sys2Proof.Machine.execCmovaR64 f s
  | .cmovaeR16 f => Sys2Proof.Machine.execCmovaeR16 f s
  | .cmovaeR32 f => Sys2Proof.Machine.execCmovaeR32 f s
  | .cmovaeR64 f => Sys2Proof.Machine.execCmovaeR64 f s
  | .cmovbR16 f => Sys2Proof.Machine.execCmovbR16 f s
  | .cmovbR32 f => Sys2Proof.Machine.execCmovbR32 f s
  | .cmovbR64 f => Sys2Proof.Machine.execCmovbR64 f s
  | .cmovbeR16 f => Sys2Proof.Machine.execCmovbeR16 f s
  | .cmovbeR32 f => Sys2Proof.Machine.execCmovbeR32 f s
  | .cmovbeR64 f => Sys2Proof.Machine.execCmovbeR64 f s
  | .cmovcR16 f => Sys2Proof.Machine.execCmovcR16 f s
  | .cmovcR32 f => Sys2Proof.Machine.execCmovcR32 f s
  | .cmovcR64 f => Sys2Proof.Machine.execCmovcR64 f s
  | .cmoveR16 f => Sys2Proof.Machine.execCmoveR16 f s
  | .cmoveR32 f => Sys2Proof.Machine.execCmoveR32 f s
  | .cmoveR64 f => Sys2Proof.Machine.execCmoveR64 f s
  | .cmovgR16 f => Sys2Proof.Machine.execCmovgR16 f s
  | .cmovgR32 f => Sys2Proof.Machine.execCmovgR32 f s
  | .cmovgR64 f => Sys2Proof.Machine.execCmovgR64 f s
  | .cmovgeR16 f => Sys2Proof.Machine.execCmovgeR16 f s
  | .cmovgeR32 f => Sys2Proof.Machine.execCmovgeR32 f s
  | .cmovgeR64 f => Sys2Proof.Machine.execCmovgeR64 f s
  | .cmovlR16 f => Sys2Proof.Machine.execCmovlR16 f s
  | .cmovlR32 f => Sys2Proof.Machine.execCmovlR32 f s
  | .cmovlR64 f => Sys2Proof.Machine.execCmovlR64 f s
  | .cmovleR16 f => Sys2Proof.Machine.execCmovleR16 f s
  | .cmovleR32 f => Sys2Proof.Machine.execCmovleR32 f s
  | .cmovleR64 f => Sys2Proof.Machine.execCmovleR64 f s
  | .cmovnaR16 f => Sys2Proof.Machine.execCmovnaR16 f s
  | .cmovnaR32 f => Sys2Proof.Machine.execCmovnaR32 f s
  | .cmovnaR64 f => Sys2Proof.Machine.execCmovnaR64 f s
  | .cmovnaeR16 f => Sys2Proof.Machine.execCmovnaeR16 f s
  | .cmovnaeR32 f => Sys2Proof.Machine.execCmovnaeR32 f s
  | .cmovnaeR64 f => Sys2Proof.Machine.execCmovnaeR64 f s
  | .cmovnbR16 f => Sys2Proof.Machine.execCmovnbR16 f s
  | .cmovnbR32 f => Sys2Proof.Machine.execCmovnbR32 f s
  | .cmovnbR64 f => Sys2Proof.Machine.execCmovnbR64 f s
  | .cmovnbeR16 f => Sys2Proof.Machine.execCmovnbeR16 f s
  | .cmovnbeR32 f => Sys2Proof.Machine.execCmovnbeR32 f s
  | .cmovnbeR64 f => Sys2Proof.Machine.execCmovnbeR64 f s
  | .cmovncR16 f => Sys2Proof.Machine.execCmovncR16 f s
  | .cmovncR32 f => Sys2Proof.Machine.execCmovncR32 f s
  | .cmovncR64 f => Sys2Proof.Machine.execCmovncR64 f s
  | .cmovneR16 f => Sys2Proof.Machine.execCmovneR16 f s
  | .cmovneR32 f => Sys2Proof.Machine.execCmovneR32 f s
  | .cmovneR64 f => Sys2Proof.Machine.execCmovneR64 f s
  | .cmovngR16 f => Sys2Proof.Machine.execCmovngR16 f s
  | .cmovngR32 f => Sys2Proof.Machine.execCmovngR32 f s
  | .cmovngR64 f => Sys2Proof.Machine.execCmovngR64 f s
  | .cmovngeR16 f => Sys2Proof.Machine.execCmovngeR16 f s
  | .cmovngeR32 f => Sys2Proof.Machine.execCmovngeR32 f s
  | .cmovngeR64 f => Sys2Proof.Machine.execCmovngeR64 f s
  | .cmovnlR16 f => Sys2Proof.Machine.execCmovnlR16 f s
  | .cmovnlR32 f => Sys2Proof.Machine.execCmovnlR32 f s
  | .cmovnlR64 f => Sys2Proof.Machine.execCmovnlR64 f s
  | .cmovnleR16 f => Sys2Proof.Machine.execCmovnleR16 f s
  | .cmovnleR32 f => Sys2Proof.Machine.execCmovnleR32 f s
  | .cmovnleR64 f => Sys2Proof.Machine.execCmovnleR64 f s
  | .cmovnoR16 f => Sys2Proof.Machine.execCmovnoR16 f s
  | .cmovnoR32 f => Sys2Proof.Machine.execCmovnoR32 f s
  | .cmovnoR64 f => Sys2Proof.Machine.execCmovnoR64 f s
  | .cmovnpR16 f => Sys2Proof.Machine.execCmovnpR16 f s
  | .cmovnpR32 f => Sys2Proof.Machine.execCmovnpR32 f s
  | .cmovnpR64 f => Sys2Proof.Machine.execCmovnpR64 f s
  | .cmovnsR16 f => Sys2Proof.Machine.execCmovnsR16 f s
  | .cmovnsR32 f => Sys2Proof.Machine.execCmovnsR32 f s
  | .cmovnsR64 f => Sys2Proof.Machine.execCmovnsR64 f s
  | .cmovnzR16 f => Sys2Proof.Machine.execCmovnzR16 f s
  | .cmovnzR32 f => Sys2Proof.Machine.execCmovnzR32 f s
  | .cmovnzR64 f => Sys2Proof.Machine.execCmovnzR64 f s
  | .cmovoR16 f => Sys2Proof.Machine.execCmovoR16 f s
  | .cmovoR32 f => Sys2Proof.Machine.execCmovoR32 f s
  | .cmovoR64 f => Sys2Proof.Machine.execCmovoR64 f s
  | .cmovpR16 f => Sys2Proof.Machine.execCmovpR16 f s
  | .cmovpR32 f => Sys2Proof.Machine.execCmovpR32 f s
  | .cmovpR64 f => Sys2Proof.Machine.execCmovpR64 f s
  | .cmovpeR16 f => Sys2Proof.Machine.execCmovpeR16 f s
  | .cmovpeR32 f => Sys2Proof.Machine.execCmovpeR32 f s
  | .cmovpeR64 f => Sys2Proof.Machine.execCmovpeR64 f s
  | .cmovpoR16 f => Sys2Proof.Machine.execCmovpoR16 f s
  | .cmovpoR32 f => Sys2Proof.Machine.execCmovpoR32 f s
  | .cmovpoR64 f => Sys2Proof.Machine.execCmovpoR64 f s
  | .cmovsR16 f => Sys2Proof.Machine.execCmovsR16 f s
  | .cmovsR32 f => Sys2Proof.Machine.execCmovsR32 f s
  | .cmovsR64 f => Sys2Proof.Machine.execCmovsR64 f s
  | .cmovzR16 f => Sys2Proof.Machine.execCmovzR16 f s
  | .cmovzR32 f => Sys2Proof.Machine.execCmovzR32 f s
  | .cmovzR64 f => Sys2Proof.Machine.execCmovzR64 f s

end Sys2Proof.Machine
end

