-- ==== Sys2Proof/Machine/Step.lean ====
section
/-! DEFINITION. One step of the machine: fetch, decode, execute one whole instruction (20_memory.md R67, R70;
70_reset_and_hazards.md R249). -/

namespace Sys2Proof.Machine

open Sys2Proof

/-- One step. Bytes that are no CMOVcc, or that end before the instruction does, are refused by name (R5, R70). -/
def step (s : State) : Host.Outcome State Fault Refusal :=
  match decode s.ctx (fetch s) with
  | .instr i _ => exec i s
  | .notCmov b0 b1 => .refused (.notCmov b0 b1)
  | .truncated => .refused .fetchOutsideCode

/-- The state with an instruction of the opcode table, fifteen bytes long with its zeros, in the program text where the
next step fetches (log 3, log 4). -/
def State.withFetchWord (s : State) (nbits w : Nat) : State :=
  { s with code := Memory.writeFrom s.code s.fetchAddress (tableBytes nbits w) }

end Sys2Proof.Machine
end

