-- ==== Sys2Proof/Safety.lean ====
section
/-! DEFINITION. The terms in which claims speak of the machine: the invariant of a launched machine, what a completed
CMOVcc leaves (40_cmovcc_operation.md R136), when an operand can be read, and what a run without a fault is (R213). -/

namespace Sys2Proof.Machine

open Sys2Proof

/-! ### The invariant -/

/-- The program counter is no wider than the mode's instruction pointer (R25). -/
abbrev State.pcFits (s : State) : Prop :=
  s.pc.toNat < 2 ^ s.ipBits

/-- The flags word reads as R27 says: the reserved bits fixed, VM set exactly in virtual-8086 mode (R32), TF clear, so that
nothing single-steps (R217, the fourth launch premise of R242), AC set and the privilege level 3 where alignment checking is
enabled (R32). -/
abbrev State.flagsWordOk (s : State) : Prop :=
  reservedFlagBitsOk s.rflags = true ∧ s.rflags.getLsbD 17 = decide (s.mode = .v86) ∧ s.rflags.getLsbD 8 = false ∧
    (s.acEnabled = true → s.rflags.getLsbD 18 = true ∧ s.level = 3#2)

/-- The mode's privilege level and code size: 0 in real-address mode, 3 in virtual-8086 mode, 16-bit code in both
(R6, R32). -/
abbrev State.modeOk (s : State) : Prop :=
  (s.mode = .real → s.cpl = 0#2) ∧ (s.mode = .v86 → s.cpl = 3#2) ∧ (s.mode = .real ∨ s.mode = .v86 → s.csD = .d16)

/-- CS and SS hold no NULL selector in protected and compatibility mode (R58). -/
abbrev State.stackAndCodePresent (s : State) : Prop :=
  s.checksDescriptors = true → s.segs.cs.isNull = false ∧ s.segs.ss.isNull = false

/-- A segment register as real-address and virtual-8086 mode have it: the base is the selector shifted left by four, the limit
FFFFH (R30, K21). -/
abbrev Segment.isReal (g : Segment) : Prop :=
  g.base = g.selector.setWidth 64 <<< 4 ∧ g.limit = 0xFFFF#32

/-- In real-address and virtual-8086 mode every segment register is as R30 says, but that CS in real-address mode may still be
what reset leaves, whose base is not its selector's (R36; log 28). -/
abbrev State.realSegmentsOk (s : State) : Prop :=
  s.mode = .real ∨ s.mode = .v86 →
    (s.segs.cs.isReal ∨ s.mode = .real ∧ s.segs.cs = State.reset.segs.cs) ∧ s.segs.ss.isReal ∧ s.segs.ds.isReal ∧
      s.segs.es.isReal ∧ s.segs.fs.isReal ∧ s.segs.gs.isReal

/-- The error code of a faulting page that is read: W/R and I/D are 0, U/S is 1 exactly at privilege level 3 (R62). -/
def Page.codeOk (p : Page) : Bool :=
  match p.access, p.result with
  | .read, .pageFault c => !c.getLsbD 1 && !c.getLsbD 4 && c.getLsbD 2 == (p.cpl == 3#2)
  | _, _ => true

/-- The invariant of a launched machine. -/
abbrev State.Inv (s : State) : Prop :=
  s.pcFits ∧ s.flagsWordOk ∧ s.modeOk ∧ s.stackAndCodePresent ∧ s.realSegmentsOk ∧ (∀ p ∈ s.paging, p.codeOk = true) ∧
    Memory.wf s.mem ∧ Memory.wf s.code

/-! ### A completed CMOVcc -/

/-- The form is well formed in the machine's mode and the processor implements CMOVcc: what decoding asks for an
instruction to execute normally (R109, R110). -/
abbrev Admitted (n : OpSize) (f : Form) (s : State) : Prop :=
  f.wf s.ctx n = true ∧ s.supportsCmov = true

/-- The destination after a completed CMOVcc, by the operand size, IA-32e mode and the condition (R136). -/
def destAfter (n : OpSize) (ia32e moved : Bool) (old t : QWord) : QWord :=
  match n, ia32e, moved with
  | .w16, _, true => old.extractLsb' 16 48 ++ t.extractLsb' 0 16
  | .w16, _, false => old
  | .w32, true, true => 0#32 ++ t.extractLsb' 0 32
  | .w32, true, false => 0#32 ++ old.extractLsb' 0 32
  | .w32, false, true => old.extractLsb' 32 32 ++ t.extractLsb' 0 32
  | .w32, false, false => old
  | .w64, _, true => t
  | .w64, _, false => old

/-- The program counter after an instruction of a length: the addition is modulo the width of the instruction pointer
(R26). -/
def State.pcAfter (s : State) (len : Nat) : QWord :=
  BitVec.ofNat 64 ((s.pc.toNat + len) % 2 ^ s.ipBits)

/-- The state after a completed CMOVcc of a form: the destination register and the program counter, nothing else (R34); of the
read oracle, which is no state of the processor, the events of a memory form's read are over (R53, R249; log 27). -/
def State.afterCmov (s : State) (moved : Bool) (n : OpSize) (f : Form) (t : QWord) : State :=
  { s with
    regs := s.regs.set (destNum f).toNat (destAfter n s.ia32eActive moved (s.reg (destNum f)) t) (destNum f).isLt
    pc := s.pcAfter f.length
    readOracle := (passSource n f s).readOracle }

/-! ### Operands that can be read -/

/-- The linear address of a memory operand, as R31, R56 and R59 write it: in 64-bit mode only the bases of FS and GS are added,
modulo 2^64; elsewhere the segment's base, modulo 2^32. -/
def IsLinearAddress (s : State) (m : MemRef) (lin : BitVec 64) : Prop :=
  match s.mode with
  | .long64 => lin.toNat =
      ((if m.seg = .fs then s.segs.fs.base.toNat else if m.seg = .gs then s.segs.gs.base.toNat else 0) + m.ea.toNat) % 2 ^ 64
  | _ => lin.toNat = ((s.seg m.seg).base.toNat + m.ea.toNat) % 2 ^ 32

/-- No read event to come sees a byte that another agent has put at a physical address: the premise under which two reads of
it agree (R249). -/
def NotWrittenByOthers (s : State) (p : Nat) : Prop :=
  ∀ written ∈ s.readOracle, Memory.read written p = none

/-- The bytes of an operand are in ordinary memory: byte `k` stands at the linear address `lin + k` modulo 2^64 in 64-bit mode
and modulo 2^32 elsewhere, which translates to a physical address that is listed and no device, and what the operand's read
sees there is byte `k` of the value (R53, R62, R64, R65, R66). -/
def BytesReadable (s : State) (lin : BitVec 64) (n : Nat) (v : QWord) : Prop :=
  v.toNat < 2 ^ (8 * n) ∧
    ∀ k < n, ∃ a p : BitVec 64, a.toNat = (lin.toNat + k) % 2 ^ (if s.mode = .long64 then 64 else 32) ∧
      translateAddress s a .read = .physical p ∧ s.isDevice p.toNat = false ∧
      s.byteSeen (if lin.toNat % n = 0 then 0 else k) p.toNat = some (byteOf v k)

/-- An address is no trouble to the alignment check: checking is off or the address is a multiple of the size (R61). -/
abbrev AlignmentOk (s : State) (lin : BitVec 64) (n : Nat) : Prop :=
  s.checksAlignment = true → lin.toNat % n = 0

/-- Every byte of an access is canonical: the top 17 bits (8 bits with LINEAR_BITS 57) of its address are all equal (R59). -/
def EveryByteCanonical (s : State) (lin : BitVec 64) (n : Nat) : Prop :=
  ∀ k < n, canonical s.linearBits (lin + BitVec.ofNat 64 k) = true

/-- An access outside 64-bit mode that no check of R57 and R58 turns away. -/
structure LegacyAccessOk (s : State) (m : MemRef) (n : Nat) : Prop where
  notNull : s.checksDescriptors = true → nullChecked m.seg = true → (s.seg m.seg).isNull = false
  readable : s.checksDescriptors = true → (s.seg m.seg).readable = true
  inLimit : (s.seg m.seg).outside m.ea.toNat n = false

/-- An access outside 64-bit mode whose selector and readability no check of R58 turns away. -/
abbrev DescriptorOk (s : State) (m : MemRef) : Prop :=
  s.checksDescriptors = true → (nullChecked m.seg = true → (s.seg m.seg).isNull = false) ∧ (s.seg m.seg).readable = true

/-- A non-canonical address: neither in the lower half nor in the upper half of the linear addresses (R59). -/
def NonCanonicalAddress (w : LinearBits) (a : BitVec 64) : Prop :=
  match w with
  | .bits48 => 2 ^ 47 ≤ a.toNat ∧ a.toNat < 2 ^ 64 - 2 ^ 47
  | .bits57 => 2 ^ 56 ≤ a.toNat ∧ a.toNat < 2 ^ 64 - 2 ^ 56

/-- A displacement as a two's-complement value of a width (R104, R105). -/
def displacement (w : Nat) : Disp → BitVec w
  | .none => 0#w
  | .disp8 d => d.signExtend w
  | .disp16 d => d.signExtend w
  | .disp32 d => d.signExtend w

/-- The width of an address size in bits (R91). -/
def addressBits : AddrSize → Nat
  | .a16 => 16
  | .a32 => 32
  | .a64 => 64

/-! ### Runs -/

/-- A run of some steps that no fault and no refusal ends (R213). -/
def SafeRun (k : Nat) (s : State) : Prop :=
  ∃ t, Sys2Proof.core.run k s = .next t

/-- Two outcomes, from two states, that differ only as a relation of states allows: next states that are related, or one and the
same stop, an exception with the same kind, code and address carrying the state it came from. -/
def SameOutcome (related : State → State → Prop) (s t : State) : Res State → Res State → Prop
  | .next s', .next t' => related s' t'
  | .fault (.exception k c a x), .fault (.exception k' c' a' y) => k = k' ∧ c = c' ∧ a = a' ∧ x = s ∧ y = t
  | .fault (.unmapped p), .fault (.unmapped q) => p = q
  | .fault .addressWrap, .fault .addressWrap => True
  | .refused x, .refused y => x = y
  | _, _ => False

/-- Two states that differ in nothing an instruction outside 64-bit mode can see: only in bits 63:32 of the registers
(R20). -/
def SameBelowUpperHalves (s t : State) : Prop :=
  { s with regs := t.regs } = t ∧ ∀ r : Reg, (s.reg r).setWidth 32 = (t.reg r).setWidth 32

end Sys2Proof.Machine
end

