-- ==== Sys2Proof/Certificates/Slice0/Obligations.lean ====
section
/-! DEFINITION. The statements for the provers. Each docstring says what the statement claims; OBLIGATIONS.json cites the
rules of spec/ it rests on. -/

open Sys2Proof
open Sys2Proof.Machine

/-- In every context, for every instruction that is encodable there, with every prefix list, register, addressing
form and displacement, the decoder applied to its encoding followed by any bytes answers the instruction under
the canonical mnemonic of its opcode (for the 48 canonical constructors: the instruction itself) and leaves
exactly the bytes that followed. -/
def Obligations.DecodeOfEncodeIsCanonical : Prop :=
  ∀ (ctx : Ctx) (i : Instr) (rest : List Byte), i.encodable ctx = true →
    decode ctx (encode i ++ rest) = .instr i.canonical rest

/-- Whenever the decoder answers an instruction, that instruction is encodable in the context, is named by the
canonical mnemonic, and its encoding followed by the bytes left over is the byte sequence decoded. -/
def Obligations.EncodeOfDecodeGivesTheBytesBack : Prop :=
  ∀ (ctx : Ctx) (bs rest : List Byte) (i : Instr), decode ctx bs = .instr i rest →
    encode i ++ rest = bs ∧ i.encodable ctx = true ∧ i.canonical = i

/-- Two instructions encodable in one context have equal encodings exactly when they are the same instruction under
the canonical mnemonic: synonyms assemble to identical bytes, and nothing else does. -/
def Obligations.SynonymsEncodeAlike : Prop :=
  ∀ (ctx : Ctx) (i j : Instr), i.encodable ctx = true → j.encodable ctx = true →
    (encode i = encode j ↔ i.canonical = j.canonical)

/-- After any prefix bytes that may stand in the context, a byte that is neither a prefix nor 0F is answered as no
CMOVcc with that byte, and 0F followed by a byte whose high nibble is not 4 as no CMOVcc with both bytes; and a
step at a state whose program text holds such bytes at the program counter is refused by that name. -/
def Obligations.OtherOpcodesAreRejected : Prop :=
  (∀ (ctx : Ctx) (ps : List Prefix) (b0 b1 : Byte) (rest : List Byte),
    (∀ p ∈ ps, ctx.mode = .long64 ∨ p.isRex = false) →
      (Prefix.ofByte ctx b0 = none → b0 ≠ 0x0F#8 →
        decode ctx (ps.map Prefix.byte ++ b0 :: rest) = .notCmov b0 none) ∧
      (b1.extractLsb' 4 4 ≠ 4#4 →
        decode ctx (ps.map Prefix.byte ++ 0x0F#8 :: b1 :: rest) = .notCmov 0x0F#8 (some b1))) ∧
    ∀ (s : State) (ps : List Prefix) (b0 b1 : Byte) (rest : List Byte),
      (∀ p ∈ ps, s.mode = .long64 ∨ p.isRex = false) →
        (Prefix.ofByte s.ctx b0 = none → b0 ≠ 0x0F#8 → fetch s = ps.map Prefix.byte ++ b0 :: rest →
          step s = .refused (.notCmov b0 none)) ∧
        (b1.extractLsb' 4 4 ≠ 4#4 → fetch s = ps.map Prefix.byte ++ 0x0F#8 :: b1 :: rest →
          step s = .refused (.notCmov 0x0F#8 (some b1)))

/-- In 64-bit mode 0F 47 C3 is CMOVA EAX, EBX; 66 45 0F 4F CA is CMOVG R9W, R10W; 4A 0F 43 4C E5 F0 is CMOVAE RCX,
[RBP+R12*8-10H]; in 16-bit protected mode 66 0F 44 C3 is CMOVE EAX, EBX; in real-address mode 0F 44 06 34 12 is
CMOVE AX, [1234H]. A sanity statement. -/
def Obligations.WordsDecodeToTheirInstructions : Prop :=
  decode ⟨.long64, .d32⟩ [0x0F#8, 0x47#8, 0xC3#8] =
      .instr (.cmovaR32 ⟨[], ⟨3#2, 0#3, 3#3⟩, none, .none⟩) [] ∧
    decode ⟨.long64, .d32⟩ [0x66#8, 0x45#8, 0x0F#8, 0x4F#8, 0xCA#8] =
      .instr (.cmovgR16 ⟨[.opSize, .rex ⟨false, true, false, true⟩], ⟨3#2, 1#3, 2#3⟩, none, .none⟩) [] ∧
    decode ⟨.long64, .d32⟩ [0x4A#8, 0x0F#8, 0x43#8, 0x4C#8, 0xE5#8, 0xF0#8] =
      .instr (.cmovaeR64 ⟨[.rex ⟨true, false, true, false⟩], ⟨1#2, 1#3, 4#3⟩, some ⟨3#2, 4#3, 5#3⟩, .disp8 0xF0#8⟩) [] ∧
    decode ⟨.prot, .d16⟩ [0x66#8, 0x0F#8, 0x44#8, 0xC3#8] =
      .instr (.cmoveR32 ⟨[.opSize], ⟨3#2, 0#3, 3#3⟩, none, .none⟩) [] ∧
    decode ⟨.real, .d32⟩ [0x0F#8, 0x44#8, 0x06#8, 0x34#8, 0x12#8] =
      .instr (.cmoveR16 ⟨[], ⟨0#2, 0#3, 6#3⟩, none, .disp16 0x1234#16⟩) []

/-- In 64-bit mode REX.W gives operand size 64 whatever 66H says, else 66H gives 16, else 32, and 67H gives address
size 32, else 64; elsewhere 66H and 67H select the other of 16 and 32 than the default, which is cs_d, and 16 in
real-address and virtual-8086 mode (00_scope.md R6). (What 66H, cs_d and REX.W over 66H do, and the address size
throughout, are the spec's general-knowledge passage K8, PRESUMED, log 24.) -/
def Obligations.OperandAndAddressSizeByPrefixes : Prop :=
  ∀ (ctx : Ctx) (ps : List Prefix),
    (ctx.mode = .long64 →
      (rexW ps = true → operandSize ctx ps = .w64) ∧
      (rexW ps = false → Prefix.opSize ∈ ps → operandSize ctx ps = .w16) ∧
      (rexW ps = false → Prefix.opSize ∉ ps → operandSize ctx ps = .w32) ∧
      (Prefix.addrSize ∈ ps → addressSize ctx ps = .a32) ∧
      (Prefix.addrSize ∉ ps → addressSize ctx ps = .a64)) ∧
    (ctx.mode ≠ .long64 → ctx.mode ≠ .real → ctx.mode ≠ .v86 → ctx.csD = .d32 →
      (Prefix.opSize ∈ ps → operandSize ctx ps = .w16) ∧ (Prefix.opSize ∉ ps → operandSize ctx ps = .w32) ∧
      (Prefix.addrSize ∈ ps → addressSize ctx ps = .a16) ∧ (Prefix.addrSize ∉ ps → addressSize ctx ps = .a32)) ∧
    (ctx.mode ≠ .long64 → ctx.mode = .real ∨ ctx.mode = .v86 ∨ ctx.csD = .d16 →
      (Prefix.opSize ∈ ps → operandSize ctx ps = .w32) ∧ (Prefix.opSize ∉ ps → operandSize ctx ps = .w16) ∧
      (Prefix.addrSize ∈ ps → addressSize ctx ps = .a32) ∧ (Prefix.addrSize ∉ ps → addressSize ctx ps = .a16))

/-- An instruction of operand size 64 that is encodable in a context is in 64-bit mode; and for each condition and
each operand size (64 in 64-bit mode only) every context has a well-formed instruction. -/
def Obligations.SixtyFourBitFormsOnlyInLongMode : Prop :=
  (∀ (ctx : Ctx) (i : Instr), i.size = .w64 → i.encodable ctx = true → ctx.mode = .long64) ∧
    ∀ (ctx : Ctx) (c : Cond) (n : OpSize), (n = .w64 → ctx.mode = .long64) →
      ∃ f : Form, (Instr.ofParts c n f).wf ctx = true ∧ (Instr.ofParts c n f).cond = c ∧ (Instr.ofParts c n f).size = n

/-- When the bytes of the program text from the program counter on decode to an instruction, the step at that state
is exec of that instruction at that state, with nothing added. -/
def Obligations.StepRunsTheDecodedInstruction : Prop :=
  ∀ (s : State) (i : Instr) (rest : List Byte), decode s.ctx (fetch s) = .instr i rest → step s = exec i s

/-- When the program text from the program counter on begins with the encoding of an instruction (a synonym too),
the step is exec of that instruction. -/
def Obligations.StepRunsTheEncodedInstruction : Prop :=
  ∀ (s : State) (i : Instr) (rest : List Byte), i.encodable s.ctx = true → fetch s = encode i ++ rest →
    step s = exec i s

/-- With the program text in canonical form: let a be the program counter in 64-bit mode, and the CS base plus the
program counter modulo 2^32 elsewhere. Byte k of the fetch is b exactly when the text holds b at a + k and, for
every j up to k, address a + j is in the text and in bounds: below 2^64 in 64-bit mode; elsewhere below 2^32,
with offset pc + j no greater than the CS limit and no wider than the instruction pointer, which has 16 bits in
real-address and virtual-8086 mode and with 16-bit code, else 32. That the text is a map of its own, and the
bound by the limit and the pointer's width, are the model's DESIGN CHOICE, and the linear fetch address is
DEDUCED (log 5). -/
def Obligations.FetchReadsTheProgramText : Prop :=
  ∀ (s : State) (a k : Nat) (b : Byte), Memory.wf s.code →
    a = (if s.mode = .long64 then s.pc.toNat else (s.segs.cs.base.toNat + s.pc.toNat) % 2 ^ 32) →
    let inBounds := fun j : Nat =>
      if s.mode = .long64 then a + j < 2 ^ 64
      else a + j < 2 ^ 32 ∧ s.pc.toNat + j ≤ s.segs.cs.limit.toNat ∧
        s.pc.toNat + j < 2 ^ (if s.mode = .real ∨ s.mode = .v86 ∨ s.csD = .d16 then 16 else 32)
    ((fetch s)[k]? = some b ↔
      (∀ j ≤ k, inBounds j ∧ (Memory.read s.code (a + j)).isSome = true) ∧ Memory.read s.code (a + k) = some b)

/-- When the bytes fetched are a proper part of the encoding of an instruction of the machine's mode (none of it
included), the step is refused by name, with no fault. (The spec's decision D6, log 5.) -/
def Obligations.FetchOutsideTheTextIsRefused : Prop :=
  ∀ (s : State) (i : Instr) (missing : List Byte), i.encodable s.ctx = true → missing ≠ [] →
    fetch s ++ missing = encode i → step s = .refused .fetchOutsideCode

/-- At each operand size, for every admitted form whose source reads t: CMOVO complete, and move exactly when OF
(bit 11) is set; CMOVNO complete, and move exactly when it is not. The next state is that of R136 for the
destination, the program counter past the instruction, the read events of a memory operand taken from the read
oracle, and every other part of the state as it was. -/
def Obligations.OverflowPairMovesByItsFlags : Prop :=
  ∀ (s : State) (f : Form) (t : QWord),
    (Admitted .w16 f s → readSource .w16 f s = .next t →
      (∀ i ∈ [Instr.cmovoR16 f],
        exec i s = .next (s.afterCmov (s.rflags.getLsbD 11) .w16 f t)) ∧
      ∀ i ∈ [Instr.cmovnoR16 f],
        exec i s = .next (s.afterCmov (!s.rflags.getLsbD 11) .w16 f t)) ∧
    (Admitted .w32 f s → readSource .w32 f s = .next t →
      (∀ i ∈ [Instr.cmovoR32 f],
        exec i s = .next (s.afterCmov (s.rflags.getLsbD 11) .w32 f t)) ∧
      ∀ i ∈ [Instr.cmovnoR32 f],
        exec i s = .next (s.afterCmov (!s.rflags.getLsbD 11) .w32 f t)) ∧
    (Admitted .w64 f s → readSource .w64 f s = .next t →
      (∀ i ∈ [Instr.cmovoR64 f],
        exec i s = .next (s.afterCmov (s.rflags.getLsbD 11) .w64 f t)) ∧
      ∀ i ∈ [Instr.cmovnoR64 f],
        exec i s = .next (s.afterCmov (!s.rflags.getLsbD 11) .w64 f t))

/-- At each operand size, for every admitted form whose source reads t: CMOVB, CMOVC, CMOVNAE complete, and move
exactly when CF (bit 0) is set; CMOVAE, CMOVNB, CMOVNC complete, and move exactly when it is not. The next state
is that of R136 for the destination, the program counter past the instruction, the read events of a memory
operand taken from the read oracle, and every other part of the state as it was. -/
def Obligations.CarryPairMovesByItsFlags : Prop :=
  ∀ (s : State) (f : Form) (t : QWord),
    (Admitted .w16 f s → readSource .w16 f s = .next t →
      (∀ i ∈ [Instr.cmovbR16 f, .cmovcR16 f, .cmovnaeR16 f],
        exec i s = .next (s.afterCmov (s.rflags.getLsbD 0) .w16 f t)) ∧
      ∀ i ∈ [Instr.cmovaeR16 f, .cmovnbR16 f, .cmovncR16 f],
        exec i s = .next (s.afterCmov (!s.rflags.getLsbD 0) .w16 f t)) ∧
    (Admitted .w32 f s → readSource .w32 f s = .next t →
      (∀ i ∈ [Instr.cmovbR32 f, .cmovcR32 f, .cmovnaeR32 f],
        exec i s = .next (s.afterCmov (s.rflags.getLsbD 0) .w32 f t)) ∧
      ∀ i ∈ [Instr.cmovaeR32 f, .cmovnbR32 f, .cmovncR32 f],
        exec i s = .next (s.afterCmov (!s.rflags.getLsbD 0) .w32 f t)) ∧
    (Admitted .w64 f s → readSource .w64 f s = .next t →
      (∀ i ∈ [Instr.cmovbR64 f, .cmovcR64 f, .cmovnaeR64 f],
        exec i s = .next (s.afterCmov (s.rflags.getLsbD 0) .w64 f t)) ∧
      ∀ i ∈ [Instr.cmovaeR64 f, .cmovnbR64 f, .cmovncR64 f],
        exec i s = .next (s.afterCmov (!s.rflags.getLsbD 0) .w64 f t))

/-- At each operand size, for every admitted form whose source reads t: CMOVE, CMOVZ complete, and move exactly when
ZF (bit 6) is set; CMOVNE, CMOVNZ complete, and move exactly when it is not. The next state is that of R136 for
the destination, the program counter past the instruction, the read events of a memory operand taken from the
read oracle, and every other part of the state as it was. -/
def Obligations.ZeroPairMovesByItsFlags : Prop :=
  ∀ (s : State) (f : Form) (t : QWord),
    (Admitted .w16 f s → readSource .w16 f s = .next t →
      (∀ i ∈ [Instr.cmoveR16 f, .cmovzR16 f],
        exec i s = .next (s.afterCmov (s.rflags.getLsbD 6) .w16 f t)) ∧
      ∀ i ∈ [Instr.cmovneR16 f, .cmovnzR16 f],
        exec i s = .next (s.afterCmov (!s.rflags.getLsbD 6) .w16 f t)) ∧
    (Admitted .w32 f s → readSource .w32 f s = .next t →
      (∀ i ∈ [Instr.cmoveR32 f, .cmovzR32 f],
        exec i s = .next (s.afterCmov (s.rflags.getLsbD 6) .w32 f t)) ∧
      ∀ i ∈ [Instr.cmovneR32 f, .cmovnzR32 f],
        exec i s = .next (s.afterCmov (!s.rflags.getLsbD 6) .w32 f t)) ∧
    (Admitted .w64 f s → readSource .w64 f s = .next t →
      (∀ i ∈ [Instr.cmoveR64 f, .cmovzR64 f],
        exec i s = .next (s.afterCmov (s.rflags.getLsbD 6) .w64 f t)) ∧
      ∀ i ∈ [Instr.cmovneR64 f, .cmovnzR64 f],
        exec i s = .next (s.afterCmov (!s.rflags.getLsbD 6) .w64 f t))

/-- At each operand size, for every admitted form whose source reads t: CMOVBE, CMOVNA complete, and move exactly
when CF or ZF is set; CMOVA, CMOVNBE complete, and move exactly when it is not. The next state is that of R136
for the destination, the program counter past the instruction, the read events of a memory operand taken from
the read oracle, and every other part of the state as it was. -/
def Obligations.BelowOrEqualPairMovesByItsFlags : Prop :=
  ∀ (s : State) (f : Form) (t : QWord),
    (Admitted .w16 f s → readSource .w16 f s = .next t →
      (∀ i ∈ [Instr.cmovbeR16 f, .cmovnaR16 f],
        exec i s = .next (s.afterCmov ((s.rflags.getLsbD 0 || s.rflags.getLsbD 6)) .w16 f t)) ∧
      ∀ i ∈ [Instr.cmovaR16 f, .cmovnbeR16 f],
        exec i s = .next (s.afterCmov (!(s.rflags.getLsbD 0 || s.rflags.getLsbD 6)) .w16 f t)) ∧
    (Admitted .w32 f s → readSource .w32 f s = .next t →
      (∀ i ∈ [Instr.cmovbeR32 f, .cmovnaR32 f],
        exec i s = .next (s.afterCmov ((s.rflags.getLsbD 0 || s.rflags.getLsbD 6)) .w32 f t)) ∧
      ∀ i ∈ [Instr.cmovaR32 f, .cmovnbeR32 f],
        exec i s = .next (s.afterCmov (!(s.rflags.getLsbD 0 || s.rflags.getLsbD 6)) .w32 f t)) ∧
    (Admitted .w64 f s → readSource .w64 f s = .next t →
      (∀ i ∈ [Instr.cmovbeR64 f, .cmovnaR64 f],
        exec i s = .next (s.afterCmov ((s.rflags.getLsbD 0 || s.rflags.getLsbD 6)) .w64 f t)) ∧
      ∀ i ∈ [Instr.cmovaR64 f, .cmovnbeR64 f],
        exec i s = .next (s.afterCmov (!(s.rflags.getLsbD 0 || s.rflags.getLsbD 6)) .w64 f t))

/-- At each operand size, for every admitted form whose source reads t: CMOVS complete, and move exactly when SF
(bit 7) is set; CMOVNS complete, and move exactly when it is not. The next state is that of R136 for the
destination, the program counter past the instruction, the read events of a memory operand taken from the read
oracle, and every other part of the state as it was. -/
def Obligations.SignPairMovesByItsFlags : Prop :=
  ∀ (s : State) (f : Form) (t : QWord),
    (Admitted .w16 f s → readSource .w16 f s = .next t →
      (∀ i ∈ [Instr.cmovsR16 f],
        exec i s = .next (s.afterCmov (s.rflags.getLsbD 7) .w16 f t)) ∧
      ∀ i ∈ [Instr.cmovnsR16 f],
        exec i s = .next (s.afterCmov (!s.rflags.getLsbD 7) .w16 f t)) ∧
    (Admitted .w32 f s → readSource .w32 f s = .next t →
      (∀ i ∈ [Instr.cmovsR32 f],
        exec i s = .next (s.afterCmov (s.rflags.getLsbD 7) .w32 f t)) ∧
      ∀ i ∈ [Instr.cmovnsR32 f],
        exec i s = .next (s.afterCmov (!s.rflags.getLsbD 7) .w32 f t)) ∧
    (Admitted .w64 f s → readSource .w64 f s = .next t →
      (∀ i ∈ [Instr.cmovsR64 f],
        exec i s = .next (s.afterCmov (s.rflags.getLsbD 7) .w64 f t)) ∧
      ∀ i ∈ [Instr.cmovnsR64 f],
        exec i s = .next (s.afterCmov (!s.rflags.getLsbD 7) .w64 f t))

/-- At each operand size, for every admitted form whose source reads t: CMOVP, CMOVPE complete, and move exactly
when PF (bit 2) is set; CMOVNP, CMOVPO complete, and move exactly when it is not. The next state is that of R136
for the destination, the program counter past the instruction, the read events of a memory operand taken from
the read oracle, and every other part of the state as it was. -/
def Obligations.ParityPairMovesByItsFlags : Prop :=
  ∀ (s : State) (f : Form) (t : QWord),
    (Admitted .w16 f s → readSource .w16 f s = .next t →
      (∀ i ∈ [Instr.cmovpR16 f, .cmovpeR16 f],
        exec i s = .next (s.afterCmov (s.rflags.getLsbD 2) .w16 f t)) ∧
      ∀ i ∈ [Instr.cmovnpR16 f, .cmovpoR16 f],
        exec i s = .next (s.afterCmov (!s.rflags.getLsbD 2) .w16 f t)) ∧
    (Admitted .w32 f s → readSource .w32 f s = .next t →
      (∀ i ∈ [Instr.cmovpR32 f, .cmovpeR32 f],
        exec i s = .next (s.afterCmov (s.rflags.getLsbD 2) .w32 f t)) ∧
      ∀ i ∈ [Instr.cmovnpR32 f, .cmovpoR32 f],
        exec i s = .next (s.afterCmov (!s.rflags.getLsbD 2) .w32 f t)) ∧
    (Admitted .w64 f s → readSource .w64 f s = .next t →
      (∀ i ∈ [Instr.cmovpR64 f, .cmovpeR64 f],
        exec i s = .next (s.afterCmov (s.rflags.getLsbD 2) .w64 f t)) ∧
      ∀ i ∈ [Instr.cmovnpR64 f, .cmovpoR64 f],
        exec i s = .next (s.afterCmov (!s.rflags.getLsbD 2) .w64 f t))

/-- At each operand size, for every admitted form whose source reads t: CMOVL, CMOVNGE complete, and move exactly
when SF different from OF is set; CMOVGE, CMOVNL complete, and move exactly when it is not. The next state is
that of R136 for the destination, the program counter past the instruction, the read events of a memory operand
taken from the read oracle, and every other part of the state as it was. -/
def Obligations.LessPairMovesByItsFlags : Prop :=
  ∀ (s : State) (f : Form) (t : QWord),
    (Admitted .w16 f s → readSource .w16 f s = .next t →
      (∀ i ∈ [Instr.cmovlR16 f, .cmovngeR16 f],
        exec i s = .next (s.afterCmov ((s.rflags.getLsbD 7 != s.rflags.getLsbD 11)) .w16 f t)) ∧
      ∀ i ∈ [Instr.cmovgeR16 f, .cmovnlR16 f],
        exec i s = .next (s.afterCmov (!(s.rflags.getLsbD 7 != s.rflags.getLsbD 11)) .w16 f t)) ∧
    (Admitted .w32 f s → readSource .w32 f s = .next t →
      (∀ i ∈ [Instr.cmovlR32 f, .cmovngeR32 f],
        exec i s = .next (s.afterCmov ((s.rflags.getLsbD 7 != s.rflags.getLsbD 11)) .w32 f t)) ∧
      ∀ i ∈ [Instr.cmovgeR32 f, .cmovnlR32 f],
        exec i s = .next (s.afterCmov (!(s.rflags.getLsbD 7 != s.rflags.getLsbD 11)) .w32 f t)) ∧
    (Admitted .w64 f s → readSource .w64 f s = .next t →
      (∀ i ∈ [Instr.cmovlR64 f, .cmovngeR64 f],
        exec i s = .next (s.afterCmov ((s.rflags.getLsbD 7 != s.rflags.getLsbD 11)) .w64 f t)) ∧
      ∀ i ∈ [Instr.cmovgeR64 f, .cmovnlR64 f],
        exec i s = .next (s.afterCmov (!(s.rflags.getLsbD 7 != s.rflags.getLsbD 11)) .w64 f t))

/-- At each operand size, for every admitted form whose source reads t: CMOVLE, CMOVNG complete, and move exactly
when ZF, or SF different from OF is set; CMOVG, CMOVNLE complete, and move exactly when it is not. The next
state is that of R136 for the destination, the program counter past the instruction, the read events of a memory
operand taken from the read oracle, and every other part of the state as it was. -/
def Obligations.LessOrEqualPairMovesByItsFlags : Prop :=
  ∀ (s : State) (f : Form) (t : QWord),
    (Admitted .w16 f s → readSource .w16 f s = .next t →
      (∀ i ∈ [Instr.cmovleR16 f, .cmovngR16 f],
        exec i s = .next (s.afterCmov ((s.rflags.getLsbD 6 || (s.rflags.getLsbD 7 != s.rflags.getLsbD 11))) .w16 f t)) ∧
      ∀ i ∈ [Instr.cmovgR16 f, .cmovnleR16 f],
        exec i s = .next (s.afterCmov (!(s.rflags.getLsbD 6 || (s.rflags.getLsbD 7 != s.rflags.getLsbD 11))) .w16 f t)) ∧
    (Admitted .w32 f s → readSource .w32 f s = .next t →
      (∀ i ∈ [Instr.cmovleR32 f, .cmovngR32 f],
        exec i s = .next (s.afterCmov ((s.rflags.getLsbD 6 || (s.rflags.getLsbD 7 != s.rflags.getLsbD 11))) .w32 f t)) ∧
      ∀ i ∈ [Instr.cmovgR32 f, .cmovnleR32 f],
        exec i s = .next (s.afterCmov (!(s.rflags.getLsbD 6 || (s.rflags.getLsbD 7 != s.rflags.getLsbD 11))) .w32 f t)) ∧
    (Admitted .w64 f s → readSource .w64 f s = .next t →
      (∀ i ∈ [Instr.cmovleR64 f, .cmovngR64 f],
        exec i s = .next (s.afterCmov ((s.rflags.getLsbD 6 || (s.rflags.getLsbD 7 != s.rflags.getLsbD 11))) .w64 f t)) ∧
      ∀ i ∈ [Instr.cmovgR64 f, .cmovnleR64 f],
        exec i s = .next (s.afterCmov (!(s.rflags.getLsbD 6 || (s.rflags.getLsbD 7 != s.rflags.getLsbD 11))) .w64 f t))

/-- Every admitted instruction with mod = 3 answers a next state: the destination by R136 from the source register's
low bits, the program counter past the instruction, and every other part of the state as it was. -/
def Obligations.RegisterFormCompletes : Prop :=
  ∀ (i : Instr) (s : State), Admitted i.size i.form s → i.form.modrm.mod = 3#2 →
    exec i s = .next (s.afterCmov (condHolds i.cond s.flags) i.size i.form (s.gprRead (srcNum i.form) i.size))

/-- In 64-bit mode let lin be the effective address, plus the base of FS or GS where the operand goes through that
register and plus nothing elsewhere, modulo 2^64. Every admitted instruction with a memory operand of which no
byte is non-canonical, which does not wrap past 2^64, is aligned where that is checked, and whose bytes stand in
ordinary listed memory and are read as the little-endian value v, completes with R136's state for v; nothing is
asked of the condition. -/
def Obligations.LongModeMemoryFormCompletes : Prop :=
  ∀ (i : Instr) (s : State) (lin : BitVec 64) (v : QWord), Admitted i.size i.form s → i.form.modrm.mod ≠ 3#2 →
    s.mode = .long64 → IsLinearAddress s (memRef s i.form) lin →
    (∀ k < opBytes i.size, ¬ NonCanonicalAddress s.linearBits (lin + BitVec.ofNat 64 k)) →
    lin.toNat + opBytes i.size ≤ 2 ^ 64 → AlignmentOk s lin (opBytes i.size) → BytesReadable s lin (opBytes i.size) v →
    exec i s = .next (s.afterCmov (condHolds i.cond s.flags) i.size i.form v)

/-- Outside 64-bit mode let lin be the base of the operand's segment plus the effective address, modulo 2^32. Every
admitted instruction with a memory operand that the NULL, readability and limit checks let pass, is aligned
where that is checked, and whose bytes stand in ordinary listed memory and are read as the little-endian value
v, completes with R136's state for v. An operand whose linear bytes pass 2^32 without its offsets wrapping is
included: its byte addresses are taken modulo 2^32 (R53). -/
def Obligations.LegacyMemoryFormCompletes : Prop :=
  ∀ (i : Instr) (s : State) (lin : BitVec 64) (v : QWord), Admitted i.size i.form s → i.form.modrm.mod ≠ 3#2 →
    s.mode ≠ .long64 → IsLinearAddress s (memRef s i.form) lin → LegacyAccessOk s (memRef s i.form) (opBytes i.size) →
    AlignmentOk s lin (opBytes i.size) → BytesReadable s lin (opBytes i.size) v →
    exec i s = .next (s.afterCmov (condHolds i.cond s.flags) i.size i.form v)

/-- For each condition number 0 to 15, the predicate on the flags in any EFLAGS image is the test of R131 on bits 0
(CF), 2 (PF), 6 (ZF), 7 (SF), 11 (OF); no other bit, AF among them, is read. (The places of the bits are the
spec's general-knowledge passage K10, PRESUMED, log 24; the flags kept as one whole word, log 20.) -/
def Obligations.ConditionPredicates : Prop :=
  ∀ v : BitVec 64,
    let cf := v.getLsbD 0; let pf := v.getLsbD 2; let zf := v.getLsbD 6; let sf := v.getLsbD 7; let of := v.getLsbD 11
    let cond := fun k => condHolds (Cond.ofNum k) (flagsOfImage v)
    (cond 0#4 = true ↔ of = true) ∧ (cond 1#4 = true ↔ of = false) ∧
    (cond 2#4 = true ↔ cf = true) ∧ (cond 3#4 = true ↔ cf = false) ∧
    (cond 4#4 = true ↔ zf = true) ∧ (cond 5#4 = true ↔ zf = false) ∧
    (cond 6#4 = true ↔ cf = true ∨ zf = true) ∧ (cond 7#4 = true ↔ cf = false ∧ zf = false) ∧
    (cond 8#4 = true ↔ sf = true) ∧ (cond 9#4 = true ↔ sf = false) ∧
    (cond 10#4 = true ↔ pf = true) ∧ (cond 11#4 = true ↔ pf = false) ∧
    (cond 12#4 = true ↔ sf ≠ of) ∧ (cond 13#4 = true ↔ sf = of) ∧
    (cond 14#4 = true ↔ zf = true ∨ sf ≠ of) ∧ (cond 15#4 = true ↔ zf = false ∧ sf = of)

/-- For every k from 0 to 7 and every state of the flags, condition 2k+1 holds exactly when condition 2k does not,
so exactly one of the two moves. -/
def Obligations.ComplementaryConditions : Prop :=
  ∀ (k : Fin 8) (fl : Flags),
    condHolds (Cond.ofNum (BitVec.ofNat 4 (2 * k.val + 1))) fl = !condHolds (Cond.ofNum (BitVec.ofNat 4 (2 * k.val))) fl

/-- For every instruction and state, exec of the instruction is exec of the same instruction under the canonical
mnemonic; and two instructions of one condition, operand size and form have one effect. -/
def Obligations.SynonymsHaveOneEffect : Prop :=
  ∀ (i j : Instr) (s : State), exec i s = exec i.canonical s ∧
    (i.cond = j.cond → i.size = j.size → i.form = j.form → exec i s = exec j s)

/-- When an instruction completes, having read the source value t: a 16-bit form that moves puts t in bits 15:0 and
keeps bits 63:16; a 32-bit form in IA-32e mode leaves bits 63:32 zero and t, or the old bits 31:0, below;
outside IA-32e mode it keeps bits 63:32; a 64-bit form that moves leaves t; a form that does not move and is not
32-bit in IA-32e mode leaves the register as it was; and the program counter is past the instruction in each
case. (The upper parts after a performed 16- or 32-bit move are general knowledge K9, PRESUMED, log 24. Outside
IA-32e mode the spec gives bits 63:32 no observable value (U12): the clauses on them there say what the model
does, and a claim about the hardware that rests on them is unsafe, log 19.) -/
def Obligations.DestinationAfterCompletion : Prop :=
  ∀ (i : Instr) (s s' : State) (t : QWord), exec i s = .next s' → readSource i.size i.form s = .next t →
    let d := destNum i.form
    let moved := condHolds i.cond s.flags
    (i.size = .w16 → moved = true → (s'.reg d).extractLsb' 0 16 = t.extractLsb' 0 16 ∧
      (s'.reg d).extractLsb' 16 48 = (s.reg d).extractLsb' 16 48) ∧
    (i.size = .w32 → s.ia32eActive = true → (s'.reg d).extractLsb' 32 32 = 0#32 ∧
      (s'.reg d).extractLsb' 0 32 = if moved then t.extractLsb' 0 32 else (s.reg d).extractLsb' 0 32) ∧
    (i.size = .w32 → s.ia32eActive = false → moved = true → (s'.reg d).extractLsb' 0 32 = t.extractLsb' 0 32 ∧
      (s'.reg d).extractLsb' 32 32 = (s.reg d).extractLsb' 32 32) ∧
    (i.size = .w64 → moved = true → s'.reg d = t ∧ s.mode = .long64) ∧
    (moved = false → ¬ (i.size = .w32 ∧ s.ia32eActive = true) → s'.reg d = s.reg d) ∧
    s'.pc = s.pcAfter i.form.length

/-- An instruction that completes changes at most its destination register and the program counter: every other
register, the flags word, the segment registers, mode, code size, privilege level, the parameters, the paging
table (kept over a whole run by the model's DESIGN CHOICE, log 6), the program text and every byte of memory are
as before. Of the read oracle, which is no state of the processor (log 27), a register form takes nothing, a
memory form one event when its linear address is a multiple of the operand size and one for each byte otherwise.
An instruction that raises an exception carries the state before it, unchanged. -/
def Obligations.CompletionAndExceptionFrame : Prop :=
  (∀ (i : Instr) (s s' : State), exec i s = .next s' →
      (∀ r : Reg, r ≠ destNum i.form → s'.reg r = s.reg r) ∧ s'.rflags = s.rflags ∧ s'.segs = s.segs ∧
      s'.mode = s.mode ∧ s'.csD = s.csD ∧ s'.cpl = s.cpl ∧ s'.acEnabled = s.acEnabled ∧
      s'.cmovSupported = s.cmovSupported ∧ s'.linearBits = s.linearBits ∧ s'.paging = s.paging ∧
      s'.devices = s.devices ∧ s'.choice = s.choice ∧ s'.pc = s.pcAfter i.form.length ∧
      (i.form.modrm.mod = 3#2 → s'.readOracle = s.readOracle) ∧
      (∀ lin, i.form.modrm.mod ≠ 3#2 → IsLinearAddress s (memRef s i.form) lin →
        s'.readOracle = s.readOracle.drop (if lin.toNat % opBytes i.size = 0 then 1 else opBytes i.size)) ∧
      ∀ a : Nat, Memory.read s'.mem a = Memory.read s.mem a ∧ Memory.read s'.code a = Memory.read s.code a) ∧
    ∀ (i : Instr) (s t : State) (k : ExcKind) (c : Option (BitVec 32)) (a : Option (BitVec 64)),
      exec i s = .fault (.exception k c a t) → t = s

/-- For every instruction some bytes decode to in the machine's mode with a LOCK prefix among its prefixes, exec
raises #UD with no error code and the state unchanged: register and memory form alike, whatever the other
prefixes, the length, the condition, and whatever the operand read would have done. -/
def Obligations.LockRaisesInvalidOpcode : Prop :=
  ∀ (i : Instr) (s : State), i.encodable s.ctx = true → Prefix.lock ∈ i.form.prefixes →
    exec i s = .fault (.exception .ud none none s)

/-- When CMOV_SUPPORTED is false, outside compatibility and 64-bit mode (where the feature is always there, R146),
every instruction some bytes decode to, with no refused prefix, raises #UD; in compatibility and 64-bit mode the
parameter has no effect on what an instruction does: with the parameter set and with it clear, from states
otherwise equal, exec completes in states otherwise equal, raises the same exception with the same code and
address, or faults or is refused for the same reason. (That R109 puts the refused prefixes first is the order
the model follows, log 13.) -/
def Obligations.UnsupportedCmovRaisesInvalidOpcode : Prop :=
  (∀ (i : Instr) (s : State), i.encodable s.ctx = true → s.cmovSupported = false →
      s.mode = .real ∨ s.mode = .prot ∨ s.mode = .v86 →
      (Prefix.lock ∈ i.form.prefixes ∨
        (Prefix.repne ∉ i.form.prefixes ∧ Prefix.rep ∉ i.form.prefixes ∧ (segOverrides i.form.prefixes).length ≤ 1)) →
      exec i s = .fault (.exception .ud none none s)) ∧
    ∀ (i : Instr) (s : State), s.mode = .compat ∨ s.mode = .long64 → s.cmovSupported = true →
      SameOutcome (fun x y => y = { x with cmovSupported := false }) s { s with cmovSupported := false }
        (exec i s) (exec i { s with cmovSupported := false })

/-- An instruction some bytes decode to, with no LOCK and no refused prefix, on a processor with CMOV, whose length
is over 15 bytes, raises #GP with error code zero, and in real-address mode with none (the absence of the code
there for this cause is the model's inference, log 12), whatever its operand. -/
def Obligations.OverlongInstructionRaisesGeneralProtection : Prop :=
  ∀ (i : Instr) (s : State), i.encodable s.ctx = true → Prefix.lock ∉ i.form.prefixes →
    Prefix.repne ∉ i.form.prefixes → Prefix.rep ∉ i.form.prefixes → (segOverrides i.form.prefixes).length ≤ 1 →
    misplacedRex i.form.prefixes = false → s.supportsCmov = true → 15 < i.form.length →
    exec i s = .fault (.exception .gp (if s.mode = .real then none else some 0#32) none s)

/-- For every instruction some bytes decode to with no LOCK prefix: an F2 or F3 prefix is refused as such; without
them, more than one segment override; without either, a REX byte that is not the last prefix. (The spec's
decisions D5, D18, D19. R109 lists the three with "or" and gives no order: the order is the model's DESIGN
CHOICE, log 13.) -/
def Obligations.ReservedPrefixesAreRefused : Prop :=
  ∀ (i : Instr) (s : State), i.encodable s.ctx = true → Prefix.lock ∉ i.form.prefixes →
    (Prefix.repne ∈ i.form.prefixes ∨ Prefix.rep ∈ i.form.prefixes → exec i s = .refused .repPrefix) ∧
    (Prefix.repne ∉ i.form.prefixes → Prefix.rep ∉ i.form.prefixes →
      (1 < (segOverrides i.form.prefixes).length → exec i s = .refused .severalSegmentOverrides) ∧
      ((segOverrides i.form.prefixes).length ≤ 1 → (∃ r, Prefix.rex r ∈ i.form.prefixes.dropLast) →
        exec i s = .refused .misplacedRex))

/-- Every exception carries the unchanged state. #UD has no code and no address. #GP and #SS have no address, and
code zero, none in real-address mode. #AC has code zero and no address, #PF a code and an address; neither
occurs in real-address mode. A register form raises only #UD and the #GP for length. (That the #GP for length
has no code in real-address mode, where R108 writes #GP(0) for every mode, is DEDUCED, log 12.) -/
def Obligations.ExceptionsByModeAndForm : Prop :=
  ∀ (i : Instr) (s t : State) (k : ExcKind) (c : Option (BitVec 32)) (a : Option (BitVec 64)),
    exec i s = .fault (.exception k c a t) →
      t = s ∧
      (k = .ud → c = none ∧ a = none) ∧
      (k = .gp ∨ k = .ss → c = (if s.mode = .real then none else some 0#32) ∧ a = none) ∧
      (k = .ac → c = some 0#32 ∧ a = none ∧ s.mode ≠ .real ∧ s.acEnabled = true) ∧
      (k = .pf → c.isSome = true ∧ a.isSome = true ∧ s.mode ≠ .real) ∧
      (i.form.modrm.mod = 3#2 → k = .ud ∨ (k = .gp ∧ 15 < i.form.length))

/-- Two instructions of one operand size and one form (the same prefixes, ModR/M, SIB and displacement) fault and
are refused alike in every state, whatever their conditions and the flags. -/
def Obligations.FaultsIgnoreTheCondition : Prop :=
  ∀ (i j : Instr) (s : State), i.size = j.size → i.form = j.form →
    (∀ x, exec i s = .fault x ↔ exec j s = .fault x) ∧ (∀ x, exec i s = .refused x ↔ exec j s = .refused x)

/-- For every admitted instruction with a memory operand: if the operand read faults or is refused, exec stops with
that same fault or refusal, and if it gives a value, exec completes, in each case whether or not the condition
holds. -/
def Obligations.SourceReadIsUnconditional : Prop :=
  ∀ (i : Instr) (s : State), Admitted i.size i.form s → i.form.modrm.mod ≠ 3#2 →
    (∀ x, loadOperand s (memRef s i.form) (opBytes i.size) = .fault x → exec i s = .fault x) ∧
    (∀ x, loadOperand s (memRef s i.form) (opBytes i.size) = .refused x → exec i s = .refused x) ∧
    (∀ v, loadOperand s (memRef s i.form) (opBytes i.size) = .next v →
      exec i s = .next (s.afterCmov (condHolds i.cond s.flags) i.size i.form v))

/-- Outside 64-bit mode, for an admitted memory form whose selector and readability pass: if the access runs past
the limit of an expand-up segment (of less than 4 GiB, R72), or starts at or below the limit or runs past the
upper bound of an expand-down segment, exec raises #SS where the segment is SS and #GP otherwise, with code
zero, none in real-address mode, whatever the condition. (General knowledge K21, log 24; the absence of a code
in real-address mode, log 12.) -/
def Obligations.SegmentLimitViolation : Prop :=
  ∀ (i : Instr) (s : State), Admitted i.size i.form s → i.form.modrm.mod ≠ 3#2 → s.mode ≠ .long64 →
    let m := memRef s i.form
    let g := s.seg m.seg
    let last := m.ea.toNat + opBytes i.size - 1
    DescriptorOk s m →
    (g.expandDown = false ∧ g.limit ≠ 0xFFFFFFFF#32 ∧ last > g.limit.toNat) ∨
      (g.expandDown = true ∧ (m.ea.toNat ≤ g.limit.toNat ∨ last > if g.big = true then 0xFFFFFFFF else 0xFFFF)) →
    exec i s = .fault (.exception (if m.seg = .ss then .ss else .gp) (if s.mode = .real then none else some 0#32) none s)

/-- In protected and compatibility mode, an admitted memory form through DS, ES, FS or GS holding a selector of
0000H to 0003H raises #GP(0), before any limit check and whatever the condition. -/
def Obligations.NullSelectorRaisesGeneralProtection : Prop :=
  ∀ (i : Instr) (s : State), Admitted i.size i.form s → i.form.modrm.mod ≠ 3#2 → s.mode = .prot ∨ s.mode = .compat →
    (memRef s i.form).seg ∈ [SegName.ds, .es, .fs, .gs] → (s.seg (memRef s i.form).seg).selector.toNat ≤ 3 →
    exec i s = .fault (.exception .gp (some 0#32) none s)

/-- In protected and compatibility mode, an admitted memory form through a segment whose record is not readable
raises #GP(0). (That only these modes make the check is the model's inference, log 14.) -/
def Obligations.UnreadableSegmentRaisesGeneralProtection : Prop :=
  ∀ (i : Instr) (s : State), Admitted i.size i.form s → i.form.modrm.mod ≠ 3#2 → s.mode = .prot ∨ s.mode = .compat →
    (s.seg (memRef s i.form).seg).readable = false →
    exec i s = .fault (.exception .gp (some 0#32) none s)

/-- In 64-bit mode, for an admitted memory form with a byte whose linear address (the effective address, plus the
base of FS or GS through those, plus the byte's number, modulo 2^64) is non-canonical: #SS(0) when the segment
is SS by default, #GP(0) when it is not and no ignored 36H override names SS, and one of the two, which is not
said, when SS comes only from such an override. (General knowledge K13 and the spec's choice U6, logs 9 and 24.) -/
def Obligations.NonCanonicalAddressRaises : Prop :=
  ∀ (i : Instr) (s : State) (lin : BitVec 64) (k : Nat), Admitted i.size i.form s → i.form.modrm.mod ≠ 3#2 →
    s.mode = .long64 → IsLinearAddress s (memRef s i.form) lin → k < opBytes i.size →
    NonCanonicalAddress s.linearBits (lin + BitVec.ofNat 64 k) →
    ((memRef s i.form).seg = .ss → exec i s = .fault (.exception .ss (some 0#32) none s)) ∧
    ((memRef s i.form).seg ≠ .ss → segOverrides i.form.prefixes ≠ [.ss] →
      exec i s = .fault (.exception .gp (some 0#32) none s)) ∧
    ((memRef s i.form).seg ≠ .ss → segOverrides i.form.prefixes = [.ss] →
      exec i s = .fault (.exception .ss (some 0#32) none s) ∨ exec i s = .fault (.exception .gp (some 0#32) none s))

/-- An admitted memory form faults with the address-wrap reason when, in 64-bit mode, none of its bytes is non-
canonical and they run past 2^64 from its linear address, and when, elsewhere, its selector and readability pass
and its bytes run past offset FFFFFFFFH of an expand-up segment of 4 GiB. (The spec's choice U7, log 15.)
Outside 64-bit mode an operand that the NULL, readability and limit checks let pass never faults so, though its
linear bytes pass 2^32: they are read modulo 2^32 (R53, R60). -/
def Obligations.AddressWrapFaults : Prop :=
  ∀ (i : Instr) (s : State), Admitted i.size i.form s → i.form.modrm.mod ≠ 3#2 →
    (∀ lin : BitVec 64, s.mode = .long64 → IsLinearAddress s (memRef s i.form) lin →
      (∀ k < opBytes i.size, ¬ NonCanonicalAddress s.linearBits (lin + BitVec.ofNat 64 k)) →
      2 ^ 64 < lin.toNat + opBytes i.size → exec i s = .fault .addressWrap) ∧
    (s.mode ≠ .long64 → DescriptorOk s (memRef s i.form) → (s.seg (memRef s i.form).seg).expandDown = false →
      (s.seg (memRef s i.form).seg).limit = 0xFFFFFFFF#32 →
      0xFFFFFFFF < (memRef s i.form).ea.toNat + opBytes i.size - 1 → exec i s = .fault .addressWrap) ∧
    (s.mode ≠ .long64 → LegacyAccessOk s (memRef s i.form) (opBytes i.size) → exec i s ≠ .fault .addressWrap)

/-- For an admitted memory form whose address is formed, with alignment checking enabled at privilege level 3, a
linear address that is no multiple of the operand size, and no page fault on the operand, exec raises #AC(0),
whatever the condition. (What is unaligned: general knowledge K20 and decision D12, logs 24 and 26.) -/
def Obligations.MisalignedOperandRaisesAlignmentCheck : Prop :=
  ∀ (i : Instr) (s : State) (lin : BitVec 64), Admitted i.size i.form s → i.form.modrm.mod ≠ 3#2 →
    formLinear s (memRef s i.form) (opBytes i.size) = .next lin → s.checksAlignment = true →
    lin.toNat % opBytes i.size ≠ 0 →
    (∀ k < opBytes i.size, ∃ p, translateAddress s (byteAddress s lin k) .read = .physical p) →
    exec i s = .fault (.exception .ac (some 0#32) none s)

/-- An address is its own physical address in real-address mode, and in every mode when no page covers it; elsewhere
the first page of the table that covers it (base at or below it, its size not reached, the kind of access and
the privilege level, 3 in virtual-8086 mode, the page's) gives the page's physical address plus the distance
from the page's base, or its fault code. For an admitted memory form whose address is formed and whose alignment
is no trouble, if a byte of the operand faults in Translate, exec raises #PF with the code and the linear
address of a faulting byte of the operand; if all its bytes lie in one page, that byte is the operand's first.
(The address reported: general knowledge K19, decision D3 and choice U2, logs 6, 7 and 24; the privilege level
in virtual-8086 mode, log 17.) -/
def Obligations.PageFaultIsReported : Prop :=
  (∀ (s : State) (a : BitVec 64) (acc : AccessKind),
    let covers := fun p : Page => p.base.toNat ≤ a.toNat ∧ a.toNat < p.base.toNat + p.size ∧ p.access = acc ∧
      p.cpl = (if s.mode = .v86 then 3#2 else s.cpl)
    (s.mode = .real → translateAddress s a acc = .physical a) ∧
    ((∀ p ∈ s.paging, ¬ covers p) → translateAddress s a acc = .physical a) ∧
    ∀ before p after, s.mode ≠ .real → s.paging = before ++ p :: after → (∀ q ∈ before, ¬ covers q) → covers p →
      (∀ b, p.result = .physical b → translateAddress s a acc = .physical (b + (a - p.base))) ∧
      ∀ c, p.result = .pageFault c → translateAddress s a acc = .pageFault c) ∧
  ∀ (i : Instr) (s : State) (lin : BitVec 64), Admitted i.size i.form s → i.form.modrm.mod ≠ 3#2 →
    formLinear s (memRef s i.form) (opBytes i.size) = .next lin → AlignmentOk s lin (opBytes i.size) →
    (∃ k < opBytes i.size, ∃ c, translateAddress s (byteAddress s lin k) .read = .pageFault c) →
    (∃ k < opBytes i.size, ∃ c, translateAddress s (byteAddress s lin k) .read = .pageFault c ∧
      exec i s = .fault (.exception .pf (some c) (some (byteAddress s lin k)) s)) ∧
    ((∀ k < opBytes i.size, s.pageOf (byteAddress s lin k) .read = s.pageOf (byteAddress s lin 0) .read) →
      ∃ c, translateAddress s (byteAddress s lin 0) .read = .pageFault c ∧
        exec i s = .fault (.exception .pf (some c) (some (byteAddress s lin 0)) s))

/-- For an admitted memory form whose address is formed, misaligned where that is checked, with a byte that faults
in Translate, exec raises either #AC(0) or #PF with the code and address of a faulting byte; which of them is
not said. (The spec's choice U1, log 8.) -/
def Obligations.AlignmentCheckOrPageFault : Prop :=
  ∀ (i : Instr) (s : State) (lin : BitVec 64), Admitted i.size i.form s → i.form.modrm.mod ≠ 3#2 →
    formLinear s (memRef s i.form) (opBytes i.size) = .next lin → s.checksAlignment = true →
    lin.toNat % opBytes i.size ≠ 0 →
    (∃ k < opBytes i.size, ∃ c, translateAddress s (byteAddress s lin k) .read = .pageFault c) →
    exec i s = .fault (.exception .ac (some 0#32) none s) ∨
      ∃ k < opBytes i.size, ∃ c, translateAddress s (byteAddress s lin k) .read = .pageFault c ∧
        exec i s = .fault (.exception .pf (some c) (some (byteAddress s lin k)) s)

/-- In a state that satisfies the invariant, the error code of a #PF that a CMOVcc raises has bit 1 (W/R) and bit 4
(I/D) zero, and bit 2 (U/S) set exactly when the privilege level in force is 3. (General knowledge K19, log 24.) -/
def Obligations.PageFaultCodeBits : Prop :=
  ∀ (i : Instr) (s t : State) (c : BitVec 32) (a : Option (BitVec 64)), s.Inv →
    exec i s = .fault (.exception .pf (some c) a t) →
    c.getLsbD 1 = false ∧ c.getLsbD 4 = false ∧ c.getLsbD 2 = decide (s.level = 3#2)

/-- If the quadword at a linear address reads v, the doubleword there reads bits 31:0 of v, the word there bits
15:0, and the word six bytes on bits 63:48. This holds where the linear address is a multiple of 8, so that each
read is one event, or no other agent writes to the operand's bytes. (General knowledge K17, log 24; the read
oracle, log 27.) -/
def Obligations.MixedWidthReads : Prop :=
  ∀ (s : State) (lin : BitVec 64) (v : QWord), memRead s lin 8 = .next v →
    (lin.toNat % 8 = 0 ∨ ∀ k < 8, ∀ p, translateAddress s (byteAddress s lin k) .read = .physical p →
      NotWrittenByOthers s p.toNat) →
    memRead s lin 4 = .next (0#32 ++ v.extractLsb' 0 32) ∧
    memRead s lin 2 = .next (0#48 ++ v.extractLsb' 0 16) ∧
    memRead s (byteAddress s lin 6) 2 = .next (0#48 ++ v.extractLsb' 48 16)

/-- For an admitted memory form whose address is formed, aligned where that is checked, whose bytes all translate
and none to device memory: if the physical address of some byte is not listed, exec faults with the unmapped
reason at a byte of the operand that is not listed. (The spec's choice U8, log 16.) -/
def Obligations.UnmappedByteIsStuck : Prop :=
  ∀ (i : Instr) (s : State) (lin : BitVec 64) (p : Nat → BitVec 64), Admitted i.size i.form s →
    i.form.modrm.mod ≠ 3#2 → formLinear s (memRef s i.form) (opBytes i.size) = .next lin →
    AlignmentOk s lin (opBytes i.size) →
    (∀ k < opBytes i.size, translateAddress s (byteAddress s lin k) .read = .physical (p k) ∧ s.isDevice (p k).toNat = false) →
    (∃ k < opBytes i.size, Memory.read s.mem (p k).toNat = none) →
    ∃ k < opBytes i.size, Memory.read s.mem (p k).toNat = none ∧ exec i s = .fault (.unmapped (p k).toNat)

/-- For an admitted memory form whose address is formed, aligned where that is checked, whose bytes all translate:
if a byte lies in a region declared as device memory, exec is refused by name at such a byte. (The spec's
decision D13, log 16.) -/
def Obligations.DeviceOperandIsRefused : Prop :=
  ∀ (i : Instr) (s : State) (lin : BitVec 64) (p : Nat → BitVec 64), Admitted i.size i.form s →
    i.form.modrm.mod ≠ 3#2 → formLinear s (memRef s i.form) (opBytes i.size) = .next lin →
    AlignmentOk s lin (opBytes i.size) →
    (∀ k < opBytes i.size, translateAddress s (byteAddress s lin k) .read = .physical (p k)) →
    (∃ k < opBytes i.size, s.isDevice (p k).toNat = true) →
    ∃ k < opBytes i.size, s.isDevice (p k).toNat = true ∧ exec i s = .refused (.deviceMemory (p k).toNat)

/-- If a MemWrite of n bytes (at most 8) completes on a map in canonical form, every byte outside the operand's
physical addresses reads as before and the canonical form is kept; and where reads and writes of the operand
translate alike, to addresses all different that no other agent writes to, MemRead gives the low n bytes of the
value. (MemWrite is defined for completeness; no instruction calls it.) -/
def Obligations.MemWriteThenMemRead : Prop :=
  ∀ (s s' : State) (lin : BitVec 64) (n : Nat) (v : QWord) (p : Nat → BitVec 64), n ≤ 8 → Memory.wf s.mem →
    memWrite s lin n v = .next s' →
    (∀ k < n, translateAddress s (byteAddress s lin k) .write = .physical (p k)) →
    Memory.wf s'.mem ∧ (∀ a, (∀ k < n, a ≠ (p k).toNat) → Memory.read s'.mem a = Memory.read s.mem a) ∧
    ((∀ k < n, translateAddress s (byteAddress s lin k) .read = .physical (p k)) → (∀ j < n, ∀ k < n, p j = p k → j = k) →
      (∀ k < n, NotWrittenByOthers s (p k).toNat) →
      memRead s' lin n = .next (BitVec.ofNat 64 (v.toNat % 2 ^ (8 * n))))

/-- An admitted instruction with mod = 3 whose source and destination are one register completes; at 16 and 64 bits,
and at 32 bits outside IA-32e mode, only the program counter changes; at 32 bits in IA-32e mode the register's
bits 63:32 are cleared; in each case whatever the condition. -/
def Obligations.SameRegisterForms : Prop :=
  ∀ (i : Instr) (s : State), Admitted i.size i.form s → i.form.modrm.mod = 3#2 → srcNum i.form = destNum i.form →
    exec i s = .next
      ((if i.size = .w32 ∧ s.ia32eActive = true then
          s.setReg (destNum i.form) (0#32 ++ (s.reg (destNum i.form)).extractLsb' 0 32)
        else s).setPc (s.pcAfter i.form.length))

/-- With address size 16 the effective address and the default segment are those of R97's table for each r/m and
mod, the sum taken modulo 2^16 and zero-extended. (The spec's general-knowledge passage K14, log 24.) -/
def Obligations.SixteenBitAddresses : Prop :=
  ∀ (s : State) (f : Form), addressSize s.ctx f.prefixes = .a16 → f.modrm.mod ≠ 3#2 →
    let bx := (s.reg 3#4).setWidth 16; let bp := (s.reg 5#4).setWidth 16
    let si := (s.reg 6#4).setWidth 16; let di := (s.reg 7#4).setWidth 16
    let d := displacement 16 f.disp
    let is := fun (a : BitVec 16) (g : SegName) => effectiveAddress s f = a.setWidth 64 ∧ defaultSegment s f = g
    (f.modrm.rm = 0#3 → is (bx + si + d) .ds) ∧ (f.modrm.rm = 1#3 → is (bx + di + d) .ds) ∧
    (f.modrm.rm = 2#3 → is (bp + si + d) .ss) ∧ (f.modrm.rm = 3#3 → is (bp + di + d) .ss) ∧
    (f.modrm.rm = 4#3 → is (si + d) .ds) ∧ (f.modrm.rm = 5#3 → is (di + d) .ds) ∧
    (f.modrm.rm = 6#3 → f.modrm.mod = 0#2 → is d .ds) ∧ (f.modrm.rm = 6#3 → f.modrm.mod ≠ 0#2 → is (bp + d) .ss) ∧
    (f.modrm.rm = 7#3 → is (bx + d) .ds)

/-- With address size 32 or 64 and no SIB byte: mod 0 with r/m 5 is the displacement alone outside 64-bit mode,
segment DS; every other form is the base register plus the sign-extended displacement modulo the address size,
with default segment SS exactly when the full 4-bit base number is 4 or 5, else DS. (General knowledge K14 and
the spec's decision D15, logs 24 and 26.) -/
def Obligations.PlainAddresses : Prop :=
  ∀ (s : State) (f : Form) (w : Nat), addressSize s.ctx f.prefixes ≠ .a16 →
    w = addressBits (addressSize s.ctx f.prefixes) → f.sib = none → f.modrm.mod ≠ 3#2 →
    (f.modrm.mod = 0#2 → f.modrm.rm = 5#3 → s.mode ≠ .long64 →
      effectiveAddress s f = (displacement w f.disp).setWidth 64 ∧ defaultSegment s f = .ds) ∧
    (¬ (f.modrm.mod = 0#2 ∧ f.modrm.rm = 5#3) →
      effectiveAddress s f = ((s.reg (srcNum f)).setWidth w + displacement w f.disp).setWidth 64 ∧
      (srcNum f = 4#4 ∨ srcNum f = 5#4 → defaultSegment s f = .ss) ∧
      (srcNum f ≠ 4#4 → srcNum f ≠ 5#4 → defaultSegment s f = .ds))

/-- In 64-bit mode with mod 0, r/m 5 and no SIB byte the effective address is the program counter plus the
instruction's length plus the sign-extended displacement, modulo 2^64, cut to 32 bits and zero-extended with a
67H prefix; the default segment is DS. (General knowledge K14, PRESUMED, log 24.) -/
def Obligations.RipRelativeAddress : Prop :=
  ∀ (s : State) (f : Form) (d : BitVec 32), s.mode = .long64 → f.modrm.mod = 0#2 → f.modrm.rm = 5#3 → f.sib = none →
    f.disp = .disp32 d →
    defaultSegment s f = .ds ∧
    (Prefix.addrSize ∉ f.prefixes →
      effectiveAddress s f = s.pc + BitVec.ofNat 64 f.length + d.signExtend 64) ∧
    (Prefix.addrSize ∈ f.prefixes →
      effectiveAddress s f = 0#32 ++ (s.pc + BitVec.ofNat 64 f.length + d.signExtend 64).extractLsb' 0 32)

/-- With address size 32 or 64 and a SIB byte the effective address is the base term plus the scaled index plus the
displacement, modulo the address size: no base with SIB.base 5 and mod 0, no index with index number 4 (REX.X
included, so R12 is an index), the default segment SS exactly when the base register is used and its 4-bit
number is 4 or 5, else DS. (General knowledge K14 and the spec's decision D15, logs 24 and 26.) -/
def Obligations.SibAddresses : Prop :=
  ∀ (s : State) (f : Form) (b : Sib) (w : Nat), addressSize s.ctx f.prefixes ≠ .a16 →
    w = addressBits (addressSize s.ctx f.prefixes) → f.sib = some b → f.modrm.mod ≠ 3#2 →
    let noBase := b.base = 5#3 ∧ f.modrm.mod = 0#2
    let baseTerm : BitVec w := if noBase then 0#w else (s.reg (baseNum f b)).setWidth w
    let indexTerm : BitVec w :=
      if indexNum f b = 4#4 then 0#w else (s.reg (indexNum f b)).setWidth w <<< b.scale.toNat
    effectiveAddress s f = (baseTerm + indexTerm + displacement w f.disp).setWidth 64 ∧
      (¬ noBase → baseNum f b = 4#4 ∨ baseNum f b = 5#4 → defaultSegment s f = .ss) ∧
      (noBase ∨ (baseNum f b ≠ 4#4 ∧ baseNum f b ≠ 5#4) → defaultSegment s f = .ds)

/-- Without a segment override the segment is the default one; with exactly one, outside 64-bit mode it is the one
named; in 64-bit mode FS and GS are the one named and CS, SS, DS, ES leave the default. (General knowledge K14
and K22, log 24.) -/
def Obligations.SegmentSelection : Prop :=
  ∀ (s : State) (f : Form) (g : SegName),
    (segOverrides f.prefixes = [] → operandSegment s f = defaultSegment s f) ∧
    (segOverrides f.prefixes = [g] → s.mode ≠ .long64 → operandSegment s f = g) ∧
    (segOverrides f.prefixes = [g] → s.mode = .long64 → g = .fs ∨ g = .gs → operandSegment s f = g) ∧
    (segOverrides f.prefixes = [g] → s.mode = .long64 → g = .cs ∨ g = .ss ∨ g = .ds ∨ g = .es →
      operandSegment s f = defaultSegment s f)

/-- The machine right after reset satisfies the invariant: program counter within its width, flags word as R27
reads, TF clear, mode, privilege level and code size consistent, the segment registers as real-address mode has
them (CS, whose base is not its selector's, as reset leaves it, log 28), the paging table as the invariant asks,
memory map and program text in canonical form. (The reset values are the model's choices, logs 1 and 2.) -/
def Obligations.ResetSatisfiesTheInvariant : Prop :=
  State.reset.Inv

/-- From every state that satisfies the invariant, a step that answers a next state answers one that satisfies it:
the program counter stays within the width of the mode's instruction pointer, the flags word keeps its reserved
bits and a clear TF and agrees with the mode, privilege level and code size stay those of the mode, CS and SS
hold no NULL selector in protected and compatibility mode, each segment register has base selector*16 and limit
FFFFH in real-address and virtual-8086 mode (R30; log 28), the error codes of the paging table stay as R62 has
them, the memory map and the program text keep their canonical form. -/
def Obligations.StepKeepsTheInvariant : Prop :=
  ∀ s s' : State, s.Inv → step s = .next s' → s'.Inv

/-- Along every run of any number of steps from any state, as long as it goes on: the flags word, the segment
registers, mode, code size, privilege level, the other parameters, every byte of memory and the program text
stay as they were, and in IA-32e and legacy modes alike only the sixteen registers and the program counter may
differ, and the read oracle, of which the events read are over (log 27). (That Translate, a parameter, answers
alike for every instruction of a run is the model's DESIGN CHOICE, log 6: R62 says so within one instruction
only.) -/
def Obligations.RunsKeepFlagsMemoryAndParameters : Prop :=
  ∀ (k : Nat) (s s' : State), Sys2Proof.core.run k s = .next s' →
    s' = { s with regs := s'.regs, pc := s'.pc, readOracle := s'.readOracle } ∧
      (∃ n, s'.readOracle = s.readOracle.drop n) ∧ s'.rflags = s.rflags ∧ s'.segs = s.segs ∧ s'.mode = s.mode ∧
      s'.cpl = s.cpl ∧ (∀ a, Memory.read s'.mem a = Memory.read s.mem a)

/-- Outside 64-bit mode, for two states that differ at most in bits 63:32 of the general-purpose registers, an
instruction and a step have one outcome: they complete in two states that again differ at most there, or raise
the same exception with the same code and address, or fault for the same other reason, or are refused for the
same reason. -/
def Obligations.UpperHalvesAreNeverReadOutsideLongMode : Prop :=
  ∀ (s t : State), s.mode ≠ .long64 → SameBelowUpperHalves s t →
    (∀ i : Instr, SameOutcome SameBelowUpperHalves s t (exec i s) (exec i t)) ∧
      SameOutcome SameBelowUpperHalves s t (step s) (step t)

/-- After reset: real-address mode, privilege level 0, alignment checking off, EFLAGS 00000002H so that the five
status flags are zero, the program counter 0000FFF0H with CS F000H, base FFFF0000H, limit FFFFH, so that the
first fetch is at FFFFFFF0H, the other segments 0000H, base 0, limit FFFFH, the registers zero, nothing in
memory. The source states none of these: they are the model's choices (logs 1, 2), the spec's K24 for
orientation. -/
def Obligations.ResetValues : Prop :=
  State.reset.mode = .real ∧ State.reset.cpl = 0#2 ∧ State.reset.acEnabled = false ∧
    State.reset.rflags = 0x00000002#64 ∧ State.reset.flags = ⟨false, false, false, false, false⟩ ∧
    State.reset.pc = 0xFFF0#64 ∧ State.reset.segs.cs.selector = 0xF000#16 ∧
    State.reset.segs.cs.base = 0xFFFF0000#64 ∧ State.reset.fetchAddress = 0xFFFFFFF0 ∧
    (∀ g : SegName, (State.reset.seg g).limit = 0xFFFF#32 ∧
      (g ≠ .cs → (State.reset.seg g).selector = 0#16 ∧ (State.reset.seg g).base = 0#64)) ∧
    (∀ r : Reg, State.reset.reg r = 0#64) ∧ State.reset.mem = []

/-- When the last prefix is a REX byte, the number of operand 1 is 8 times REX.R plus ModRM.reg, that of operand 2
(or of the base without SIB) 8 times REX.B plus ModRM.r/m, that of the SIB base 8 times REX.B plus SIB.base,
that of the index 8 times REX.X plus SIB.index; without one the fields alone. And from the bytes: in 64-bit mode
0100WRXB, 0F, 4c and a ModR/M byte with mod = 3 decode to the instruction of condition c, of size 64 with W and
32 without, with these register numbers; the same bytes with mod = 1, r/m = 4, a SIB byte and a displacement
byte to the one with these base and index numbers. (General knowledge K4 and K7, PRESUMED, log 24.) -/
def Obligations.RegisterNumbers : Prop :=
  (∀ (f : Form) (b : Sib),
    (∀ r : Rex, f.prefixes.getLast? = some (.rex r) →
      (destNum f).toNat = 8 * r.r.toNat + f.modrm.reg.toNat ∧ (srcNum f).toNat = 8 * r.b.toNat + f.modrm.rm.toNat ∧
      (baseNum f b).toNat = 8 * r.b.toNat + b.base.toNat ∧ (indexNum f b).toNat = 8 * r.x.toNat + b.index.toNat) ∧
    ((∀ r : Rex, f.prefixes.getLast? ≠ some (.rex r)) →
      (destNum f).toNat = f.modrm.reg.toNat ∧ (srcNum f).toNat = f.modrm.rm.toNat ∧
      (baseNum f b).toNat = b.base.toNat ∧ (indexNum f b).toNat = b.index.toNat)) ∧
  ∀ (d : CodeSize) (W R X B : Bool) (c : BitVec 4) (reg rm index base : BitVec 3) (scale : BitVec 2) (disp : Byte)
    (rest : List Byte),
    let rex : Byte := 4#4 ++ BitVec.ofBool W ++ BitVec.ofBool R ++ BitVec.ofBool X ++ BitVec.ofBool B
    let opcode : List Byte := [rex, 0x0F#8, 4#4 ++ c]
    (∃ i : Instr, decode ⟨.long64, d⟩ (opcode ++ (3#2 ++ reg ++ rm : BitVec 8) :: rest) = .instr i rest ∧
      i.cond = Cond.ofNum c ∧ i.size = (if W then .w64 else .w32) ∧ (destNum i.form).toNat = 8 * R.toNat + reg.toNat ∧
      (srcNum i.form).toNat = 8 * B.toNat + rm.toNat) ∧
    ∃ (i : Instr) (b : Sib),
      decode ⟨.long64, d⟩
        (opcode ++ (1#2 ++ reg ++ 4#3 : BitVec 8) :: (scale ++ index ++ base : BitVec 8) :: disp :: rest) = .instr i rest ∧
      i.form.sib = some b ∧ (destNum i.form).toNat = 8 * R.toNat + reg.toNat ∧
      (baseNum i.form b).toNat = 8 * B.toNat + base.toNat ∧ (indexNum i.form b).toNat = 8 * X.toNat + index.toNat

/-- Byte k of a value that MemRead answers is the one that the read event to come (the first for an aligned operand,
the k-th for an unaligned one) has put at its physical address, and the memory map's where the event has put
none. Two reads of one operand, with any number of steps between, agree where no event puts a byte at its
addresses. And nothing else is promised: for every value of the operand's width there is an oracle under which
the read answers that value, its bytes lying at addresses all different. (The oracle as a list in State is the
model's, log 27; that the operand translates alike for both reads is its DESIGN CHOICE of one paging table for a
run, log 6.) -/
def Obligations.ReadOracle : Prop :=
  (∀ (s : State) (lin : BitVec 64) (n : Nat) (v : QWord), n ≤ 8 → memRead s lin n = .next v →
    ∀ k < n, ∃ (p : BitVec 64) (own : Byte), translateAddress s (byteAddress s lin k) .read = .physical p ∧
      Memory.read s.mem p.toNat = some own ∧
      byteOf v k = match s.readOracle[if lin.toNat % n = 0 then 0 else k]? with
        | none => own
        | some written => (Memory.read written p.toNat).getD own) ∧
  (∀ (steps : Nat) (s s' : State) (lin : BitVec 64) (n : Nat) (v : QWord), n ≤ 8 →
    Sys2Proof.core.run steps s = .next s' → memRead s lin n = .next v →
    (∀ k < n, ∀ p, translateAddress s (byteAddress s lin k) .read = .physical p → NotWrittenByOthers s p.toNat) →
    memRead s' lin n = .next v) ∧
  ∀ (s : State) (lin : BitVec 64) (n : Nat) (v u : QWord), n ≤ 8 → memRead s lin n = .next v → u.toNat < 2 ^ (8 * n) →
    (∀ j < n, ∀ k < n, translateAddress s (byteAddress s lin j) .read = translateAddress s (byteAddress s lin k) .read →
      j = k) →
    ∃ oracle : List (List Host.Cell), memRead { s with readOracle := oracle } lin n = .next u
end

