-- ==== Sys2Proof/Laws/Decode.lean ====
section
/-! SUPPORT. The bytes of each part of an encoding read back as the part, and the other way round (30_encoding.md R81 to
R87, R105); the length of an encoding (R107). -/

namespace Sys2Proof

/-! ### Parts to bytes and back -/

@[simp] theorem Cond.ofNum_num (c : Cond) : Cond.ofNum c.num = c := by
  cases c <;> rfl

@[simp] theorem Cond.num_ofNum (v : BitVec 4) : (Cond.ofNum v).num = v := by
  revert v
  decide

@[simp] theorem Rex.ofByte_byte (r : Rex) : Rex.ofByte r.byte = r := by
  obtain ⟨w, r, x, b⟩ := r
  cases w <;> cases r <;> cases x <;> cases b <;> rfl

theorem Rex.byte_ofByte (b : Byte) (h : highNibbleIs4 b = true) : (Rex.ofByte b).byte = b := by
  revert b
  decide

/-- The byte of a prefix that may stand in a context reads back as the prefix (R81, R82). -/
theorem Prefix.ofByte_byte (ctx : Ctx) (p : Prefix) (h : ctx.mode = .long64 ∨ p.isRex = false) :
    Prefix.ofByte ctx p.byte = some p := by
  cases p with
  | seg s => cases s <;> rfl
  | rex r =>
    have hl : ctx.mode = .long64 := h.resolve_right (by simp [Prefix.isRex])
    obtain ⟨w, r, x, b⟩ := r
    cases w <;> cases r <;> cases x <;> cases b <;>
      simp [Prefix.ofByte, Prefix.byte, Rex.byte, Rex.ofByte, highNibbleIs4, hl]
  | _ => rfl

/-- A byte that reads as a prefix is the byte of that prefix, and the prefix may stand in the context. -/
theorem Prefix.byte_of_ofByte {ctx : Ctx} {b : Byte} {p : Prefix} (h : Prefix.ofByte ctx b = some p) :
    p.byte = b ∧ (ctx.mode = .long64 ∨ p.isRex = false) := by
  have key : ∀ n : Nat, b.toNat = n → b = BitVec.ofNat 8 n := fun n hn => by simp [← hn]
  simp only [Prefix.ofByte] at h
  split at h
  case h_12 =>
    split at h
    · rename_i hc
      simp only [Option.some.injEq] at h
      subst h
      exact ⟨Rex.byte_ofByte b hc.2, .inl hc.1⟩
    · cases h
  all_goals
    rename_i hn
    simp only [Option.some.injEq] at h
    subst h
    exact ⟨(key _ hn).symm, .inr rfl⟩

/-- Neither opcode byte `0F` nor a byte it is the first of reads as a prefix (R107). -/
theorem Prefix.ofByte_0F (ctx : Ctx) : Prefix.ofByte ctx 0x0F#8 = none := by
  simp [Prefix.ofByte, highNibbleIs4]

@[simp] theorem ModRM.ofByte_byte (m : ModRM) : ModRM.ofByte m.byte = m := by
  obtain ⟨a, b, c⟩ := m
  revert a b c
  decide

@[simp] theorem ModRM.byte_ofByte (b : Byte) : (ModRM.ofByte b).byte = b := by
  revert b
  decide

@[simp] theorem Sib.ofByte_byte (m : Sib) : Sib.ofByte m.byte = m := by
  obtain ⟨a, b, c⟩ := m
  revert a b c
  decide

@[simp] theorem Sib.byte_ofByte (b : Byte) : (Sib.ofByte b).byte = b := by
  revert b
  decide

/-- The bytes of a displacement, followed by others, read back as the displacement (R105). -/
@[simp] theorem takeDisp_bytes (d : Disp) (rest : List Byte) : takeDisp d.kind (d.bytes ++ rest) = some (d, rest) := by
  cases d with
  | none => rfl
  | disp8 d => rfl
  | disp16 d =>
    simp only [Disp.kind, Disp.bytes, List.cons_append, List.nil_append, takeDisp, Option.some.injEq, Prod.mk.injEq,
      Disp.disp16.injEq, and_true]
    ext i hi
    simp
    grind
  | disp32 d =>
    simp only [Disp.kind, Disp.bytes, List.cons_append, List.nil_append, takeDisp, Option.some.injEq, Prod.mk.injEq,
      Disp.disp32.injEq, and_true]
    ext i hi
    simp
    grind

/-- A displacement read from bytes is of the kind asked for, and its bytes are those (R105). -/
theorem takeDisp_eq_some {k : DispKind} {bs rest : List Byte} {d : Disp} (h : takeDisp k bs = some (d, rest)) :
    d.kind = k ∧ d.bytes ++ rest = bs := by
  unfold takeDisp at h
  split at h <;> simp only [Option.some.injEq, Prod.mk.injEq, reduceCtorEq] at h
  · obtain ⟨rfl, rfl⟩ := h; exact ⟨rfl, rfl⟩
  · obtain ⟨rfl, rfl⟩ := h; exact ⟨rfl, rfl⟩
  · rename_i d0 d1 bs
    obtain ⟨rfl, rfl⟩ := h
    refine ⟨rfl, ?_⟩
    have h0 : (d1 ++ d0).extractLsb' 0 8 = d0 := by ext i hi; simp; grind
    have h1 : (d1 ++ d0).extractLsb' 8 8 = d1 := by ext i hi; simp; grind
    simp only [Disp.bytes, h0, h1, List.cons_append, List.nil_append]
  · rename_i d0 d1 d2 d3 bs
    obtain ⟨rfl, rfl⟩ := h
    refine ⟨rfl, ?_⟩
    have h0 : (d3 ++ d2 ++ d1 ++ d0).extractLsb' 0 8 = d0 := by ext i hi; simp; grind
    have h1 : (d3 ++ d2 ++ d1 ++ d0).extractLsb' 8 8 = d1 := by ext i hi; simp; grind
    have h2 : (d3 ++ d2 ++ d1 ++ d0).extractLsb' 16 8 = d2 := by ext i hi; simp; grind
    have h3 : (d3 ++ d2 ++ d1 ++ d0).extractLsb' 24 8 = d3 := by ext i hi; simp; grind
    simp only [Disp.bytes, h0, h1, h2, h3, List.cons_append, List.nil_append]

/-! ### Parts of an instruction -/

@[simp] theorem Instr.ofParts_cond (c : Cond) (n : OpSize) (f : Form) : (Instr.ofParts c n f).cond = c := by
  cases c <;> cases n <;> rfl

@[simp] theorem Instr.ofParts_size (c : Cond) (n : OpSize) (f : Form) : (Instr.ofParts c n f).size = n := by
  cases c <;> cases n <;> rfl

@[simp] theorem Instr.ofParts_form (c : Cond) (n : OpSize) (f : Form) : (Instr.ofParts c n f).form = f := by
  cases c <;> cases n <;> rfl

@[simp] theorem opcodeByte_low (c : Cond) : (opcodeByte c).extractLsb' 0 4 = c.num := by
  cases c <;> rfl

@[simp] theorem opcodeByte_high (c : Cond) : highNibbleIs4 (opcodeByte c) = true := by
  cases c <;> rfl

theorem opcodeByte_ofNum (b : Byte) (h : highNibbleIs4 b = true) : opcodeByte (Cond.ofNum (b.extractLsb' 0 4)) = b := by
  revert b
  decide

/-! ### Length (R107) -/

@[simp] theorem Disp.length_bytes (d : Disp) : d.bytes.length = d.size := by
  cases d <;> rfl

theorem sibBytes_length (s : Option Sib) : (sibBytes s).length = if s.isSome then 1 else 0 := by
  cases s <;> rfl

/-- An encoding is as long as R107 says. -/
theorem encode_length (i : Instr) : (encode i).length = i.form.length := by
  simp only [encode, Form.length, List.length_append, List.length_map, List.length_cons, sibBytes_length,
    Disp.length_bytes]
  omega

end Sys2Proof
end

