-- ==== Sys2Proof/Laws/Memory.lean ====
section
/-! SUPPORT. The memory map: read after write, and every memory operation keeps the canonical form. -/

namespace Sys2Proof.Machine

open Sys2Proof

/-- A byte read after a byte is written: the byte at its address, every other address as before. -/
theorem Memory.read_write (m : List Host.Cell) (x y : Nat) (v : Byte) (h : m.Pairwise (fun a b => a.1 < b.1)) :
    Memory.read (Memory.write m x v) y = if y = x then some v else Memory.read m y := by
  induction m with
  | nil => simp [Memory.write, Memory.read, eq_comm]
  | cons c m ih =>
    obtain ⟨a, b⟩ := c
    have hm := (List.pairwise_cons.mp h).2
    simp only [Memory.write]
    split
    · simp [Memory.read, eq_comm]
    · split
      · rename_i hxa
        subst hxa
        by_cases hy : y = x
        · simp [Memory.read, hy]
        · simp [Memory.read, hy, Ne.symm hy]
      · rename_i hxa
        simp only [Memory.read, ih hm]
        by_cases hy : a = y
        · subst hy
          simp [Ne.symm hxa]
        · simp [hy]

theorem Memory.mem_write {m : List Host.Cell} {x : Nat} {v : Byte} {c : Host.Cell}
    (h : c ∈ Memory.write m x v) : c = (x, v) ∨ c ∈ m := by
  induction m with
  | nil => simpa [Memory.write] using h
  | cons d m ih =>
    obtain ⟨a, b⟩ := d
    simp only [Memory.write] at h
    split at h
    · simpa using h
    · split at h
      · rcases List.mem_cons.mp h with h | h
        · exact .inl h
        · exact .inr (List.mem_cons_of_mem _ h)
      · rcases List.mem_cons.mp h with h | h
        · exact .inr (by simp [h])
        · exact (ih h).imp_right (List.mem_cons_of_mem _)

theorem Memory.pairwise_write {m : List Host.Cell} (x : Nat) (v : Byte)
    (h : m.Pairwise (fun a b => a.1 < b.1)) : (Memory.write m x v).Pairwise (fun a b => a.1 < b.1) := by
  induction m with
  | nil => simp [Memory.write]
  | cons d m ih =>
    obtain ⟨a, b⟩ := d
    obtain ⟨hd, hm⟩ := List.pairwise_cons.mp h
    simp only [Memory.write]
    split
    · rename_i hlt
      refine List.pairwise_cons.mpr ⟨fun c hc => ?_, h⟩
      rcases List.mem_cons.mp hc with rfl | hc
      · exact hlt
      · exact lt_trans hlt (hd c hc)
    · split
      · rename_i heq
        exact List.pairwise_cons.mpr ⟨fun c hc => by have := hd c hc; simp_all, hm⟩
      · refine List.pairwise_cons.mpr ⟨fun c hc => ?_, ih hm⟩
        rcases Memory.mem_write hc with rfl | hc
        · simp only; omega
        · exact hd c hc

/-- A write at an address below 2^64 keeps the canonical form. -/
theorem Memory.wf_write {m : List Host.Cell} {x : Nat} (v : Byte) (h : Memory.wf m) (hx : x < 2 ^ 64) :
    Memory.wf (Memory.write m x v) := by
  refine ⟨Memory.pairwise_write x v h.1, fun c hc => ?_⟩
  rcases Memory.mem_write hc with rfl | hc
  · exact hx
  · exact h.2 c hc

/-- Loading bytes below 2^64 keeps the canonical form. -/
theorem Memory.wf_writeFrom {m : List Host.Cell} {x : Nat} (bs : List Byte) (h : Memory.wf m)
    (hx : x + bs.length ≤ 2 ^ 64) : Memory.wf (Memory.writeFrom m x bs) := by
  induction bs generalizing m x with
  | nil => exact h
  | cons b bs ih =>
    simp only [List.length_cons] at hx
    exact ih (Memory.wf_write b h (by omega)) (by omega)

/-- The bytes loaded from an address on are read there, every other address reads as before. -/
theorem Memory.read_writeFrom {m : List Host.Cell} {x : Nat} (bs : List Byte) (y : Nat)
    (h : m.Pairwise (fun a b => a.1 < b.1)) :
    Memory.read (Memory.writeFrom m x bs) y =
      if x ≤ y ∧ y < x + bs.length then bs[y - x]? else Memory.read m y := by
  induction bs generalizing m x with
  | nil =>
    have : ¬ (x ≤ y ∧ y < x + ([] : List Byte).length) := by simp
    rw [Memory.writeFrom, if_neg this]
  | cons b bs ih =>
    rw [Memory.writeFrom, ih (Memory.pairwise_write x b h), Memory.read_write m x y b h]
    simp only [List.length_cons]
    by_cases hy : y = x
    · subst hy
      simp
    · by_cases h1 : x + 1 ≤ y ∧ y < x + 1 + bs.length
      · have h2 : x ≤ y ∧ y < x + (bs.length + 1) := by omega
        rw [if_pos h1, if_pos h2, show y - x = (y - (x + 1)) + 1 by omega, List.getElem?_cons_succ]
      · have h2 : ¬ (x ≤ y ∧ y < x + (bs.length + 1)) := by omega
        rw [if_neg h1, if_neg h2, if_neg hy]

/-- What a successful store into the map does: every address stored to was listed, the canonical form is kept, and every
address not stored to reads as before. -/
theorem writeBytes_next {m m' : List Host.Cell} {v : QWord} {ps : List Nat} {k : Nat}
    (h : writeBytes m v ps k = .next m') (hm : Memory.wf m) :
    Memory.wf m' ∧ ∀ a, a ∉ ps → Memory.read m' a = Memory.read m a := by
  induction ps generalizing m k with
  | nil =>
    simp only [writeBytes, Host.Outcome.next.injEq] at h
    subst h
    exact ⟨hm, fun _ _ => rfl⟩
  | cons p ps ih =>
    simp only [writeBytes] at h
    split at h
    · cases h
    · rename_i b hb
      have hp : p < 2 ^ 64 := by
        have : ∃ c ∈ m, c.1 = p := by
          clear ih h hm
          induction m with
          | nil => simp [Memory.read] at hb
          | cons d m ih =>
            obtain ⟨a, e⟩ := d
            simp only [Memory.read] at hb
            split at hb
            · exact ⟨(a, e), by simp, by simpa⟩
            · obtain ⟨c, hc, hcp⟩ := ih hb
              exact ⟨c, List.mem_cons_of_mem _ hc, hcp⟩
        obtain ⟨c, hc, rfl⟩ := this
        exact hm.2 c hc
      obtain ⟨h1, h2⟩ := ih h (Memory.wf_write _ hm hp)
      refine ⟨h1, fun a ha => ?_⟩
      rw [h2 a (fun h => ha (List.mem_cons_of_mem _ h)), Memory.read_write _ _ _ _ hm.1, if_neg]
      rintro rfl
      exact ha (by simp)

/-- What MemWrite does when it completes (R54): it changes the map alone, keeps its canonical form, and leaves every byte
outside the operand's physical addresses. -/
theorem memWrite_next {s s' : State} {lin : BitVec 64} {n : Nat} {v : QWord}
    (h : memWrite s lin n v = .next s') (hm : Memory.wf s.mem) :
    s' = { s with mem := s'.mem } ∧ Memory.wf s'.mem ∧
      ∀ a, a ∉ physicalAddresses s .write lin n → Memory.read s'.mem a = Memory.read s.mem a := by
  simp only [memWrite] at h
  split at h
  · simp only [reportPageFault, raisePF, raise] at h
    split at h
    · cases h
    · split at h <;> cases h
  · split at h
    · cases h
    · revert h
      cases hw : writeBytes s.mem v (physicalAddresses s .write lin n) 0 with
      | next m =>
        intro h
        simp only [andThen, Host.Outcome.next.injEq] at h
        subst h
        exact ⟨rfl, writeBytes_next hw hm⟩
      | fault x => intro h; cases h
      | refused x => intro h; cases h

end Sys2Proof.Machine
end

