-- ==== Sys2Proof/Laws/State.lean ====
section
/-! SUPPORT. One lemma per field per update of State, true by rfl, and what the derived views of State read. -/

namespace Sys2Proof.Machine

open Sys2Proof

@[simp] theorem State.setReg_pc (s : State) (r : Reg) (v : QWord) : (s.setReg r v).pc = s.pc := rfl
@[simp] theorem State.setReg_rflags (s : State) (r : Reg) (v : QWord) : (s.setReg r v).rflags = s.rflags := rfl
@[simp] theorem State.setReg_segs (s : State) (r : Reg) (v : QWord) : (s.setReg r v).segs = s.segs := rfl
@[simp] theorem State.setReg_mode (s : State) (r : Reg) (v : QWord) : (s.setReg r v).mode = s.mode := rfl
@[simp] theorem State.setReg_csD (s : State) (r : Reg) (v : QWord) : (s.setReg r v).csD = s.csD := rfl
@[simp] theorem State.setReg_cpl (s : State) (r : Reg) (v : QWord) : (s.setReg r v).cpl = s.cpl := rfl
@[simp] theorem State.setReg_acEnabled (s : State) (r : Reg) (v : QWord) : (s.setReg r v).acEnabled = s.acEnabled := rfl
@[simp] theorem State.setReg_cmovSupported (s : State) (r : Reg) (v : QWord) : (s.setReg r v).cmovSupported = s.cmovSupported := rfl
@[simp] theorem State.setReg_linearBits (s : State) (r : Reg) (v : QWord) : (s.setReg r v).linearBits = s.linearBits := rfl
@[simp] theorem State.setReg_paging (s : State) (r : Reg) (v : QWord) : (s.setReg r v).paging = s.paging := rfl
@[simp] theorem State.setReg_mem (s : State) (r : Reg) (v : QWord) : (s.setReg r v).mem = s.mem := rfl
@[simp] theorem State.setReg_readOracle (s : State) (r : Reg) (v : QWord) : (s.setReg r v).readOracle = s.readOracle := rfl
@[simp] theorem State.setReg_devices (s : State) (r : Reg) (v : QWord) : (s.setReg r v).devices = s.devices := rfl
@[simp] theorem State.setReg_code (s : State) (r : Reg) (v : QWord) : (s.setReg r v).code = s.code := rfl
@[simp] theorem State.setReg_choice (s : State) (r : Reg) (v : QWord) : (s.setReg r v).choice = s.choice := rfl
@[simp] theorem State.setPc_regs (s : State) (v : QWord) : (s.setPc v).regs = s.regs := rfl
@[simp] theorem State.setPc_rflags (s : State) (v : QWord) : (s.setPc v).rflags = s.rflags := rfl
@[simp] theorem State.setPc_segs (s : State) (v : QWord) : (s.setPc v).segs = s.segs := rfl
@[simp] theorem State.setPc_mode (s : State) (v : QWord) : (s.setPc v).mode = s.mode := rfl
@[simp] theorem State.setPc_csD (s : State) (v : QWord) : (s.setPc v).csD = s.csD := rfl
@[simp] theorem State.setPc_cpl (s : State) (v : QWord) : (s.setPc v).cpl = s.cpl := rfl
@[simp] theorem State.setPc_acEnabled (s : State) (v : QWord) : (s.setPc v).acEnabled = s.acEnabled := rfl
@[simp] theorem State.setPc_cmovSupported (s : State) (v : QWord) : (s.setPc v).cmovSupported = s.cmovSupported := rfl
@[simp] theorem State.setPc_linearBits (s : State) (v : QWord) : (s.setPc v).linearBits = s.linearBits := rfl
@[simp] theorem State.setPc_paging (s : State) (v : QWord) : (s.setPc v).paging = s.paging := rfl
@[simp] theorem State.setPc_mem (s : State) (v : QWord) : (s.setPc v).mem = s.mem := rfl
@[simp] theorem State.setPc_readOracle (s : State) (v : QWord) : (s.setPc v).readOracle = s.readOracle := rfl
@[simp] theorem State.setPc_devices (s : State) (v : QWord) : (s.setPc v).devices = s.devices := rfl
@[simp] theorem State.setPc_code (s : State) (v : QWord) : (s.setPc v).code = s.code := rfl
@[simp] theorem State.setPc_choice (s : State) (v : QWord) : (s.setPc v).choice = s.choice := rfl
@[simp] theorem State.setPc_pc (s : State) (v : QWord) : (s.setPc v).pc = v := rfl
@[simp] theorem State.advance_regs (s : State) (len : Nat) : (s.advance len).regs = s.regs := rfl
@[simp] theorem State.advance_rflags (s : State) (len : Nat) : (s.advance len).rflags = s.rflags := rfl
@[simp] theorem State.advance_segs (s : State) (len : Nat) : (s.advance len).segs = s.segs := rfl
@[simp] theorem State.advance_mode (s : State) (len : Nat) : (s.advance len).mode = s.mode := rfl
@[simp] theorem State.advance_csD (s : State) (len : Nat) : (s.advance len).csD = s.csD := rfl
@[simp] theorem State.advance_cpl (s : State) (len : Nat) : (s.advance len).cpl = s.cpl := rfl
@[simp] theorem State.advance_acEnabled (s : State) (len : Nat) : (s.advance len).acEnabled = s.acEnabled := rfl
@[simp] theorem State.advance_cmovSupported (s : State) (len : Nat) : (s.advance len).cmovSupported = s.cmovSupported := rfl
@[simp] theorem State.advance_linearBits (s : State) (len : Nat) : (s.advance len).linearBits = s.linearBits := rfl
@[simp] theorem State.advance_paging (s : State) (len : Nat) : (s.advance len).paging = s.paging := rfl
@[simp] theorem State.advance_mem (s : State) (len : Nat) : (s.advance len).mem = s.mem := rfl
@[simp] theorem State.advance_readOracle (s : State) (len : Nat) : (s.advance len).readOracle = s.readOracle := rfl
@[simp] theorem State.advance_devices (s : State) (len : Nat) : (s.advance len).devices = s.devices := rfl
@[simp] theorem State.advance_code (s : State) (len : Nat) : (s.advance len).code = s.code := rfl
@[simp] theorem State.advance_choice (s : State) (len : Nat) : (s.advance len).choice = s.choice := rfl
@[simp] theorem State.withFetchWord_regs (s : State) (nbits w : Nat) : (s.withFetchWord nbits w).regs = s.regs := rfl
@[simp] theorem State.withFetchWord_pc (s : State) (nbits w : Nat) : (s.withFetchWord nbits w).pc = s.pc := rfl
@[simp] theorem State.withFetchWord_rflags (s : State) (nbits w : Nat) : (s.withFetchWord nbits w).rflags = s.rflags := rfl
@[simp] theorem State.withFetchWord_segs (s : State) (nbits w : Nat) : (s.withFetchWord nbits w).segs = s.segs := rfl
@[simp] theorem State.withFetchWord_mode (s : State) (nbits w : Nat) : (s.withFetchWord nbits w).mode = s.mode := rfl
@[simp] theorem State.withFetchWord_csD (s : State) (nbits w : Nat) : (s.withFetchWord nbits w).csD = s.csD := rfl
@[simp] theorem State.withFetchWord_cpl (s : State) (nbits w : Nat) : (s.withFetchWord nbits w).cpl = s.cpl := rfl
@[simp] theorem State.withFetchWord_acEnabled (s : State) (nbits w : Nat) : (s.withFetchWord nbits w).acEnabled = s.acEnabled := rfl
@[simp] theorem State.withFetchWord_cmovSupported (s : State) (nbits w : Nat) : (s.withFetchWord nbits w).cmovSupported = s.cmovSupported := rfl
@[simp] theorem State.withFetchWord_linearBits (s : State) (nbits w : Nat) : (s.withFetchWord nbits w).linearBits = s.linearBits := rfl
@[simp] theorem State.withFetchWord_paging (s : State) (nbits w : Nat) : (s.withFetchWord nbits w).paging = s.paging := rfl
@[simp] theorem State.withFetchWord_mem (s : State) (nbits w : Nat) : (s.withFetchWord nbits w).mem = s.mem := rfl
@[simp] theorem State.withFetchWord_readOracle (s : State) (nbits w : Nat) : (s.withFetchWord nbits w).readOracle = s.readOracle := rfl
@[simp] theorem State.withFetchWord_devices (s : State) (nbits w : Nat) : (s.withFetchWord nbits w).devices = s.devices := rfl
@[simp] theorem State.withFetchWord_choice (s : State) (nbits w : Nat) : (s.withFetchWord nbits w).choice = s.choice := rfl
@[simp] theorem State.passRead_regs (s : State) (m : MemRef) (n : Nat) : (s.passRead m n).regs = s.regs := rfl
@[simp] theorem State.passRead_pc (s : State) (m : MemRef) (n : Nat) : (s.passRead m n).pc = s.pc := rfl
@[simp] theorem State.passRead_rflags (s : State) (m : MemRef) (n : Nat) : (s.passRead m n).rflags = s.rflags := rfl
@[simp] theorem State.passRead_segs (s : State) (m : MemRef) (n : Nat) : (s.passRead m n).segs = s.segs := rfl
@[simp] theorem State.passRead_mode (s : State) (m : MemRef) (n : Nat) : (s.passRead m n).mode = s.mode := rfl
@[simp] theorem State.passRead_csD (s : State) (m : MemRef) (n : Nat) : (s.passRead m n).csD = s.csD := rfl
@[simp] theorem State.passRead_cpl (s : State) (m : MemRef) (n : Nat) : (s.passRead m n).cpl = s.cpl := rfl
@[simp] theorem State.passRead_acEnabled (s : State) (m : MemRef) (n : Nat) : (s.passRead m n).acEnabled = s.acEnabled := rfl
@[simp] theorem State.passRead_cmovSupported (s : State) (m : MemRef) (n : Nat) : (s.passRead m n).cmovSupported = s.cmovSupported := rfl
@[simp] theorem State.passRead_linearBits (s : State) (m : MemRef) (n : Nat) : (s.passRead m n).linearBits = s.linearBits := rfl
@[simp] theorem State.passRead_paging (s : State) (m : MemRef) (n : Nat) : (s.passRead m n).paging = s.paging := rfl
@[simp] theorem State.passRead_mem (s : State) (m : MemRef) (n : Nat) : (s.passRead m n).mem = s.mem := rfl
@[simp] theorem State.passRead_devices (s : State) (m : MemRef) (n : Nat) : (s.passRead m n).devices = s.devices := rfl
@[simp] theorem State.passRead_code (s : State) (m : MemRef) (n : Nat) : (s.passRead m n).code = s.code := rfl
@[simp] theorem State.passRead_choice (s : State) (m : MemRef) (n : Nat) : (s.passRead m n).choice = s.choice := rfl
@[simp] theorem State.passRead_readOracle (s : State) (m : MemRef) (n : Nat) :
    (s.passRead m n).readOracle = s.readOracle.drop (readEvents (s.linear m) n) := rfl
@[simp] theorem State.setReg_ctx (s : State) (r : Reg) (w : QWord) : (s.setReg r w).ctx = s.ctx := rfl
@[simp] theorem State.setPc_ctx (s : State) (w : QWord) : (s.setPc w).ctx = s.ctx := rfl
@[simp] theorem State.setReg_ia32eActive (s : State) (r : Reg) (w : QWord) : (s.setReg r w).ia32eActive = s.ia32eActive := rfl
@[simp] theorem State.setPc_ia32eActive (s : State) (w : QWord) : (s.setPc w).ia32eActive = s.ia32eActive := rfl
@[simp] theorem State.setReg_level (s : State) (r : Reg) (w : QWord) : (s.setReg r w).level = s.level := rfl
@[simp] theorem State.setPc_level (s : State) (w : QWord) : (s.setPc w).level = s.level := rfl
@[simp] theorem State.setReg_checksAlignment (s : State) (r : Reg) (w : QWord) : (s.setReg r w).checksAlignment = s.checksAlignment := rfl
@[simp] theorem State.setPc_checksAlignment (s : State) (w : QWord) : (s.setPc w).checksAlignment = s.checksAlignment := rfl
@[simp] theorem State.setReg_supportsCmov (s : State) (r : Reg) (w : QWord) : (s.setReg r w).supportsCmov = s.supportsCmov := rfl
@[simp] theorem State.setPc_supportsCmov (s : State) (w : QWord) : (s.setPc w).supportsCmov = s.supportsCmov := rfl
@[simp] theorem State.setReg_ipBits (s : State) (r : Reg) (w : QWord) : (s.setReg r w).ipBits = s.ipBits := rfl
@[simp] theorem State.setPc_ipBits (s : State) (w : QWord) : (s.setPc w).ipBits = s.ipBits := rfl
@[simp] theorem State.setReg_flags (s : State) (r : Reg) (w : QWord) : (s.setReg r w).flags = s.flags := rfl
@[simp] theorem State.setPc_flags (s : State) (w : QWord) : (s.setPc w).flags = s.flags := rfl
@[simp] theorem State.setReg_zeroCode (s : State) (r : Reg) (w : QWord) : (s.setReg r w).zeroCode = s.zeroCode := rfl
@[simp] theorem State.setPc_zeroCode (s : State) (w : QWord) : (s.setPc w).zeroCode = s.zeroCode := rfl
@[simp] theorem State.setReg_checksDescriptors (s : State) (r : Reg) (w : QWord) : (s.setReg r w).checksDescriptors = s.checksDescriptors := rfl
@[simp] theorem State.setPc_checksDescriptors (s : State) (w : QWord) : (s.setPc w).checksDescriptors = s.checksDescriptors := rfl

@[simp] theorem State.setPc_reg (s : State) (v : QWord) (r : Reg) : (s.setPc v).reg r = s.reg r := rfl
@[simp] theorem State.advance_reg (s : State) (len : Nat) (r : Reg) : (s.advance len).reg r = s.reg r := rfl
@[simp] theorem State.setReg_wrapPc (s : State) (r : Reg) (v w : QWord) : (s.setReg r v).wrapPc w = s.wrapPc w := rfl

/-- A register read after a write: the register written holds the value, every other one what it held. -/
theorem State.reg_setReg (s : State) (r q : Reg) (v : QWord) :
    (s.setReg r v).reg q = if q = r then v else s.reg q := by
  simp only [State.reg, State.setReg, Vector.getElem_set, BitVec.toNat_inj, eq_comm]

@[simp] theorem State.reg_setReg_same (s : State) (r : Reg) (v : QWord) : (s.setReg r v).reg r = v := by
  simp [State.reg_setReg]

theorem State.reg_setReg_other (s : State) (r q : Reg) (v : QWord) (h : q ≠ r) : (s.setReg r v).reg q = s.reg q := by
  simp [State.reg_setReg, h]

/-- Writing back what a register holds changes nothing. -/
@[simp] theorem State.setReg_reg (s : State) (r : Reg) : s.setReg r (s.reg r) = s := by
  simp [State.setReg, State.reg]

/-- Two writes of one register: the later one stands. -/
@[simp] theorem State.setReg_setReg (s : State) (r : Reg) (v w : QWord) : (s.setReg r v).setReg r w = s.setReg r w := by
  simp [State.setReg]

end Sys2Proof.Machine
end

