-- ==== Sys2Proof/Laws/Ops.lean ====
section
/-! SUPPORT. What each shared operation can do, said once: results, register writes, the program counter, paging, the
operand read, the checks of decoding, the common operation. -/

namespace Sys2Proof.Machine

open Sys2Proof

/-! ### Results -/

@[simp] theorem andThen_next {α β : Type} (a : α) (k : α → Res β) : andThen (.next a) k = k a := rfl
@[simp] theorem andThen_fault {α β : Type} (x : Fault) (k : α → Res β) : andThen (.fault x) k = .fault x := rfl
@[simp] theorem andThen_refused {α β : Type} (x : Refusal) (k : α → Res β) : andThen (.refused x) k = .refused x := rfl

/-- A sequence answers a value exactly when both parts do. -/
theorem andThen_eq_next {α β : Type} {r : Res α} {k : α → Res β} {b : β} :
    andThen r k = .next b ↔ ∃ a, r = .next a ∧ k a = .next b := by
  cases r <;> simp

/-- A sequence faults exactly when the first part does, or the second on the value of the first. -/
theorem andThen_eq_fault {α β : Type} {r : Res α} {k : α → Res β} {x : Fault} :
    andThen r k = .fault x ↔ r = .fault x ∨ ∃ a, r = .next a ∧ k a = .fault x := by
  cases r <;> simp

/-- A sequence is refused exactly when the first part is, or the second on the value of the first. -/
theorem andThen_eq_refused {α β : Type} {r : Res α} {k : α → Res β} {x : Refusal} :
    andThen r k = .refused x ↔ r = .refused x ∨ ∃ a, r = .next a ∧ k a = .refused x := by
  cases r <;> simp

/-! ### Exceptions -/

/-- Raising never answers a value. -/
theorem raise_ne_next {α : Type} (s : State) (k : ExcKind) (c : Option (BitVec 32)) (a : Option (BitVec 64)) (x : α) :
    raise s k c a ≠ .next x := by
  simp [raise]

/-- Reporting a page fault raises `#PF` with one of the faults given (R63). -/
theorem reportPageFault_eq {α : Type} (s : State) (f : BitVec 32 × BitVec 64) (fs : List (BitVec 32 × BitVec 64)) :
    ∃ g ∈ f :: fs, (reportPageFault s f fs : Res α) = .fault (.exception .pf (some g.1) (some g.2) s) := by
  cases fs with
  | nil => exact ⟨f, by simp, rfl⟩
  | cons g fs =>
    simp only [reportPageFault]
    split
    · rename_i h hh
      exact ⟨h, List.mem_of_getElem? hh, rfl⟩
    · exact ⟨f, by simp, rfl⟩

/-! ### Registers and the program counter -/

theorem zeroExtendLow32 (v : QWord) : (v.setWidth 32).setWidth 64 = 0#32 ++ v.extractLsb' 0 32 := by
  ext i hi
  simp [BitVec.getElem_setWidth]
  grind

/-- A sized register write is a full write of R136's value (R23). -/
theorem gprWrite_eq (s : State) (r : Reg) (n : OpSize) (v : QWord) :
    s.gprWrite r n v = s.setReg r (destAfter n s.ia32eActive true (s.reg r) v) := by
  have h16 : v.setWidth 16 = v.extractLsb' 0 16 := by simp [BitVec.setWidth_eq_extractLsb']
  have h32 : v.setWidth 32 = v.extractLsb' 0 32 := by simp [BitVec.setWidth_eq_extractLsb']
  cases n with
  | w16 => simp only [State.gprWrite, destAfter, h16]
  | w32 =>
    simp only [State.gprWrite, zeroExtendLow32]
    simp only [h32]
    cases s.ia32eActive <;> simp [destAfter]
  | w64 => simp only [State.gprWrite, destAfter]

/-- The destination after step 2 of R130 is a full write of R136's value. -/
theorem writeDest_eq (moved : Bool) (n : OpSize) (f : Form) (t : QWord) (s : State) :
    writeDest moved n f t s =
      s.setReg (destNum f) (destAfter n s.ia32eActive moved (s.reg (destNum f)) t) := by
  cases moved with
  | true => simp [writeDest, gprWrite_eq]
  | false =>
    cases n <;> cases h : s.ia32eActive <;>
      simp [writeDest, h, destAfter, State.clearUpper, zeroExtendLow32]

/-- The program counter advances modulo the width of the instruction pointer (R26). -/
theorem wrapPc_add (s : State) (len : Nat) : s.wrapPc (s.pc + BitVec.ofNat 64 len) = s.pcAfter len := by
  apply BitVec.eq_of_toNat_eq
  simp only [State.wrapPc, State.pcAfter, State.ipBits]
  cases s.mode <;> simp only [] <;> (try cases s.ctx.defaultSize) <;>
    simp [BitVec.toNat_setWidth]

theorem ipBits_le (s : State) : s.ipBits ≤ 64 := by
  simp only [State.ipBits]
  split
  · exact le_refl _
  · split <;> decide

/-- The program counter after an instruction is no wider than the instruction pointer. -/
theorem pcAfter_lt (s : State) (len : Nat) : (s.pcAfter len).toNat < 2 ^ s.ipBits := by
  have h : 2 ^ s.ipBits ≤ 2 ^ 64 := Nat.pow_le_pow_right (by decide) (ipBits_le s)
  have h2 : (s.pc.toNat + len) % 2 ^ s.ipBits < 2 ^ s.ipBits := Nat.mod_lt _ (Nat.two_pow_pos _)
  simp only [State.pcAfter, BitVec.toNat_ofNat]
  exact lt_of_le_of_lt (Nat.mod_le _ _) h2

/-- The read of operand 2 leaves everything but the read oracle as it was. -/
theorem passSource_eq (n : OpSize) (f : Form) (s : State) :
    passSource n f s = { s with readOracle := (passSource n f s).readOracle } := by
  simp only [passSource]
  split <;> rfl

/-- The read oracle after the read of operand 2: a register form asks it nothing, a memory form one event, or one for each byte
(R64). -/
theorem passSource_readOracle (n : OpSize) (f : Form) (s : State) :
    (passSource n f s).readOracle =
      if f.modrm.mod = 3#2 then s.readOracle else s.readOracle.drop (readEvents (s.linear (memRef s f)) (opBytes n)) := by
  simp only [passSource]
  split <;> rfl

/-- Step 2 and step 3 of R130 together. -/
theorem writeDest_advance (moved : Bool) (n : OpSize) (f : Form) (t : QWord) (s : State) :
    (writeDest moved n f t (passSource n f s)).advance f.length = s.afterCmov moved n f t := by
  rw [passSource_eq, writeDest_eq, State.advance, State.setReg_pc, State.setReg_wrapPc, wrapPc_add]
  rfl

/-! ### A completed CMOVcc -/

section
variable (s : State) (moved : Bool) (n : OpSize) (f : Form) (t : QWord)

@[simp] theorem afterCmov_pc : (s.afterCmov moved n f t).pc = s.pcAfter f.length := rfl
@[simp] theorem afterCmov_rflags : (s.afterCmov moved n f t).rflags = s.rflags := rfl
@[simp] theorem afterCmov_segs : (s.afterCmov moved n f t).segs = s.segs := rfl
@[simp] theorem afterCmov_mode : (s.afterCmov moved n f t).mode = s.mode := rfl
@[simp] theorem afterCmov_csD : (s.afterCmov moved n f t).csD = s.csD := rfl
@[simp] theorem afterCmov_cpl : (s.afterCmov moved n f t).cpl = s.cpl := rfl
@[simp] theorem afterCmov_acEnabled : (s.afterCmov moved n f t).acEnabled = s.acEnabled := rfl
@[simp] theorem afterCmov_cmovSupported : (s.afterCmov moved n f t).cmovSupported = s.cmovSupported := rfl
@[simp] theorem afterCmov_linearBits : (s.afterCmov moved n f t).linearBits = s.linearBits := rfl
@[simp] theorem afterCmov_paging : (s.afterCmov moved n f t).paging = s.paging := rfl
@[simp] theorem afterCmov_mem : (s.afterCmov moved n f t).mem = s.mem := rfl
@[simp] theorem afterCmov_readOracle : (s.afterCmov moved n f t).readOracle = (passSource n f s).readOracle := rfl
@[simp] theorem afterCmov_devices : (s.afterCmov moved n f t).devices = s.devices := rfl
@[simp] theorem afterCmov_code : (s.afterCmov moved n f t).code = s.code := rfl
@[simp] theorem afterCmov_choice : (s.afterCmov moved n f t).choice = s.choice := rfl
@[simp] theorem afterCmov_ctx : (s.afterCmov moved n f t).ctx = s.ctx := rfl
@[simp] theorem afterCmov_ia32eActive : (s.afterCmov moved n f t).ia32eActive = s.ia32eActive := rfl
@[simp] theorem afterCmov_level : (s.afterCmov moved n f t).level = s.level := rfl
@[simp] theorem afterCmov_checksAlignment : (s.afterCmov moved n f t).checksAlignment = s.checksAlignment := rfl
@[simp] theorem afterCmov_supportsCmov : (s.afterCmov moved n f t).supportsCmov = s.supportsCmov := rfl
@[simp] theorem afterCmov_ipBits : (s.afterCmov moved n f t).ipBits = s.ipBits := rfl
@[simp] theorem afterCmov_flags : (s.afterCmov moved n f t).flags = s.flags := rfl
@[simp] theorem afterCmov_checksDescriptors : (s.afterCmov moved n f t).checksDescriptors = s.checksDescriptors := rfl

/-- The registers after a completed CMOVcc: the destination holds R136's value, every other one what it held. -/
theorem afterCmov_reg (q : Reg) : (s.afterCmov moved n f t).reg q =
    if q = destNum f then destAfter n s.ia32eActive moved (s.reg (destNum f)) t else s.reg q :=
  State.reg_setReg s (destNum f) q _

end

/-! ### The checks of decoding -/

/-- Decoding finds nothing wrong exactly with an admitted form (R109, R110). -/
theorem decodeChecks_eq_next {n : OpSize} {f : Form} {s : State} : decodeChecks n f s = .next () ↔ Admitted n f s := by
  simp only [decodeChecks, Admitted, Form.wf, Form.legal, raiseUD, raiseGP, raise]
  by_cases h : 1 < (segOverrides f.prefixes).length <;> by_cases h2 : Config.maxInsnLen < f.length <;>
    cases f.encodable s.ctx n <;> cases hasLock f.prefixes <;> cases hasRep f.prefixes <;>
    cases misplacedRex f.prefixes <;> cases s.supportsCmov <;> simp [h, h2]
  all_goals omega

/-- An admitted form passes the checks of decoding. -/
theorem decodeChecks_of_admitted {n : OpSize} {f : Form} {s : State} (h : Admitted n f s) : decodeChecks n f s = .next () :=
  decodeChecks_eq_next.mpr h

/-- The faults of the checks of decoding: `#UD`, and `#GP(0)` for length (R209). -/
theorem decodeChecks_eq_fault {n : OpSize} {f : Form} {s : State} {x : Fault} (h : decodeChecks n f s = .fault x) :
    x = .exception .ud none none s ∨ x = .exception .gp s.zeroCode none s := by
  simp only [decodeChecks, raiseUD, raiseGP, raise] at h
  split at h
  · split at h
    · exact .inl (by simpa using h.symm)
    · split at h
      · cases h
      · split at h
        · cases h
        · split at h
          · cases h
          · split at h
            · split at h
              · exact .inr (by simpa using h.symm)
              · cases h
            · exact .inl (by simpa using h.symm)
  · cases h

/-! ### The common operation -/

/-- Every meaning is the common operation with the row's condition and operand size. -/
theorem exec_eq_cmov (i : Instr) (s : State) : exec i s = cmov i.cond i.size i.form s := by
  cases i <;> rfl

/-- An admitted CMOVcc is its source read and then R136's state (R130). -/
theorem cmov_of_admitted {c : Cond} {n : OpSize} {f : Form} {s : State} (h : Admitted n f s) :
    cmov c n f s = andThen (readSource n f s) fun t => .next (s.afterCmov (condHolds c s.flags) n f t) := by
  simp only [cmov, decodeChecks_of_admitted h, andThen_next, writeDest_advance]

/-- Everything a completed CMOVcc can be: an admitted form whose source was read, and R136's state (R130). -/
theorem cmov_eq_next {c : Cond} {n : OpSize} {f : Form} {s s' : State} :
    cmov c n f s = .next s' ↔
      Admitted n f s ∧ ∃ t, readSource n f s = .next t ∧ s' = s.afterCmov (condHolds c s.flags) n f t := by
  constructor
  · intro h
    obtain ⟨u, hu, h⟩ := andThen_eq_next.mp h
    have ha : Admitted n f s := decodeChecks_eq_next.mp hu
    obtain ⟨t, ht, h⟩ := andThen_eq_next.mp h
    refine ⟨ha, t, ht, ?_⟩
    rw [writeDest_advance] at h
    simpa using h.symm
  · rintro ⟨ha, t, ht, rfl⟩
    rw [cmov_of_admitted ha, ht, andThen_next]

/-- The faults of a CMOVcc are those of the checks of decoding and of the source read. -/
theorem cmov_eq_fault {c : Cond} {n : OpSize} {f : Form} {s : State} {x : Fault} :
    cmov c n f s = .fault x ↔ decodeChecks n f s = .fault x ∨ (Admitted n f s ∧ readSource n f s = .fault x) := by
  constructor
  · intro h
    rcases andThen_eq_fault.mp h with h | ⟨u, hu, h⟩
    · exact .inl h
    · rcases andThen_eq_fault.mp h with h | ⟨t, _, h⟩
      · exact .inr ⟨decodeChecks_eq_next.mp hu, h⟩
      · cases h
  · rintro (h | ⟨ha, h⟩)
    · simp only [cmov, h, andThen_fault]
    · rw [cmov_of_admitted ha, h, andThen_fault]

/-- Everything a step that completes can be: the decoded instruction, completed. -/
theorem step_eq_next {s s' : State} (h : step s = .next s') :
    ∃ i rest, decode s.ctx (fetch s) = .instr i rest ∧ exec i s = .next s' := by
  simp only [step] at h
  split at h
  · rename_i i rest hd
    exact ⟨i, rest, hd, h⟩
  · cases h
  · cases h

end Sys2Proof.Machine
end

