-- ==== Sys2Proof/Laws/Load.lean ====
section
/-! SUPPORT. What the operand read can do, said once: little-endian values, paging, MemRead, address formation, the
checked read LoadOperand (20_memory.md R51 to R72). -/

namespace Sys2Proof.Machine

open Sys2Proof

/-! ### Little-endian values (R51) -/

theorem byteOf_toNat (v : QWord) (k : Nat) : (byteOf v k).toNat = v.toNat / 2 ^ (8 * k) % 256 := by
  simp [byteOf, BitVec.extractLsb'_toNat, Nat.shiftRight_eq_div_pow]

theorem byteOf_shift (v : QWord) (k : Nat) : byteOf (v >>> 8) k = byteOf v (k + 1) := by
  apply BitVec.eq_of_toNat_eq
  rw [byteOf_toNat, byteOf_toNat, BitVec.toNat_ushiftRight, Nat.shiftRight_eq_div_pow, Nat.div_div_eq_div_mul,
    ← Nat.pow_add, show 8 + 8 * k = 8 * (k + 1) by ring]

theorem littleEndian_cons_toNat (b : Byte) (bs : List Byte) (h : (littleEndian bs).toNat < 2 ^ 56) :
    (littleEndian (b :: bs)).toNat = b.toNat + 256 * (littleEndian bs).toNat := by
  have hb := b.isLt
  have h1 : (littleEndian bs <<< 8).toNat = 2 ^ 8 * (littleEndian bs).toNat := by
    rw [BitVec.toNat_shiftLeft, Nat.shiftLeft_eq, Nat.mod_eq_of_lt (by omega)]; ring
  have h2 : (b.setWidth 64).toNat = b.toNat := by
    rw [BitVec.toNat_setWidth, Nat.mod_eq_of_lt (by omega)]
  rw [littleEndian, BitVec.toNat_or, h1, h2, ← Nat.two_pow_add_eq_or_of_lt hb]
  omega

/-- The value of some bytes is below 256 to the power of their number. -/
theorem littleEndian_lt (bs : List Byte) (h : bs.length ≤ 8) : (littleEndian bs).toNat < 2 ^ (8 * bs.length) := by
  induction bs with
  | nil => simp [littleEndian]
  | cons b bs ih =>
    simp only [List.length_cons] at h ⊢
    have h1 := ih (by omega)
    have h2 : (littleEndian bs).toNat < 2 ^ 56 :=
      lt_of_lt_of_le h1 (Nat.pow_le_pow_right (by decide) (by omega))
    have hb := b.isLt
    rw [littleEndian_cons_toNat b bs h2, show 8 * (bs.length + 1) = 8 * bs.length + 8 by ring, Nat.pow_add]
    omega

/-- Byte `k` of the value of some bytes is byte `k` of them (R51). -/
theorem byteOf_littleEndian (bs : List Byte) (h : bs.length ≤ 8) (k : Nat) (hk : k < bs.length) :
    byteOf (littleEndian bs) k = bs[k] := by
  induction bs generalizing k with
  | nil => simp at hk
  | cons b bs ih =>
    simp only [List.length_cons] at h hk
    have h2 : (littleEndian bs).toNat < 2 ^ 56 :=
      lt_of_lt_of_le (littleEndian_lt bs (by omega)) (Nat.pow_le_pow_right (by decide) (by omega))
    have hb := b.isLt
    cases k with
    | zero =>
      apply BitVec.eq_of_toNat_eq
      rw [byteOf_toNat, littleEndian_cons_toNat b bs h2, List.getElem_cons_zero]
      omega
    | succ k =>
      rw [← byteOf_shift, List.getElem_cons_succ, ← ih (by omega) k (by omega)]
      congr 1
      apply BitVec.eq_of_toNat_eq
      rw [BitVec.toNat_ushiftRight, littleEndian_cons_toNat b bs h2, Nat.shiftRight_eq_div_pow]
      omega

/-- The bytes of a value, read back, are the value (R51). -/
theorem littleEndian_eq (bs : List Byte) (v : QWord) (h : bs.length ≤ 8) (hv : v.toNat < 2 ^ (8 * bs.length))
    (hb : ∀ k (hk : k < bs.length), bs[k] = byteOf v k) : littleEndian bs = v := by
  induction bs generalizing v with
  | nil =>
    apply BitVec.eq_of_toNat_eq
    simp only [List.length_nil, Nat.mul_zero, Nat.pow_zero] at hv
    simp [littleEndian]
    omega
  | cons b bs ih =>
    simp only [List.length_cons] at h hv
    have h0 : b = byteOf v 0 := hb 0 (by simp)
    have hs : (v >>> 8).toNat = v.toNat / 256 := by
      rw [BitVec.toNat_ushiftRight, Nat.shiftRight_eq_div_pow]
    have h1 : littleEndian bs = v >>> 8 := by
      refine ih (v >>> 8) (by omega) ?_ fun k hk => ?_
      · rw [hs]
        rw [show 8 * (bs.length + 1) = 8 * bs.length + 8 by ring, Nat.pow_add] at hv
        omega
      · rw [byteOf_shift]
        exact hb (k + 1) (by simpa using hk)
    have h2 : (littleEndian bs).toNat < 2 ^ 56 :=
      lt_of_lt_of_le (littleEndian_lt bs (by omega)) (Nat.pow_le_pow_right (by decide) (by omega))
    apply BitVec.eq_of_toNat_eq
    rw [littleEndian_cons_toNat b bs h2, h1, h0, hs, byteOf_toNat]
    omega

/-! ### Paging (R62, R63) -/

/-- No page fault is reported exactly when every byte of the operand translates to a physical address. -/
theorem pageFaults_eq_nil {s : State} {acc : AccessKind} {lin : BitVec 64} {n : Nat} :
    pageFaults s acc lin n = [] ↔ ∀ k < n, ∃ p, translateAddress s (byteAddress s lin k) acc = .physical p := by
  simp only [pageFaults, List.filterMap_eq_nil_iff, List.mem_range]
  constructor
  · intro h k hk
    induction k with
    | zero =>
      have := h 0 hk
      simp only [pageFaultAt] at this
      split at this
      · rename_i p hp
        exact ⟨p, hp⟩
      · simp at this
    | succ k ih =>
      have := h (k + 1) hk
      simp only [pageFaultAt] at this
      split at this
      · rename_i p hp
        exact ⟨p, hp⟩
      · rename_i c hc
        split at this
        · simp at this
        · rename_i hne
          simp only [Nat.add_eq_zero_iff, Nat.one_ne_zero, and_false, false_or, not_not, Nat.add_sub_cancel] at hne
          obtain ⟨p, hp⟩ := ih (by omega)
          simp only [translateAddress, hne] at hc
          simp only [translateAddress] at hp
          cases hpg : s.pageOf (byteAddress s lin k) acc with
          | none => simp [hpg] at hc
          | some pg =>
            simp only [hpg] at hc hp
            cases hr : pg.result <;> simp [hr] at hc hp
  · intro h k hk
    obtain ⟨p, hp⟩ := h k hk
    simp [pageFaultAt, hp]

/-- A page fault that can be reported is that of a byte of the operand that faults (R206). -/
theorem mem_pageFaults {s : State} {acc : AccessKind} {lin : BitVec 64} {n : Nat} {f : BitVec 32 × BitVec 64}
    (h : f ∈ pageFaults s acc lin n) :
    ∃ k < n, f.2 = byteAddress s lin k ∧ translateAddress s f.2 acc = .pageFault f.1 := by
  simp only [pageFaults, List.mem_filterMap, List.mem_range] at h
  obtain ⟨k, hk, h⟩ := h
  simp only [pageFaultAt] at h
  split at h
  · cases h
  · rename_i c hc
    split at h
    · simp only [Option.some.injEq] at h
      subst h
      exact ⟨k, hk, rfl, hc⟩
    · cases h

/-! ### MemRead (R53) -/

/-- The bytes read are as many as the addresses, and each is what the look at it sees. -/
theorem readBytes_eq_next {look : Nat → Nat → Option Byte} {ps : List Nat} {k : Nat} {bs : List Byte} :
    readBytes look ps k = .next bs ↔
      bs.length = ps.length ∧ ∀ j (h : j < ps.length), look (k + j) ps[j] = bs[j]? := by
  induction ps generalizing bs k with
  | nil => cases bs <;> simp [readBytes]
  | cons p ps ih =>
    simp only [readBytes]
    cases hp : look k p with
    | none =>
      simp only [reduceCtorEq, false_iff, not_and]
      intro hl h
      have := h 0 (by simp)
      cases bs <;> simp_all
    | some b =>
      simp only [andThen_eq_next, ih, Host.Outcome.next.injEq]
      constructor
      · rintro ⟨cs, ⟨hl, hc⟩, rfl⟩
        refine ⟨by simp [hl], fun j hj => ?_⟩
        cases j with
        | zero => simpa using hp
        | succ j =>
          have := hc j (by simpa using hj)
          simpa [Nat.add_assoc, Nat.add_comm 1 j] using this
      · rintro ⟨hl, h⟩
        cases bs with
        | nil => simp at hl
        | cons c cs =>
          have h0 := h 0 (by simp)
          simp only [Nat.add_zero, List.getElem_cons_zero, List.getElem?_cons_zero, hp, Option.some.injEq] at h0
          subst h0
          refine ⟨cs, ⟨by simpa using hl, fun j hj => ?_⟩, rfl⟩
          have := h (j + 1) (by simpa using hj)
          simpa [Nat.add_assoc, Nat.add_comm 1 j] using this

theorem readBytes_not_refused {look : Nat → Nat → Option Byte} {ps : List Nat} {k : Nat} {x : Refusal} :
    readBytes look ps k ≠ .refused x := by
  induction ps generalizing k with
  | nil => simp [readBytes]
  | cons p ps ih =>
    simp only [readBytes]
    split
    · simp
    · simp [andThen_eq_refused, ih]

/-- Reading stops only at an address that a look finds nothing at. -/
theorem readBytes_eq_fault {look : Nat → Nat → Option Byte} {ps : List Nat} {k : Nat} {x : Fault}
    (h : readBytes look ps k = .fault x) : ∃ p ∈ ps, x = .unmapped p ∧ ∃ j, look j p = none := by
  induction ps generalizing k with
  | nil => cases h
  | cons p ps ih =>
    simp only [readBytes] at h
    split at h
    · rename_i hp
      exact ⟨p, by simp, by simpa using h.symm, k, hp⟩
    · rcases andThen_eq_fault.mp h with h | ⟨_, _, h⟩
      · obtain ⟨q, hq, h⟩ := ih h
        exact ⟨q, List.mem_cons_of_mem _ hq, h⟩
      · cases h

/-! ### The read oracle (R53, R249) -/

/-- A read event sees nothing exactly at an address outside the memory map (R66). -/
theorem byteSeen_eq_none {s : State} {e p : Nat} : s.byteSeen e p = none ↔ Memory.read s.mem p = none := by
  simp only [State.byteSeen]
  split
  · simp_all
  · split <;> simp_all

/-- Where no other agent has written, every read event sees the memory map's byte (R249). -/
theorem byteSeen_of_not_written {s : State} {p : Nat} (h : NotWrittenByOthers s p) (e : Nat) :
    s.byteSeen e p = Memory.read s.mem p := by
  simp only [State.byteSeen]
  split
  · simp_all
  · rename_i b hb
    split
    · exact hb.symm
    · rename_i w hw
      rw [h w (List.mem_of_getElem? hw), hb]
      rfl

/-- Byte `k` of an operand stands at `lin + k`, modulo 2^64 in 64-bit mode and modulo 2^32 elsewhere (R53). -/
theorem byteAddress_eq {s : State} {lin a : BitVec 64} {k : Nat} :
    byteAddress s lin k = a ↔ a.toNat = (lin.toNat + k) % 2 ^ (if s.mode = .long64 then 64 else 32) := by
  rw [← BitVec.toNat_inj, byteAddress]
  cases s.mode <;> simp [BitVec.toNat_add, BitVec.toNat_setWidth, BitVec.toNat_ofNat] <;> omega

/-- The bytes of an operand are readable when each is, at the address the model gives it. -/
theorem bytesReadable_iff {s : State} {lin : BitVec 64} {n : Nat} {v : QWord} :
    BytesReadable s lin n v ↔ v.toNat < 2 ^ (8 * n) ∧
      ∀ k < n, ∃ p : BitVec 64, translateAddress s (byteAddress s lin k) .read = .physical p ∧ s.isDevice p.toNat = false ∧
        s.byteSeen (readEvent lin n k) p.toNat = some (byteOf v k) := by
  refine and_congr_right fun _ => forall_congr' fun k => forall_congr' fun _ => ?_
  constructor
  · rintro ⟨a, p, ha, h⟩
    rw [← byteAddress_eq] at ha
    exact ⟨p, ha ▸ h⟩
  · rintro ⟨p, h⟩
    exact ⟨_, p, byteAddress_eq.mp rfl, h⟩

/-- The physical addresses of an operand all of whose bytes translate. -/
theorem physicalAddresses_eq {s : State} {acc : AccessKind} {lin : BitVec 64} {n : Nat} {p : Nat → BitVec 64}
    (h : ∀ k < n, translateAddress s (byteAddress s lin k) acc = .physical (p k)) :
    physicalAddresses s acc lin n = (List.range n).map fun k => (p k).toNat := by
  simp only [physicalAddresses]
  rw [← List.filterMap_eq_map]
  apply List.filterMap_congr
  intro k hk
  simp [h k (List.mem_range.mp hk), Translation.address?]

/-- MemRead answers a value of `n` bytes exactly when the bytes are readable and are the value's (R53). -/
theorem memRead_eq_next {s : State} {lin : BitVec 64} {n : Nat} {v : QWord} (hn : n ≤ 8) :
    memRead s lin n = .next v ↔ BytesReadable s lin n v := by
  rw [bytesReadable_iff]
  constructor
  · intro h
    simp only [memRead] at h
    split at h
    · rename_i f fs _
      obtain ⟨g, _, hg⟩ := reportPageFault_eq (α := QWord) s f fs
      rw [hg] at h
      cases h
    · rename_i hpf
      have ht := pageFaults_eq_nil.mp hpf
      choose! p hp using ht
      rw [physicalAddresses_eq hp] at h
      split at h
      · cases h
      · rename_i hdev
        obtain ⟨bs, hbs, h⟩ := andThen_eq_next.mp h
        simp only [Host.Outcome.next.injEq] at h
        subst h
        obtain ⟨hlen, hb⟩ := readBytes_eq_next.mp hbs
        simp only [List.length_map, List.length_range] at hlen
        refine ⟨hlen ▸ littleEndian_lt bs (by omega), fun k hk => ⟨p k, hp k hk, ?_, ?_⟩⟩
        · have := List.find?_eq_none.mp hdev (p k).toNat (List.mem_map.mpr ⟨k, List.mem_range.mpr hk, rfl⟩)
          simpa using this
        · have hk' : k < bs.length := by omega
          rw [byteOf_littleEndian bs (by omega) k hk']
          have := hb k (by simpa using hk)
          simpa [List.getElem?_eq_getElem hk'] using this
  · rintro ⟨hv, h⟩
    choose! p hp using h
    have ht : ∀ k < n, translateAddress s (byteAddress s lin k) .read = .physical (p k) := fun k hk => (hp k hk).1
    have hpf : pageFaults s .read lin n = [] := pageFaults_eq_nil.mpr fun k hk => ⟨p k, ht k hk⟩
    have hdev : (physicalAddresses s .read lin n).find? s.isDevice = none := by
      rw [physicalAddresses_eq ht, List.find?_eq_none]
      intro x hx
      obtain ⟨k, hk, rfl⟩ := List.mem_map.mp hx
      simp [(hp k (List.mem_range.mp hk)).2.1]
    have hrd : readBytes (fun k p => s.byteSeen (readEvent lin n k) p) (physicalAddresses s .read lin n) 0 =
        .next ((List.range n).map (byteOf v)) := by
      rw [physicalAddresses_eq ht, readBytes_eq_next]
      refine ⟨by simp, fun j hj => ?_⟩
      simp only [List.length_map, List.length_range] at hj
      have := (hp j hj).2.2
      simpa [List.getElem?_range hj] using this
    simp only [memRead, hpf, hdev, hrd, andThen_next]
    rw [littleEndian_eq _ v (by simpa using hn) (by simpa using hv) (by simp)]

/-- The faults of MemRead: a page fault of a byte of the operand, or a byte outside the memory map. -/
theorem memRead_eq_fault {s : State} {lin : BitVec 64} {n : Nat} {x : Fault} (h : memRead s lin n = .fault x) :
    (∃ f ∈ pageFaults s .read lin n, x = .exception .pf (some f.1) (some f.2) s) ∨
      (∃ p, x = .unmapped p ∧ Memory.read s.mem p = none) := by
  simp only [memRead] at h
  split at h
  · rename_i f fs hf
    obtain ⟨g, hg, he⟩ := reportPageFault_eq (α := QWord) s f fs
    rw [he] at h
    exact .inl ⟨g, hf ▸ hg, by simpa using h.symm⟩
  · split at h
    · cases h
    · rcases andThen_eq_fault.mp h with h | ⟨_, _, h⟩
      · obtain ⟨p, _, h, _, hl⟩ := readBytes_eq_fault h
        exact .inr ⟨p, h, byteSeen_eq_none.mp hl⟩
      · cases h

/-! ### Address formation (R56 to R59, R72) -/

theorem allCanonical_eq_true {s : State} {lin : BitVec 64} {n : Nat} :
    s.allCanonical lin n = true ↔ EveryByteCanonical s lin n := by
  simp [State.allCanonical, EveryByteCanonical]

/-- An address is canonical exactly when it lies in the lower or in the upper half of the linear addresses (R59). -/
theorem canonical_eq_true {w : LinearBits} {a : BitVec 64} : canonical w a = true ↔ ¬ NonCanonicalAddress w a := by
  have := a.isLt
  cases w <;>
    simp only [canonical, NonCanonicalAddress, Bool.or_eq_true, beq_iff_eq, ← BitVec.toNat_inj, BitVec.extractLsb'_toNat,
      BitVec.toNat_ofNat, BitVec.toNat_allOnes, Nat.shiftRight_eq_div_pow] <;>
    omega

/-- Every byte of an operand is canonical exactly when none is a non-canonical address (R59). -/
theorem everyByteCanonical_iff {s : State} {lin : BitVec 64} {n : Nat} :
    EveryByteCanonical s lin n ↔ ∀ k < n, ¬ NonCanonicalAddress s.linearBits (lin + BitVec.ofNat 64 k) := by
  simp only [EveryByteCanonical, canonical_eq_true]

/-- The exceptions of a non-canonical reference (R59). -/
theorem raiseNonCanonical_eq {α : Type} (s : State) (m : MemRef) :
    (raiseNonCanonical s m : Res α) = raiseSS s ∨ (raiseNonCanonical s m : Res α) = raiseGP s := by
  simp only [raiseNonCanonical]
  split
  · exact .inl rfl
  · split
    · split
      · exact .inl rfl
      · exact .inr rfl
    · exact .inr rfl

/-- Address formation in 64-bit mode answers the linear address exactly when every byte is canonical and none wraps. -/
theorem formLinearLong_eq_next {s : State} {m : MemRef} {n : Nat} {lin : BitVec 64} :
    formLinearLong s m n = .next lin ↔
      lin = s.longLinear m ∧ EveryByteCanonical s lin n ∧ lin.toNat + n ≤ 2 ^ 64 := by
  simp only [formLinearLong]
  by_cases hc : s.allCanonical (s.longLinear m) n = true
  · have hc' := allCanonical_eq_true.mp hc
    by_cases hw : (s.longLinear m).toNat + n > 2 ^ 64
    · rw [if_pos hc, if_pos hw]
      constructor
      · intro h; cases h
      · rintro ⟨rfl, _, h⟩; omega
    · rw [if_pos hc, if_neg hw]
      constructor
      · intro h
        simp only [Host.Outcome.next.injEq] at h
        subst h
        exact ⟨rfl, hc', by omega⟩
      · rintro ⟨rfl, _, _⟩; rfl
  · rw [if_neg hc]
    constructor
    · intro h
      rcases raiseNonCanonical_eq (α := BitVec 64) s m with e | e <;> rw [e] at h <;> cases h
    · rintro ⟨rfl, h, _⟩
      exact absurd (allCanonical_eq_true.mpr h) hc

/-- An access inside the limit does not run past offset FFFFFFFFH. -/
theorem offsetWraps_of_inside {g : Segment} {ea n : Nat} (h : g.outside ea n = false) : g.offsetWraps ea n = false := by
  simp only [Segment.outside] at h
  simp only [Segment.offsetWraps]
  cases he : g.expandDown
  · simp only [he, Bool.false_eq_true, if_false, decide_eq_false_iff_not, not_lt] at h
    by_cases hl : g.limit = 0xFFFFFFFF#32
    · rw [hl] at h
      have : (0xFFFFFFFF#32 : BitVec 32).toNat = 4294967295 := by decide
      simp [hl]; omega
    · simp [hl]
  · simp

/-- Address formation outside 64-bit mode answers the linear address exactly when no check turns the access away. -/
theorem formLinearLegacy_eq_next {s : State} {m : MemRef} {n : Nat} {lin : BitVec 64} :
    formLinearLegacy s m n = .next lin ↔ lin = s.legacyLinear m ∧ LegacyAccessOk s m n := by
  simp only [formLinearLegacy, raiseGP, raiseSS, raise]
  constructor
  · intro h
    split at h
    · cases h
    · split at h
      · cases h
      · split at h
        · cases h
        · split at h
          · split at h <;> cases h
          · rename_i h1 h2 _ h4
            simp only [Host.Outcome.next.injEq] at h
            refine ⟨h.symm, ⟨fun a b => ?_, fun a => ?_, by simpa using h4⟩⟩
            · simpa [a, b] using h1
            · simpa [a] using h2
  · rintro ⟨rfl, h⟩
    have h1 : (s.checksDescriptors && nullChecked m.seg && (s.seg m.seg).isNull) = false := by
      by_cases a : s.checksDescriptors = true <;> by_cases b : nullChecked m.seg = true
      · simp [h.notNull a b]
      all_goals simp [a, b]
    have h2 : (s.checksDescriptors && !(s.seg m.seg).readable) = false := by
      by_cases a : s.checksDescriptors = true
      · simp [h.readable a]
      · simp [a]
    simp [h1, h2, offsetWraps_of_inside h.inLimit, h.inLimit]

/-- The linear address that the model forms is the one R31, R56 and R59 write. -/
theorem linear_eq {s : State} {m : MemRef} {lin : BitVec 64} : lin = s.linear m ↔ IsLinearAddress s m lin := by
  rw [← BitVec.toNat_inj]
  have hlong : (s.longLinear m).toNat =
      ((if m.seg = .fs then s.segs.fs.base.toNat else if m.seg = .gs then s.segs.gs.base.toNat else 0) + m.ea.toNat) % 2 ^ 64 := by
    simp only [State.longLinear, State.longBase, BitVec.toNat_add]
    cases m.seg <;> rfl
  have hlegacy : (s.legacyLinear m).toNat = ((s.seg m.seg).base.toNat + m.ea.toNat) % 2 ^ 32 := by
    simp only [State.legacyLinear, BitVec.toNat_setWidth, BitVec.toNat_add]
    omega
  simp only [State.linear, IsLinearAddress]
  cases s.mode <;> simp only [hlong, hlegacy]

/-- The faults of address formation: `#GP` and `#SS` with the mode's zero error code, and the address wrap (R209). -/
theorem formLinear_eq_fault {s : State} {m : MemRef} {n : Nat} {x : Fault} (h : formLinear s m n = .fault x) :
    x = .exception .gp s.zeroCode none s ∨ x = .exception .ss s.zeroCode none s ∨ x = .addressWrap := by
  have hl : formLinearLong s m n = .fault x → x = .exception .gp s.zeroCode none s ∨
      x = .exception .ss s.zeroCode none s ∨ x = .addressWrap := by
    intro h
    simp only [formLinearLong] at h
    split at h
    · split at h
      · exact .inr (.inr (by simpa using h.symm))
      · cases h
    · rcases raiseNonCanonical_eq (α := BitVec 64) s m with e | e <;> rw [e] at h
      · exact .inr (.inl (by simpa [raiseSS, raise] using h.symm))
      · exact .inl (by simpa [raiseGP, raise] using h.symm)
  have hg : formLinearLegacy s m n = .fault x → x = .exception .gp s.zeroCode none s ∨
      x = .exception .ss s.zeroCode none s ∨ x = .addressWrap := by
    intro h
    simp only [formLinearLegacy, raiseGP, raiseSS, raise] at h
    split at h
    · exact .inl (by simpa using h.symm)
    · split at h
      · exact .inl (by simpa using h.symm)
      · split at h
        · exact .inr (.inr (by simpa using h.symm))
        · split at h
          · split at h
            · exact .inr (.inl (by simpa using h.symm))
            · exact .inl (by simpa using h.symm)
          · cases h
  simp only [formLinear] at h
  split at h
  · exact hl h
  · exact hg h

/-- Address formation is never refused. -/
theorem formLinear_not_refused {s : State} {m : MemRef} {n : Nat} {x : Refusal} : formLinear s m n ≠ .refused x := by
  intro h
  simp only [formLinear] at h
  split at h
  · simp only [formLinearLong] at h
    split at h
    · split at h <;> cases h
    · rcases raiseNonCanonical_eq (α := BitVec 64) s m with e | e <;> rw [e] at h <;> cases h
  · simp only [formLinearLegacy, raiseGP, raiseSS, raise] at h
    repeat' split at h
    all_goals cases h

/-! ### The checked operand read (R60, R61) -/

/-- The access answers a value exactly when the alignment is no trouble and the bytes are readable. -/
theorem accessOperand_eq_next {s : State} {lin : BitVec 64} {n : Nat} {v : QWord} (hn : n ≤ 8) :
    accessOperand s lin n = .next v ↔ AlignmentOk s lin n ∧ BytesReadable s lin n v := by
  rw [← memRead_eq_next hn]
  simp only [accessOperand, AlignmentOk]
  by_cases hc : (s.checksAlignment && decide (lin.toNat % n ≠ 0)) = true
  · rw [if_pos hc]
    simp only [Bool.and_eq_true, decide_eq_true_eq] at hc
    constructor
    · intro h
      split at h
      · cases h
      · split at h
        · cases h
        · rename_i hne _
          exfalso
          simp only [memRead] at h
          split at h
          · rename_i f fs _
            obtain ⟨g, _, hg⟩ := reportPageFault_eq (α := QWord) s f fs
            rw [hg] at h
            cases h
          · rename_i hnil
            simp [hnil] at hne
    · rintro ⟨h, _⟩
      exact absurd (h hc.1) hc.2
  · rw [if_neg hc]
    simp only [Bool.and_eq_true, decide_eq_true_eq, not_and, not_not] at hc
    exact ⟨fun h => ⟨hc, h⟩, fun h => h.2⟩

/-- The faults of the access: `#AC(0)` on a misaligned operand, a page fault of a byte of it, or a byte outside the
memory map. -/
theorem accessOperand_eq_fault {s : State} {lin : BitVec 64} {n : Nat} {x : Fault}
    (h : accessOperand s lin n = .fault x) :
    (x = .exception .ac (some 0#32) none s ∧ s.checksAlignment = true ∧ lin.toNat % n ≠ 0) ∨
      (∃ f ∈ pageFaults s .read lin n, x = .exception .pf (some f.1) (some f.2) s) ∨
      (∃ p, x = .unmapped p ∧ Memory.read s.mem p = none) := by
  simp only [accessOperand] at h
  split at h
  · rename_i hc
    simp only [Bool.and_eq_true, decide_eq_true_eq] at hc
    split at h
    · exact .inl ⟨by simpa [raiseAC, raise] using h.symm, hc⟩
    · split at h
      · exact .inl ⟨by simpa [raiseAC, raise] using h.symm, hc⟩
      · exact .inr (memRead_eq_fault h)
  · exact .inr (memRead_eq_fault h)

/-- LoadOperand answers a value exactly when the address is formed, aligned where that is checked, and its bytes are
readable (R60). -/
theorem loadOperand_eq_next {s : State} {m : MemRef} {n : Nat} {v : QWord} (hn : n ≤ 8) :
    loadOperand s m n = .next v ↔
      ∃ lin, formLinear s m n = .next lin ∧ AlignmentOk s lin n ∧ BytesReadable s lin n v := by
  simp only [loadOperand, andThen_eq_next, accessOperand_eq_next hn]

/-- Everything the operand read can fault with (R209). -/
theorem loadOperand_eq_fault {s : State} {m : MemRef} {n : Nat} {x : Fault} (h : loadOperand s m n = .fault x) :
    (x = .exception .gp s.zeroCode none s ∨ x = .exception .ss s.zeroCode none s ∨ x = .addressWrap) ∨
      ∃ lin, formLinear s m n = .next lin ∧
        ((x = .exception .ac (some 0#32) none s ∧ s.checksAlignment = true ∧ lin.toNat % n ≠ 0) ∨
          (∃ f ∈ pageFaults s .read lin n, x = .exception .pf (some f.1) (some f.2) s) ∨
          (∃ p, x = .unmapped p ∧ Memory.read s.mem p = none)) := by
  rcases andThen_eq_fault.mp h with h | ⟨lin, hl, h⟩
  · exact .inl (formLinear_eq_fault h)
  · exact .inr ⟨lin, hl, accessOperand_eq_fault h⟩

theorem opBytes_le (n : OpSize) : opBytes n ≤ 8 := by
  cases n <;> decide

/-- Operand 2 answers the register's low bits, or what LoadOperand answers (R96). -/
theorem readSource_eq_next {n : OpSize} {f : Form} {s : State} {t : QWord} :
    readSource n f s = .next t ↔
      (f.modrm.mod = 3#2 ∧ t = s.gprRead (srcNum f) n) ∨
        (f.modrm.mod ≠ 3#2 ∧ loadOperand s (memRef s f) (opBytes n) = .next t) := by
  simp only [readSource]
  by_cases h : f.modrm.mod = 3#2 <;> simp [h, eq_comm]

/-- Operand 2 faults only as a memory operand. -/
theorem readSource_eq_fault {n : OpSize} {f : Form} {s : State} {x : Fault} :
    readSource n f s = .fault x ↔ f.modrm.mod ≠ 3#2 ∧ loadOperand s (memRef s f) (opBytes n) = .fault x := by
  simp only [readSource]
  by_cases h : f.modrm.mod = 3#2 <;> simp [h]

end Sys2Proof.Machine
end

