-- ==== Sys2Proof/Laws/PerInstr.lean ====
section
/-! SUPPORT. A statement about every instruction as syntax, with one lemma per constructor of Instr: the encoding of an
instruction is as long as 30_encoding.md R107 says. -/

namespace Sys2Proof.Laws.EncodeLength

open Sys2Proof

/-- The encoding of the instruction is as long as R107 says. -/
def Statement (i : Instr) : Prop :=
  (encode i).length = i.form.length

theorem cmovaR16 (f : Form) : Statement (.cmovaR16 f) := encode_length _
theorem cmovaR32 (f : Form) : Statement (.cmovaR32 f) := encode_length _
theorem cmovaR64 (f : Form) : Statement (.cmovaR64 f) := encode_length _
theorem cmovaeR16 (f : Form) : Statement (.cmovaeR16 f) := encode_length _
theorem cmovaeR32 (f : Form) : Statement (.cmovaeR32 f) := encode_length _
theorem cmovaeR64 (f : Form) : Statement (.cmovaeR64 f) := encode_length _
theorem cmovbR16 (f : Form) : Statement (.cmovbR16 f) := encode_length _
theorem cmovbR32 (f : Form) : Statement (.cmovbR32 f) := encode_length _
theorem cmovbR64 (f : Form) : Statement (.cmovbR64 f) := encode_length _
theorem cmovbeR16 (f : Form) : Statement (.cmovbeR16 f) := encode_length _
theorem cmovbeR32 (f : Form) : Statement (.cmovbeR32 f) := encode_length _
theorem cmovbeR64 (f : Form) : Statement (.cmovbeR64 f) := encode_length _
theorem cmovcR16 (f : Form) : Statement (.cmovcR16 f) := encode_length _
theorem cmovcR32 (f : Form) : Statement (.cmovcR32 f) := encode_length _
theorem cmovcR64 (f : Form) : Statement (.cmovcR64 f) := encode_length _
theorem cmoveR16 (f : Form) : Statement (.cmoveR16 f) := encode_length _
theorem cmoveR32 (f : Form) : Statement (.cmoveR32 f) := encode_length _
theorem cmoveR64 (f : Form) : Statement (.cmoveR64 f) := encode_length _
theorem cmovgR16 (f : Form) : Statement (.cmovgR16 f) := encode_length _
theorem cmovgR32 (f : Form) : Statement (.cmovgR32 f) := encode_length _
theorem cmovgR64 (f : Form) : Statement (.cmovgR64 f) := encode_length _
theorem cmovgeR16 (f : Form) : Statement (.cmovgeR16 f) := encode_length _
theorem cmovgeR32 (f : Form) : Statement (.cmovgeR32 f) := encode_length _
theorem cmovgeR64 (f : Form) : Statement (.cmovgeR64 f) := encode_length _
theorem cmovlR16 (f : Form) : Statement (.cmovlR16 f) := encode_length _
theorem cmovlR32 (f : Form) : Statement (.cmovlR32 f) := encode_length _
theorem cmovlR64 (f : Form) : Statement (.cmovlR64 f) := encode_length _
theorem cmovleR16 (f : Form) : Statement (.cmovleR16 f) := encode_length _
theorem cmovleR32 (f : Form) : Statement (.cmovleR32 f) := encode_length _
theorem cmovleR64 (f : Form) : Statement (.cmovleR64 f) := encode_length _
theorem cmovnaR16 (f : Form) : Statement (.cmovnaR16 f) := encode_length _
theorem cmovnaR32 (f : Form) : Statement (.cmovnaR32 f) := encode_length _
theorem cmovnaR64 (f : Form) : Statement (.cmovnaR64 f) := encode_length _
theorem cmovnaeR16 (f : Form) : Statement (.cmovnaeR16 f) := encode_length _
theorem cmovnaeR32 (f : Form) : Statement (.cmovnaeR32 f) := encode_length _
theorem cmovnaeR64 (f : Form) : Statement (.cmovnaeR64 f) := encode_length _
theorem cmovnbR16 (f : Form) : Statement (.cmovnbR16 f) := encode_length _
theorem cmovnbR32 (f : Form) : Statement (.cmovnbR32 f) := encode_length _
theorem cmovnbR64 (f : Form) : Statement (.cmovnbR64 f) := encode_length _
theorem cmovnbeR16 (f : Form) : Statement (.cmovnbeR16 f) := encode_length _
theorem cmovnbeR32 (f : Form) : Statement (.cmovnbeR32 f) := encode_length _
theorem cmovnbeR64 (f : Form) : Statement (.cmovnbeR64 f) := encode_length _
theorem cmovncR16 (f : Form) : Statement (.cmovncR16 f) := encode_length _
theorem cmovncR32 (f : Form) : Statement (.cmovncR32 f) := encode_length _
theorem cmovncR64 (f : Form) : Statement (.cmovncR64 f) := encode_length _
theorem cmovneR16 (f : Form) : Statement (.cmovneR16 f) := encode_length _
theorem cmovneR32 (f : Form) : Statement (.cmovneR32 f) := encode_length _
theorem cmovneR64 (f : Form) : Statement (.cmovneR64 f) := encode_length _
theorem cmovngR16 (f : Form) : Statement (.cmovngR16 f) := encode_length _
theorem cmovngR32 (f : Form) : Statement (.cmovngR32 f) := encode_length _
theorem cmovngR64 (f : Form) : Statement (.cmovngR64 f) := encode_length _
theorem cmovngeR16 (f : Form) : Statement (.cmovngeR16 f) := encode_length _
theorem cmovngeR32 (f : Form) : Statement (.cmovngeR32 f) := encode_length _
theorem cmovngeR64 (f : Form) : Statement (.cmovngeR64 f) := encode_length _
theorem cmovnlR16 (f : Form) : Statement (.cmovnlR16 f) := encode_length _
theorem cmovnlR32 (f : Form) : Statement (.cmovnlR32 f) := encode_length _
theorem cmovnlR64 (f : Form) : Statement (.cmovnlR64 f) := encode_length _
theorem cmovnleR16 (f : Form) : Statement (.cmovnleR16 f) := encode_length _
theorem cmovnleR32 (f : Form) : Statement (.cmovnleR32 f) := encode_length _
theorem cmovnleR64 (f : Form) : Statement (.cmovnleR64 f) := encode_length _
theorem cmovnoR16 (f : Form) : Statement (.cmovnoR16 f) := encode_length _
theorem cmovnoR32 (f : Form) : Statement (.cmovnoR32 f) := encode_length _
theorem cmovnoR64 (f : Form) : Statement (.cmovnoR64 f) := encode_length _
theorem cmovnpR16 (f : Form) : Statement (.cmovnpR16 f) := encode_length _
theorem cmovnpR32 (f : Form) : Statement (.cmovnpR32 f) := encode_length _
theorem cmovnpR64 (f : Form) : Statement (.cmovnpR64 f) := encode_length _
theorem cmovnsR16 (f : Form) : Statement (.cmovnsR16 f) := encode_length _
theorem cmovnsR32 (f : Form) : Statement (.cmovnsR32 f) := encode_length _
theorem cmovnsR64 (f : Form) : Statement (.cmovnsR64 f) := encode_length _
theorem cmovnzR16 (f : Form) : Statement (.cmovnzR16 f) := encode_length _
theorem cmovnzR32 (f : Form) : Statement (.cmovnzR32 f) := encode_length _
theorem cmovnzR64 (f : Form) : Statement (.cmovnzR64 f) := encode_length _
theorem cmovoR16 (f : Form) : Statement (.cmovoR16 f) := encode_length _
theorem cmovoR32 (f : Form) : Statement (.cmovoR32 f) := encode_length _
theorem cmovoR64 (f : Form) : Statement (.cmovoR64 f) := encode_length _
theorem cmovpR16 (f : Form) : Statement (.cmovpR16 f) := encode_length _
theorem cmovpR32 (f : Form) : Statement (.cmovpR32 f) := encode_length _
theorem cmovpR64 (f : Form) : Statement (.cmovpR64 f) := encode_length _
theorem cmovpeR16 (f : Form) : Statement (.cmovpeR16 f) := encode_length _
theorem cmovpeR32 (f : Form) : Statement (.cmovpeR32 f) := encode_length _
theorem cmovpeR64 (f : Form) : Statement (.cmovpeR64 f) := encode_length _
theorem cmovpoR16 (f : Form) : Statement (.cmovpoR16 f) := encode_length _
theorem cmovpoR32 (f : Form) : Statement (.cmovpoR32 f) := encode_length _
theorem cmovpoR64 (f : Form) : Statement (.cmovpoR64 f) := encode_length _
theorem cmovsR16 (f : Form) : Statement (.cmovsR16 f) := encode_length _
theorem cmovsR32 (f : Form) : Statement (.cmovsR32 f) := encode_length _
theorem cmovsR64 (f : Form) : Statement (.cmovsR64 f) := encode_length _
theorem cmovzR16 (f : Form) : Statement (.cmovzR16 f) := encode_length _
theorem cmovzR32 (f : Form) : Statement (.cmovzR32 f) := encode_length _
theorem cmovzR64 (f : Form) : Statement (.cmovzR64 f) := encode_length _

end Sys2Proof.Laws.EncodeLength
end

