-- ==== Sys2Proof/Tests/Slice0.lean ====
section
/-! SUPPORT. The model's own tests: the WellFormed smoke tests, the decoding of words written out from the spec's encodings,
the worked examples of 41_cmovcc_instructions.md, and for each statement with hypotheses a theorem that meets them. -/

namespace Sys2Proof.Tests

open Sys2Proof Sys2Proof.Machine

/-! ### Helpers -/

/-- The value an operation answers, if it answers one. -/
def valueOf {α : Type} : Res α → Option α
  | .next a => some a
  | _ => none

/-- The fault an operation ends in, if it does. -/
def faultOf {α : Type} : Res α → Option Fault
  | .fault x => some x
  | _ => none

/-- The refusal an operation ends in, if it does. -/
def refusalOf {α : Type} : Res α → Option Refusal
  | .refused x => some x
  | _ => none

theorem next_of {α : Type} {r : Res α} {a : α} (h : valueOf r = some a) : r = .next a := by
  cases r <;> simp_all [valueOf]

theorem goes_on {α : Type} {r : Res α} (h : (valueOf r).isSome = true) : ∃ a, r = .next a := by
  cases r <;> simp_all [valueOf]

theorem fault_of {α : Type} {r : Res α} {x : Fault} (h : faultOf r = some x) : r = .fault x := by
  cases r <;> simp_all [faultOf]

theorem refused_of {α : Type} {r : Res α} {x : Refusal} (h : refusalOf r = some x) : r = .refused x := by
  cases r <;> simp_all [refusalOf]

/-- A register and the program counter after a step that goes on. -/
def ends (r : Res State) (q : Reg) : Option (QWord × QWord) :=
  (valueOf r).map fun t => (t.reg q, t.pc)

/-- The exception a step raises, and its error code. -/
def raised (r : Res State) : Option (ExcKind × Option (BitVec 32)) :=
  match r with
  | .fault (.exception k c _ _) => some (k, c)
  | _ => none

/-- Bytes at an address of an otherwise empty map. -/
def bytesAt (a : Nat) (bs : List (BitVec 8)) : List Host.Cell :=
  Memory.writeFrom [] a bs

/-- A state with some registers set. -/
def withRegs (s : State) : List (Reg × QWord) → State
  | [] => s
  | (r, v) :: rest => withRegs (s.setReg r v) rest

/-- A flat segment: base 0, 4 GiB. -/
def flat : Segment := ⟨0x23#16, 0#64, 0xFFFFFFFF#32, false, true, true⟩

/-- Six flat segments. -/
def flats : SegRegs := ⟨flat, flat, flat, flat, flat, flat⟩

/-- A machine launched in a mode, flat, at privilege level 3 outside real-address mode, at 401000H in 64-bit mode and
1000H elsewhere. -/
def launched (m : Mode) (d : CodeSize) (fl : QWord) (regs : List (Reg × QWord)) (mem : List Host.Cell) : State :=
  withRegs { State.reset with
    mode := m, csD := d, cpl := if m = .real then 0#2 else 3#2, rflags := fl, segs := flats, mem := mem,
    pc := if m = .long64 then 0x401000#64 else 0x1000#64 } regs

/-- The start of the worked examples: 64-bit mode, flat, at 401000H. -/
def state64 (fl : QWord) (regs : List (Reg × QWord)) (mem : List Host.Cell) : State :=
  launched .long64 .d32 fl regs mem

/-- A state with another FS base. -/
def withFsBase (b : BitVec 64) (s : State) : State :=
  { s with segs := { s.segs with fs := { s.segs.fs with base := b } } }

/-- A state with another DS. -/
def withDs (g : Segment) (s : State) : State :=
  { s with segs := { s.segs with ds := g } }

/-- A state with another CS. -/
def withCs (g : Segment) (s : State) : State :=
  { s with segs := { s.segs with cs := g } }

/-- A state with alignment checking enabled. -/
def withAc (s : State) : State :=
  { s with acEnabled := true, rflags := s.rflags ||| 0x40000#64 }

/-- A state with an instruction's bytes in the program text at the program counter. -/
def withCode (bs : List Byte) (s : State) : State :=
  { s with code := bytesAt s.fetchAddress bs }

/-- Run bytes as an instruction of a constructor: the bytes must be its encoding, and decode to it or its synonym. -/
def asInstr (c : Form → Instr) (bs : List Byte) (s : State) : Res State :=
  match decode s.ctx bs with
  | .instr i _ => if encode (c i.form) = bs ∧ (c i.form).canonical = i then exec (c i.form) s else .refused .notEncodable
  | _ => .refused .notEncodable

/-- 64-bit mode. -/
def ctx64 : Ctx := ⟨.long64, .d32⟩

/-- 32-bit protected mode. -/
def ctx32 : Ctx := ⟨.prot, .d32⟩

/-- The register form with operand 1 numbered 0 and operand 2 numbered 3, after some prefixes. -/
def regForm (ps : List Prefix) : Form := ⟨ps, ⟨3#2, 0#3, 3#3⟩, none, .none⟩

/-- The memory form with operand 1 numbered 0 and the address in register 3, after some prefixes. -/
def memForm (ps : List Prefix) : Form := ⟨ps, ⟨0#2, 0#3, 3#3⟩, none, .none⟩

/-- The memory form with a 32-bit displacement and no base register, outside 64-bit mode. -/
def dispForm (ps : List Prefix) (d : BitVec 32) : Form := ⟨ps, ⟨0#2, 0#3, 5#3⟩, none, .disp32 d⟩

/-- REX.W alone. -/
def rexW1 : Prefix := .rex ⟨true, false, false, false⟩

/-! ### WellFormed: one ill-formed term for each check (R110) -/

theorem test_wf_accepts : (Instr.cmovaR32 (regForm [])).wf ctx64 = true ∧ (Instr.cmovaR16 (regForm [.opSize])).wf ctx64 = true ∧
    (Instr.cmovaR64 (regForm [rexW1])).wf ctx64 = true ∧ (Instr.cmovaR32 (memForm [.seg .fs])).wf ctx32 = true := by decide

/-- A REX byte outside 64-bit mode (R82). -/
theorem test_wf_rex_outside_long_mode : (Instr.cmovaR32 (regForm [.rex ⟨false, false, false, true⟩])).wf ctx32 = false := by decide

/-- An operand size that R90 does not give. -/
theorem test_wf_size : (Instr.cmovaR16 (regForm [])).wf ctx32 = false ∧ (Instr.cmovaR64 (regForm [])).wf ctx64 = false := by decide

/-- A SIB byte missing, and one too many (R86). -/
theorem test_wf_sib : (Instr.cmovaR32 ⟨[], ⟨0#2, 0#3, 4#3⟩, none, .none⟩).wf ctx32 = false ∧
    (Instr.cmovaR32 ⟨[], ⟨0#2, 0#3, 3#3⟩, some ⟨0#2, 0#3, 0#3⟩, .none⟩).wf ctx32 = false := by decide

/-- A displacement that R87 does not give. -/
theorem test_wf_disp : (Instr.cmovaR32 ⟨[], ⟨1#2, 0#3, 3#3⟩, none, .none⟩).wf ctx32 = false ∧
    (Instr.cmovaR32 ⟨[], ⟨0#2, 0#3, 5#3⟩, none, .disp8 0#8⟩).wf ctx32 = false := by decide

/-- LOCK (R92). -/
theorem test_wf_lock : (Instr.cmovaR32 (memForm [.lock])).wf ctx32 = false := by decide

/-- F2 and F3 (R94). -/
theorem test_wf_rep : (Instr.cmovaR32 (regForm [.repne])).wf ctx32 = false ∧
    (Instr.cmovaR32 (regForm [.rep])).wf ctx32 = false := by decide

/-- Two segment overrides (R95). -/
theorem test_wf_overrides : (Instr.cmovaR32 (memForm [.seg .ds, .seg .ds])).wf ctx32 = false := by decide

/-- A REX byte before another prefix (R106). -/
theorem test_wf_misplaced_rex : (Instr.cmovaR16 (regForm [rexW1, .opSize])).wf ctx64 = false := by decide

/-- Fifteen bytes are well formed, sixteen are not (R108). -/
theorem test_wf_length : (Instr.cmovaR16 (regForm (List.replicate 12 .opSize))).wf ctx64 = true ∧
    (Instr.cmovaR16 (regForm (List.replicate 13 .opSize))).wf ctx64 = false := by decide

/-! ### Decoding: the words of every constructor, from R83, R84, R85 and R90: `0F 4x C3` after no prefix, 66H and REX.W;
a synonym's words are the same (R113) -/

theorem test_opcode_40 :
    decode ctx64 [0x0F#8, 0x40#8, 0xC3#8] = .instr (.cmovoR32 (regForm [])) [] ∧
    decode ctx64 [0x66#8, 0x0F#8, 0x40#8, 0xC3#8] = .instr (.cmovoR16 (regForm [.opSize])) [] ∧
    decode ctx64 [0x48#8, 0x0F#8, 0x40#8, 0xC3#8] = .instr (.cmovoR64 (regForm [rexW1])) [] := by decide

theorem test_opcode_41 :
    decode ctx64 [0x0F#8, 0x41#8, 0xC3#8] = .instr (.cmovnoR32 (regForm [])) [] ∧
    decode ctx64 [0x66#8, 0x0F#8, 0x41#8, 0xC3#8] = .instr (.cmovnoR16 (regForm [.opSize])) [] ∧
    decode ctx64 [0x48#8, 0x0F#8, 0x41#8, 0xC3#8] = .instr (.cmovnoR64 (regForm [rexW1])) [] := by decide

theorem test_opcode_42 :
    decode ctx64 [0x0F#8, 0x42#8, 0xC3#8] = .instr (.cmovbR32 (regForm [])) [] ∧
    encode (.cmovcR32 (regForm [])) = [0x0F#8, 0x42#8, 0xC3#8] ∧
    encode (.cmovnaeR32 (regForm [])) = [0x0F#8, 0x42#8, 0xC3#8] ∧
    decode ctx64 [0x66#8, 0x0F#8, 0x42#8, 0xC3#8] = .instr (.cmovbR16 (regForm [.opSize])) [] ∧
    encode (.cmovcR16 (regForm [.opSize])) = [0x66#8, 0x0F#8, 0x42#8, 0xC3#8] ∧
    encode (.cmovnaeR16 (regForm [.opSize])) = [0x66#8, 0x0F#8, 0x42#8, 0xC3#8] ∧
    decode ctx64 [0x48#8, 0x0F#8, 0x42#8, 0xC3#8] = .instr (.cmovbR64 (regForm [rexW1])) [] ∧
    encode (.cmovcR64 (regForm [rexW1])) = [0x48#8, 0x0F#8, 0x42#8, 0xC3#8] ∧
    encode (.cmovnaeR64 (regForm [rexW1])) = [0x48#8, 0x0F#8, 0x42#8, 0xC3#8] := by decide

theorem test_opcode_43 :
    decode ctx64 [0x0F#8, 0x43#8, 0xC3#8] = .instr (.cmovaeR32 (regForm [])) [] ∧
    encode (.cmovnbR32 (regForm [])) = [0x0F#8, 0x43#8, 0xC3#8] ∧
    encode (.cmovncR32 (regForm [])) = [0x0F#8, 0x43#8, 0xC3#8] ∧
    decode ctx64 [0x66#8, 0x0F#8, 0x43#8, 0xC3#8] = .instr (.cmovaeR16 (regForm [.opSize])) [] ∧
    encode (.cmovnbR16 (regForm [.opSize])) = [0x66#8, 0x0F#8, 0x43#8, 0xC3#8] ∧
    encode (.cmovncR16 (regForm [.opSize])) = [0x66#8, 0x0F#8, 0x43#8, 0xC3#8] ∧
    decode ctx64 [0x48#8, 0x0F#8, 0x43#8, 0xC3#8] = .instr (.cmovaeR64 (regForm [rexW1])) [] ∧
    encode (.cmovnbR64 (regForm [rexW1])) = [0x48#8, 0x0F#8, 0x43#8, 0xC3#8] ∧
    encode (.cmovncR64 (regForm [rexW1])) = [0x48#8, 0x0F#8, 0x43#8, 0xC3#8] := by decide

theorem test_opcode_44 :
    decode ctx64 [0x0F#8, 0x44#8, 0xC3#8] = .instr (.cmoveR32 (regForm [])) [] ∧
    encode (.cmovzR32 (regForm [])) = [0x0F#8, 0x44#8, 0xC3#8] ∧
    decode ctx64 [0x66#8, 0x0F#8, 0x44#8, 0xC3#8] = .instr (.cmoveR16 (regForm [.opSize])) [] ∧
    encode (.cmovzR16 (regForm [.opSize])) = [0x66#8, 0x0F#8, 0x44#8, 0xC3#8] ∧
    decode ctx64 [0x48#8, 0x0F#8, 0x44#8, 0xC3#8] = .instr (.cmoveR64 (regForm [rexW1])) [] ∧
    encode (.cmovzR64 (regForm [rexW1])) = [0x48#8, 0x0F#8, 0x44#8, 0xC3#8] := by decide

theorem test_opcode_45 :
    decode ctx64 [0x0F#8, 0x45#8, 0xC3#8] = .instr (.cmovneR32 (regForm [])) [] ∧
    encode (.cmovnzR32 (regForm [])) = [0x0F#8, 0x45#8, 0xC3#8] ∧
    decode ctx64 [0x66#8, 0x0F#8, 0x45#8, 0xC3#8] = .instr (.cmovneR16 (regForm [.opSize])) [] ∧
    encode (.cmovnzR16 (regForm [.opSize])) = [0x66#8, 0x0F#8, 0x45#8, 0xC3#8] ∧
    decode ctx64 [0x48#8, 0x0F#8, 0x45#8, 0xC3#8] = .instr (.cmovneR64 (regForm [rexW1])) [] ∧
    encode (.cmovnzR64 (regForm [rexW1])) = [0x48#8, 0x0F#8, 0x45#8, 0xC3#8] := by decide

theorem test_opcode_46 :
    decode ctx64 [0x0F#8, 0x46#8, 0xC3#8] = .instr (.cmovbeR32 (regForm [])) [] ∧
    encode (.cmovnaR32 (regForm [])) = [0x0F#8, 0x46#8, 0xC3#8] ∧
    decode ctx64 [0x66#8, 0x0F#8, 0x46#8, 0xC3#8] = .instr (.cmovbeR16 (regForm [.opSize])) [] ∧
    encode (.cmovnaR16 (regForm [.opSize])) = [0x66#8, 0x0F#8, 0x46#8, 0xC3#8] ∧
    decode ctx64 [0x48#8, 0x0F#8, 0x46#8, 0xC3#8] = .instr (.cmovbeR64 (regForm [rexW1])) [] ∧
    encode (.cmovnaR64 (regForm [rexW1])) = [0x48#8, 0x0F#8, 0x46#8, 0xC3#8] := by decide

theorem test_opcode_47 :
    decode ctx64 [0x0F#8, 0x47#8, 0xC3#8] = .instr (.cmovaR32 (regForm [])) [] ∧
    encode (.cmovnbeR32 (regForm [])) = [0x0F#8, 0x47#8, 0xC3#8] ∧
    decode ctx64 [0x66#8, 0x0F#8, 0x47#8, 0xC3#8] = .instr (.cmovaR16 (regForm [.opSize])) [] ∧
    encode (.cmovnbeR16 (regForm [.opSize])) = [0x66#8, 0x0F#8, 0x47#8, 0xC3#8] ∧
    decode ctx64 [0x48#8, 0x0F#8, 0x47#8, 0xC3#8] = .instr (.cmovaR64 (regForm [rexW1])) [] ∧
    encode (.cmovnbeR64 (regForm [rexW1])) = [0x48#8, 0x0F#8, 0x47#8, 0xC3#8] := by decide

theorem test_opcode_48 :
    decode ctx64 [0x0F#8, 0x48#8, 0xC3#8] = .instr (.cmovsR32 (regForm [])) [] ∧
    decode ctx64 [0x66#8, 0x0F#8, 0x48#8, 0xC3#8] = .instr (.cmovsR16 (regForm [.opSize])) [] ∧
    decode ctx64 [0x48#8, 0x0F#8, 0x48#8, 0xC3#8] = .instr (.cmovsR64 (regForm [rexW1])) [] := by decide

theorem test_opcode_49 :
    decode ctx64 [0x0F#8, 0x49#8, 0xC3#8] = .instr (.cmovnsR32 (regForm [])) [] ∧
    decode ctx64 [0x66#8, 0x0F#8, 0x49#8, 0xC3#8] = .instr (.cmovnsR16 (regForm [.opSize])) [] ∧
    decode ctx64 [0x48#8, 0x0F#8, 0x49#8, 0xC3#8] = .instr (.cmovnsR64 (regForm [rexW1])) [] := by decide

theorem test_opcode_4A :
    decode ctx64 [0x0F#8, 0x4A#8, 0xC3#8] = .instr (.cmovpR32 (regForm [])) [] ∧
    encode (.cmovpeR32 (regForm [])) = [0x0F#8, 0x4A#8, 0xC3#8] ∧
    decode ctx64 [0x66#8, 0x0F#8, 0x4A#8, 0xC3#8] = .instr (.cmovpR16 (regForm [.opSize])) [] ∧
    encode (.cmovpeR16 (regForm [.opSize])) = [0x66#8, 0x0F#8, 0x4A#8, 0xC3#8] ∧
    decode ctx64 [0x48#8, 0x0F#8, 0x4A#8, 0xC3#8] = .instr (.cmovpR64 (regForm [rexW1])) [] ∧
    encode (.cmovpeR64 (regForm [rexW1])) = [0x48#8, 0x0F#8, 0x4A#8, 0xC3#8] := by decide

theorem test_opcode_4B :
    decode ctx64 [0x0F#8, 0x4B#8, 0xC3#8] = .instr (.cmovnpR32 (regForm [])) [] ∧
    encode (.cmovpoR32 (regForm [])) = [0x0F#8, 0x4B#8, 0xC3#8] ∧
    decode ctx64 [0x66#8, 0x0F#8, 0x4B#8, 0xC3#8] = .instr (.cmovnpR16 (regForm [.opSize])) [] ∧
    encode (.cmovpoR16 (regForm [.opSize])) = [0x66#8, 0x0F#8, 0x4B#8, 0xC3#8] ∧
    decode ctx64 [0x48#8, 0x0F#8, 0x4B#8, 0xC3#8] = .instr (.cmovnpR64 (regForm [rexW1])) [] ∧
    encode (.cmovpoR64 (regForm [rexW1])) = [0x48#8, 0x0F#8, 0x4B#8, 0xC3#8] := by decide

theorem test_opcode_4C :
    decode ctx64 [0x0F#8, 0x4C#8, 0xC3#8] = .instr (.cmovlR32 (regForm [])) [] ∧
    encode (.cmovngeR32 (regForm [])) = [0x0F#8, 0x4C#8, 0xC3#8] ∧
    decode ctx64 [0x66#8, 0x0F#8, 0x4C#8, 0xC3#8] = .instr (.cmovlR16 (regForm [.opSize])) [] ∧
    encode (.cmovngeR16 (regForm [.opSize])) = [0x66#8, 0x0F#8, 0x4C#8, 0xC3#8] ∧
    decode ctx64 [0x48#8, 0x0F#8, 0x4C#8, 0xC3#8] = .instr (.cmovlR64 (regForm [rexW1])) [] ∧
    encode (.cmovngeR64 (regForm [rexW1])) = [0x48#8, 0x0F#8, 0x4C#8, 0xC3#8] := by decide

theorem test_opcode_4D :
    decode ctx64 [0x0F#8, 0x4D#8, 0xC3#8] = .instr (.cmovgeR32 (regForm [])) [] ∧
    encode (.cmovnlR32 (regForm [])) = [0x0F#8, 0x4D#8, 0xC3#8] ∧
    decode ctx64 [0x66#8, 0x0F#8, 0x4D#8, 0xC3#8] = .instr (.cmovgeR16 (regForm [.opSize])) [] ∧
    encode (.cmovnlR16 (regForm [.opSize])) = [0x66#8, 0x0F#8, 0x4D#8, 0xC3#8] ∧
    decode ctx64 [0x48#8, 0x0F#8, 0x4D#8, 0xC3#8] = .instr (.cmovgeR64 (regForm [rexW1])) [] ∧
    encode (.cmovnlR64 (regForm [rexW1])) = [0x48#8, 0x0F#8, 0x4D#8, 0xC3#8] := by decide

theorem test_opcode_4E :
    decode ctx64 [0x0F#8, 0x4E#8, 0xC3#8] = .instr (.cmovleR32 (regForm [])) [] ∧
    encode (.cmovngR32 (regForm [])) = [0x0F#8, 0x4E#8, 0xC3#8] ∧
    decode ctx64 [0x66#8, 0x0F#8, 0x4E#8, 0xC3#8] = .instr (.cmovleR16 (regForm [.opSize])) [] ∧
    encode (.cmovngR16 (regForm [.opSize])) = [0x66#8, 0x0F#8, 0x4E#8, 0xC3#8] ∧
    decode ctx64 [0x48#8, 0x0F#8, 0x4E#8, 0xC3#8] = .instr (.cmovleR64 (regForm [rexW1])) [] ∧
    encode (.cmovngR64 (regForm [rexW1])) = [0x48#8, 0x0F#8, 0x4E#8, 0xC3#8] := by decide

theorem test_opcode_4F :
    decode ctx64 [0x0F#8, 0x4F#8, 0xC3#8] = .instr (.cmovgR32 (regForm [])) [] ∧
    encode (.cmovnleR32 (regForm [])) = [0x0F#8, 0x4F#8, 0xC3#8] ∧
    decode ctx64 [0x66#8, 0x0F#8, 0x4F#8, 0xC3#8] = .instr (.cmovgR16 (regForm [.opSize])) [] ∧
    encode (.cmovnleR16 (regForm [.opSize])) = [0x66#8, 0x0F#8, 0x4F#8, 0xC3#8] ∧
    decode ctx64 [0x48#8, 0x0F#8, 0x4F#8, 0xC3#8] = .instr (.cmovgR64 (regForm [rexW1])) [] ∧
    encode (.cmovnleR64 (regForm [rexW1])) = [0x48#8, 0x0F#8, 0x4F#8, 0xC3#8] := by decide

/-- The table's word of `CMOVcc r16` rows with ModR/M C3: `0F 47` in bits 15:0, `0F` above, C3 in bits 23:16 (log 4). -/
theorem test_table_word : decodeTableWord 24 0xC30F47 = some (.cmovaR16 (regForm [])) ∧
    decodeTableWord 24 0xC30F4F = some (.cmovgR16 (regForm [])) := by decide

/-- Addressing forms of 95_test_vectors.md section 3: 16-bit [BP+DI-2], SIB with RBP as base, RIP-relative, 32-bit moffs. -/
theorem test_decode_forms :
    decode ⟨.real, .d16⟩ [0x0F#8, 0x44#8, 0x43#8, 0xFE#8] = .instr (.cmoveR16 ⟨[], ⟨1#2, 0#3, 3#3⟩, none, .disp8 0xFE#8⟩) [] ∧
    decode ctx64 [0x4A#8, 0x0F#8, 0x43#8, 0x4C#8, 0xE5#8, 0xF0#8] =
      .instr (.cmovaeR64 ⟨[.rex ⟨true, false, true, false⟩], ⟨1#2, 1#3, 4#3⟩, some ⟨3#2, 4#3, 5#3⟩, .disp8 0xF0#8⟩) [] ∧
    decode ctx64 [0x0F#8, 0x4C#8, 0x0D#8, 0x10#8, 0x00#8, 0x00#8, 0x00#8] =
      .instr (.cmovlR32 ⟨[], ⟨0#2, 1#3, 5#3⟩, none, .disp32 0x10#32⟩) [] ∧
    decode ctx32 [0x0F#8, 0x44#8, 0x05#8, 0x78#8, 0x56#8, 0x34#8, 0x12#8, 0x90#8] =
      .instr (.cmoveR32 (dispForm [] 0x12345678#32)) [0x90#8] := by decide

/-- What is no CMOVcc, and what ends too early. -/
theorem test_decode_rejects :
    decode ctx64 [0x0F#8, 0xA2#8] = .notCmov 0x0F#8 (some 0xA2#8) ∧ decode ctx64 [0x66#8, 0x90#8] = .notCmov 0x90#8 none ∧
    decode ctx32 [0x48#8, 0x0F#8, 0x44#8, 0xC3#8] = .notCmov 0x48#8 none ∧ decode ctx64 [0x0F#8, 0x44#8] = .truncated ∧
    decode ctx64 [0x0F#8, 0x44#8, 0x05#8, 0x00#8] = .truncated := by decide

/-! ### The worked examples of 41_cmovcc_instructions.md, one for each mnemonic -/

/-- R160. -/
theorem test_cmova :
    ends (asInstr Instr.cmovaR32 [0x0F, 0x47, 0xC3]
        (state64 0x002 [(0, 0xFFFFFFFF11111111), (3, 0x2222222233333333)] [])) 0#4 =
      some (0x0000000033333333#64, 0x401003#64) := by decide

/-- R161. -/
theorem test_cmovae :
    ends (asInstr Instr.cmovaeR16 [0x66, 0x0F, 0x43, 0xCA]
        (state64 0x042 [(1, 0xAAAAAAAABBBBCCCC), (2, 0x1111111122223333)] [])) 1#4 =
      some (0xAAAAAAAABBBB3333#64, 0x401004#64) := by decide

/-- R162. -/
theorem test_cmovb :
    ends (asInstr Instr.cmovbR64 [0x48, 0x0F, 0x42, 0xF7]
        (state64 0x003 [(6, 0x0000000000000001), (7, 0xFEDCBA9876543210)] [])) 6#4 =
      some (0xFEDCBA9876543210#64, 0x401004#64) := by decide

/-- R163. -/
theorem test_cmovbe :
    ends (asInstr Instr.cmovbeR32 [0x0F, 0x46, 0x13]
        (state64 0x042 [(2, 0xDDDDDDDDDDDDDDDD), (3, 0x0000000000010000)]
         (bytesAt 0x10000 [0x11, 0x22, 0x33, 0x44, 0x55, 0x66, 0x77, 0x88]))) 2#4 =
      some (0x0000000044332211#64, 0x401003#64) := by decide

/-- R164. -/
theorem test_cmovc :
    ends (asInstr Instr.cmovcR64 [0x4D, 0x0F, 0x42, 0xC1]
        (state64 0x002 [(8, 0x0123456789ABCDEF), (9, 0x5555555555555555)] [])) 8#4 =
      some (0x0123456789ABCDEF#64, 0x401004#64) := by decide

/-- R165. -/
theorem test_cmove :
    ends (asInstr Instr.cmoveR32 [0x44, 0x0F, 0x44, 0x07]
        (state64 0x002 [(8, 0xFFFFFFFF00000007), (7, 0x0000000000020000)]
         (bytesAt 0x20000 [0xBE, 0xBA, 0xFE, 0xCA]))) 8#4 = some (0x0000000000000007#64, 0x401004#64) := by decide

/-- R166. -/
theorem test_cmovg :
    ends (asInstr Instr.cmovgR16 [0x66, 0x45, 0x0F, 0x4F, 0xCA]
        (state64 0x882 [(9, 0x99999999AAAA0000), (10, 0x000000000000BEEF)] [])) 9#4 =
      some (0x99999999AAAABEEF#64, 0x401005#64) := by decide

/-- R167. -/
theorem test_cmovge :
    ends (asInstr Instr.cmovgeR64 [0x48, 0x0F, 0x4D, 0x44, 0x24, 0x08]
        (state64 0x002 [(0, 0x0000000000000000), (4, 0x00007FFFFFFFE000)]
         (bytesAt 0x7FFFFFFFE008 [0x88, 0x77, 0x66, 0x55, 0x44, 0x33, 0x22, 0x11]))) 0#4 =
      some (0x1122334455667788#64, 0x401006#64) := by decide

/-- R168. -/
theorem test_cmovl :
    ends (asInstr Instr.cmovlR32 [0x0F, 0x4C, 0x0D, 0x10, 0x00, 0x00, 0x00]
        (state64 0x082 [(1, 0xFFFFFFFFFFFFFFFF)]
         (bytesAt 0x401017 [0x2A, 0x00, 0x00, 0x00]))) 1#4 = some (0x000000000000002A#64, 0x401007#64) := by decide

/-- R169. -/
theorem test_cmovle :
    ends (asInstr Instr.cmovleR32 [0x0F, 0x4E, 0xC0]
        (state64 0x882 [(0, 0xDEADBEEF00C0FFEE)] [])) 0#4 = some (0x0000000000C0FFEE#64, 0x401003#64) := by decide

/-- R170. -/
theorem test_cmovna :
    ends (asInstr Instr.cmovnaR16 [0x66, 0x0F, 0x46, 0x1C, 0x7E]
        (state64 0x003 [(3, 0x1111111111111111), (6, 0x0000000000030000), (7, 0x0000000000000008)]
         (bytesAt 0x30010 [0xCD, 0xAB]))) 3#4 = some (0x111111111111ABCD#64, 0x401005#64) := by decide

/-- R171. -/
theorem test_cmovnae :
    ends (asInstr Instr.cmovnaeR32 [0x0F, 0x42, 0x94, 0x8B, 0x78, 0x56, 0x34, 0x12]
        (state64 0x003 [(2, 0xFFFFFFFFFFFFFFFF), (3, 0x0000000000001000), (1, 0x0000000000000002)]
         (bytesAt 0x12346680 [0x00, 0x00, 0x00, 0x80]))) 2#4 = some (0x0000000080000000#64, 0x401008#64) := by decide

/-- R172. -/
theorem test_cmovnb :
    ends (asInstr Instr.cmovnbR64 [0x4A, 0x0F, 0x43, 0x4C, 0xE5, 0xF0]
        (state64 0x003 [(1, 0x7777777777777777), (5, 0x0000000000050010), (12, 0x0000000000000002)]
         (bytesAt 0x50010 [0x08, 0x07, 0x06, 0x05, 0x04, 0x03, 0x02, 0x01]))) 1#4 =
      some (0x7777777777777777#64, 0x401006#64) := by decide

/-- R173. -/
theorem test_cmovnbe :
    ends (asInstr Instr.cmovnbeR32 [0x0F, 0x47, 0xC3]
        (state64 0x003 [(0, 0xFFFFFFFF11111111), (3, 0x2222222233333333)] [])) 0#4 =
      some (0x0000000011111111#64, 0x401003#64) := by decide

/-- R174. -/
theorem test_cmovnc :
    ends (asInstr Instr.cmovncR16 [0x66, 0x45, 0x0F, 0x43, 0x7D, 0x00]
        (state64 0x002 [(15, 0xFFFFFFFFFFFFFFFF), (13, 0x0000000000060000)]
         (bytesAt 0x60000 [0x34, 0x12]))) 15#4 = some (0xFFFFFFFFFFFF1234#64, 0x401006#64) := by decide

/-- R175. -/
theorem test_cmovne :
    raised (asInstr Instr.cmovneR64 [0x48, 0x0F, 0x45, 0x03]
        (state64 0x042 [(0, 0x0000000000000001), (3, 0x0000800000000000)] [])) = some (.gp, some 0#32) := by decide

/-- R176. -/
theorem test_cmovng :
    ends (asInstr Instr.cmovngR32 [0x0F, 0x4E, 0xF7]
        (state64 0x042 [(6, 0x1111111122222222), (7, 0x3333333344444444)] [])) 6#4 =
      some (0x0000000044444444#64, 0x401003#64) := by decide

/-- R177. -/
theorem test_cmovnge :
    ends (asInstr Instr.cmovngeR64 [0x48, 0x0F, 0x4C, 0xD0]
        (state64 0x802 [(2, 0x0000000000000000), (0, 0x8000000000000000)] [])) 2#4 =
      some (0x8000000000000000#64, 0x401004#64) := by decide

/-- R178. -/
theorem test_cmovnl :
    ends (asInstr Instr.cmovnlR16 [0x66, 0x0F, 0x4D, 0xC3]
        (state64 0x082 [(0, 0x00000000AAAABBBB), (3, 0x000000000000CCCC)] [])) 0#4 =
      some (0x00000000AAAABBBB#64, 0x401004#64) := by decide

/-- R179. -/
theorem test_cmovnle :
    ends (asInstr Instr.cmovnleR64 [0x64, 0x4C, 0x0F, 0x4F, 0x18]
        (withFsBase 0x00007F0000001000 (state64 0x002 [(11, 0x0000000000000000), (0, 0x0000000000000028)]
         (bytesAt 0x7F0000001028 [0x5A, 0x5A, 0x5A, 0x5A, 0xA5, 0xA5, 0xA5, 0xA5])))) 11#4 =
      some (0xA5A5A5A55A5A5A5A#64, 0x401005#64) := by decide

/-- R180. -/
theorem test_cmovno :
    ends (asInstr Instr.cmovnoR32 [0x0F, 0x41, 0x04, 0x25, 0x00, 0x10, 0x00, 0x00]
        (state64 0x002 [(0, 0xFFFFFFFFFFFFFFFF)]
         (bytesAt 0x1000 [0x01, 0x00, 0x00, 0x00]))) 0#4 = some (0x0000000000000001#64, 0x401008#64) := by decide

/-- R181. -/
theorem test_cmovnp :
    ends (asInstr Instr.cmovnpR32 [0x0F, 0x4B, 0xEC]
        (state64 0x002 [(5, 0xAAAAAAAAAAAAAAAA), (4, 0x00007FFF12345678)] [])) 5#4 =
      some (0x0000000012345678#64, 0x401003#64) := by decide

/-- R182. -/
theorem test_cmovns :
    ends (asInstr Instr.cmovnsR64 [0x48, 0x0F, 0x49, 0x40, 0x08]
        (state64 0x002 [(0, 0x0000000000070000)]
         (bytesAt 0x70008 [0x00, 0x01, 0x07, 0x00, 0x00, 0x00, 0x00, 0x00]))) 0#4 =
      some (0x0000000000070100#64, 0x401005#64) := by decide

/-- R183. -/
theorem test_cmovnz :
    ends (asInstr Instr.cmovnzR32 [0x67, 0x0F, 0x45, 0x03]
        (state64 0x002 [(0, 0x0000000000000000), (3, 0xFFFFFFFF00080000)]
         (bytesAt 0x80000 [0xDF, 0x9B, 0x57, 0x13]))) 0#4 = some (0x0000000013579BDF#64, 0x401004#64) := by decide

/-- R184. -/
theorem test_cmovo :
    ends (asInstr Instr.cmovoR32 [0x45, 0x0F, 0x40, 0xE5]
        (state64 0x802 [(12, 0xCCCCCCCCCCCCCCCC), (13, 0xDDDDDDDD0000000D)] [])) 12#4 =
      some (0x000000000000000D#64, 0x401004#64) := by decide

/-- R185. -/
theorem test_cmovp :
    ends (asInstr Instr.cmovpR16 [0x66, 0x0F, 0x4A, 0x53, 0x01]
        (state64 0x006 [(2, 0xFFFFFFFFFFFF0000), (3, 0x0000000000090000)]
         (bytesAt 0x90000 [0x11, 0x22, 0x33, 0x44]))) 2#4 = some (0xFFFFFFFFFFFF3322#64, 0x401005#64) := by decide

/-- R186. -/
theorem test_cmovpe :
    ends (asInstr Instr.cmovpeR64 [0x48, 0x0F, 0x4A, 0xC3]
        (state64 0x002 [(0, 0x1111111111111111), (3, 0x2222222222222222)] [])) 0#4 =
      some (0x1111111111111111#64, 0x401004#64) := by decide

/-- R187. -/
theorem test_cmovpo :
    ends (asInstr Instr.cmovpoR32 [0x0F, 0x4B, 0x04, 0x24]
        (state64 0x002 [(0, 0xFFFFFFFFFFFFFFFF), (4, 0x00007FFFFFFFE000)]
         (bytesAt 0x7FFFFFFFE000 [0x0D, 0xF0, 0xAD, 0x0B]))) 0#4 =
      some (0x000000000BADF00D#64, 0x401004#64) := by decide

/-- R188. -/
theorem test_cmovs :
    ends (asInstr Instr.cmovsR64 [0x4D, 0x0F, 0x48, 0x7D, 0x00]
        (state64 0x082 [(15, 0x0000000000000000), (13, 0x00000000000A0000)]
         (bytesAt 0xA0000 [0xFE, 0xFF, 0xFF, 0xFF, 0xFF, 0xFF, 0xFF, 0xFF]))) 15#4 =
      some (0xFFFFFFFFFFFFFFFE#64, 0x401005#64) := by decide

/-- R189. -/
theorem test_cmovz :
    ends (asInstr Instr.cmovzR32 [0x41, 0x0F, 0x44, 0x04, 0x24]
        (state64 0x042 [(0, 0x9999999999999999), (12, 0x00000000000B0000)]
         (bytesAt 0xB0000 [0x00, 0x00, 0x00, 0x00]))) 0#4 = some (0x0000000000000000#64, 0x401005#64) := by decide

/-! ### The hypotheses of the statements are met -/

/-- `[RBX]` holds eight bytes, all five flags are set. -/
def memState : State := state64 0x8C7#64 [(0, 0xFFFFFFFF11111111#64), (3, 0x10000#64)]
  (bytesAt 0x10000 [0x11, 0x22, 0x33, 0x44, 0x55, 0x66, 0x77, 0x88])

/-- The same with no flag set. -/
def clearState : State := { memState with rflags := 0x002#64 }

/-- 32-bit protected mode, `[EBX]` holds four bytes. -/
def protState : State := launched .prot .d32 0x8C7#64 [(0, 0x11111111#64), (3, 0x10000#64)]
  (bytesAt 0x10000 [0x11, 0x22, 0x33, 0x44])

/-- A segment of real-address mode at 0. -/
def low : Segment := ⟨0#16, 0#64, 0xFFFF#32, false, false, true⟩

/-- Real-address mode with all segments at 0. -/
def realState (regs : List (Reg × QWord)) (mem : List Host.Cell) : State :=
  { launched .real .d16 0x2#64 regs mem with segs := ⟨low, low, low, low, low, low⟩ }

/-- An operand that passes 2^32: DS at FFFFFFF0H, EBX at 0EH, two bytes below 2^32 and two from 0 on (R53, R56). -/
def wrapState : State :=
  { withDs { flat with base := 0xFFFFFFF0#64 } (protState.setReg 3#4 0xE#64) with
    mem := [(0, 3#8), (1, 4#8), (0xFFFFFFFE, 1#8), (0xFFFFFFFF, 2#8)] }

theorem nonCanonical_of {w : LinearBits} {a : BitVec 64} (h : canonical w a = false) : NonCanonicalAddress w a :=
  not_not.mp fun hn => by simp [canonical_eq_true.mpr hn] at h

theorem notWritten_of {s : State} {p : Nat} (h : s.readOracle.all (fun w => Memory.read w p == none) = true) :
    NotWrittenByOthers s p := by
  intro w hw
  simpa using List.all_eq_true.mp h w hw

/-- DecodeOfEncodeIsCanonical, EncodeOfDecodeGivesTheBytesBack, SynonymsEncodeAlike. -/
theorem witness_encoding :
    (Instr.cmovnbR64 ⟨[.rex ⟨true, false, true, false⟩], ⟨1#2, 1#3, 4#3⟩, some ⟨3#2, 4#3, 5#3⟩, .disp8 0xF0#8⟩).encodable ctx64 = true ∧
    decode ctx32 [0xF0#8, 0x0F#8, 0x40#8, 0xC3#8, 0x90#8] = .instr (.cmovoR32 (regForm [.lock])) [0x90#8] ∧
    (Instr.cmovaR32 (regForm [])).encodable ctx32 = true ∧ (Instr.cmovnbeR32 (regForm [])).encodable ctx32 = true ∧
    (Instr.cmovaR32 (regForm [])).canonical = (Instr.cmovnbeR32 (regForm [])).canonical := by decide

/-- OtherOpcodesAreRejected: each clause. -/
theorem witness_OtherOpcodesAreRejected :
    (∀ p ∈ [Prefix.opSize, rexW1], ctx64.mode = .long64 ∨ p.isRex = false) ∧ Prefix.ofByte ctx64 0x90#8 = none ∧
    (0x90#8 : Byte) ≠ 0x0F#8 ∧ (0x3F#8 : Byte).extractLsb' 4 4 ≠ 4#4 ∧ (0x50#8 : Byte).extractLsb' 4 4 ≠ 4#4 ∧
    fetch (withCode [0x66, 0x48, 0x90] memState) = [Prefix.opSize, rexW1].map Prefix.byte ++ [0x90] ∧
    fetch (withCode [0x66, 0x48, 0x0F, 0xA2] memState) = [Prefix.opSize, rexW1].map Prefix.byte ++ [0x0F, 0xA2] := by decide

/-- OperandAndAddressSizeByPrefixes: each clause. -/
theorem witness_OperandAndAddressSizeByPrefixes :
    rexW [.opSize, rexW1] = true ∧ rexW [rexW1, .opSize] = false ∧ Prefix.opSize ∈ [rexW1, .opSize] ∧
    Prefix.opSize ∉ [Prefix.addrSize] ∧ Prefix.addrSize ∈ [Prefix.addrSize] ∧ Prefix.addrSize ∉ [rexW1, .opSize] ∧
    ctx32.mode ≠ .long64 ∧ ctx32.mode ≠ .real ∧ ctx32.mode ≠ .v86 ∧ ctx32.csD = .d32 := by decide

/-- SixtyFourBitFormsOnlyInLongMode. -/
theorem witness_SixtyFourBitFormsOnlyInLongMode :
    (Instr.cmovaR64 (regForm [rexW1])).size = .w64 ∧ (Instr.cmovaR64 (regForm [rexW1])).encodable ctx64 = true := by decide

/-- StepRunsTheDecodedInstruction, StepRunsTheEncodedInstruction. -/
theorem witness_StepRunsTheInstruction :
    decode ctx64 (fetch (withCode [0x0F, 0x47, 0xC3, 0x90] memState)) = .instr (.cmovaR32 (regForm [])) [0x90] ∧
    (Instr.cmovnbeR32 (regForm [])).encodable ctx64 = true ∧
    fetch (withCode [0x0F, 0x47, 0xC3, 0x90] memState) = encode (.cmovnbeR32 (regForm [])) ++ [0x90] := by decide

/-- FetchReadsTheProgramText: a text in canonical form; and the last address below each
bound: 2^64, the widths of EIP and IP, the CS limit, 2^32; and CS + EIP modulo 2^32, which is 0. -/
theorem witness_FetchReadsTheProgramText :
    Memory.wf (withCode [0x0F, 0x47, 0xC3] memState).code ∧
    fetch (withCode [0x0F, 0x47] { memState with pc := 0xFFFFFFFFFFFFFFFF }) = [0x0F] ∧
    fetch (withCode [0x0F, 0x47] { protState with pc := 0xFFFFFFFF }) = [0x0F] ∧
    fetch (withCode [0x0F, 0x47] { realState [] [] with pc := 0xFFFF }) = [0x0F] ∧
    fetch (withCode [0x0F, 0x47] (withCs { flat with limit := 0x1000#32 } protState)) = [0x0F] ∧
    fetch (withCode [0x0F, 0x47] (withCs { flat with base := 0xFFFFEFFF#64 } protState)) = [0x0F] ∧
    fetch (withCode [0x0F, 0x47] (withCs { flat with base := 0xFFFFF000#64 } protState)) = [0x0F, 0x47] := by decide

/-- FetchOutsideTheTextIsRefused: nothing in the text, and all but the last byte. -/
theorem witness_FetchOutsideTheTextIsRefused :
    (Instr.cmovaR32 (regForm [])).encodable memState.ctx = true ∧
    fetch memState ++ [0x0F, 0x47, 0xC3] = encode (.cmovaR32 (regForm [])) ∧
    fetch (withCode [0x0F, 0x47] memState) ++ [0xC3] = encode (.cmovaR32 (regForm [])) := by decide

/-- The hypotheses of the statements `...PairMovesByItsFlags` at a state. -/
abbrev PairHypotheses (s : State) (f16 f32 f64 : Form) (t16 t32 t64 : QWord) : Prop :=
  (Admitted .w16 f16 s ∧ readSource .w16 f16 s = .next t16) ∧ (Admitted .w32 f32 s ∧ readSource .w32 f32 s = .next t32) ∧
    (Admitted .w64 f64 s ∧ readSource .w64 f64 s = .next t64)

/-- OverflowPair, CarryPair, ZeroPair, BelowOrEqualPair, SignPair, ParityPair, LessPair, LessOrEqualPairMovesByItsFlags:
register and memory forms, with all the flags set. -/
theorem witness_PairMovesByItsFlags :
    PairHypotheses memState (regForm [.opSize]) (regForm []) (regForm [rexW1]) 0#64 0x10000#64 0x10000#64 ∧
    PairHypotheses memState (memForm [.opSize]) (memForm []) (memForm [rexW1]) 0x2211#64 0x44332211#64 0x8877665544332211#64 :=
  ⟨⟨⟨by decide, next_of (by decide)⟩, ⟨by decide, next_of (by decide)⟩, ⟨by decide, next_of (by decide)⟩⟩,
    ⟨⟨by decide, next_of (by decide)⟩, ⟨by decide, next_of (by decide)⟩, ⟨by decide, next_of (by decide)⟩⟩⟩

/-- The same with no flag set: the other half of each pair moves. -/
theorem witness_PairMovesByItsFlags_clear :
    PairHypotheses clearState (memForm [.opSize]) (memForm []) (memForm [rexW1]) 0x2211#64 0x44332211#64 0x8877665544332211#64 :=
  ⟨⟨by decide, next_of (by decide)⟩, ⟨by decide, next_of (by decide)⟩, ⟨by decide, next_of (by decide)⟩⟩

/-- RegisterFormCompletes. -/
theorem witness_RegisterFormCompletes :
    Admitted .w32 (regForm []) protState ∧ (regForm []).modrm.mod = 3#2 := by decide

/-- A quadword at the last canonical addresses of the lower half. -/
def lastCanonical : State := state64 0x2#64 [(3, 0x7FFFFFFFFFF8#64)] (bytesAt 0x7FFFFFFFFFF8 [1, 2, 3, 4, 5, 6, 7, 8])

/-- A quadword at the top of the address space. -/
def topOfMemory : State := state64 0x2#64 [(3, 0xFFFFFFFFFFFFFFF8#64)] (bytesAt 0xFFFFFFFFFFFFFFF8 [1, 2, 3, 4, 5, 6, 7, 8])

/-- The hypotheses of LongModeMemoryFormCompletes for a quadword form. -/
abbrev LongHypotheses (f : Form) (s : State) (lin : BitVec 64) (v : QWord) : Prop :=
  Admitted .w64 f s ∧ f.modrm.mod ≠ 3#2 ∧ s.mode = .long64 ∧ IsLinearAddress s (memRef s f) lin ∧
    (∀ k < 8, ¬ NonCanonicalAddress s.linearBits (lin + BitVec.ofNat 64 k)) ∧ lin.toNat + 8 ≤ 2 ^ 64 ∧ AlignmentOk s lin 8 ∧
    BytesReadable s lin 8 v

/-- LongModeMemoryFormCompletes: at the last canonical address of the lower half, aligned where that is checked; at the top
of the address space; and through FS, whose base is added, modulo 2^64. -/
theorem witness_LongModeMemoryFormCompletes :
    LongHypotheses (memForm [rexW1]) (withAc lastCanonical) 0x7FFFFFFFFFF8#64 0x0807060504030201#64 ∧
    LongHypotheses (memForm [rexW1]) topOfMemory 0xFFFFFFFFFFFFFFF8#64 0x0807060504030201#64 ∧
    LongHypotheses (memForm [.seg .fs, rexW1]) (withFsBase 0x10#64 { topOfMemory with mem := bytesAt 8 [1, 2, 3, 4, 5, 6, 7, 8] })
      8#64 0x0807060504030201#64 :=
  ⟨⟨by decide, by decide, by decide, linear_eq.mp (by decide), everyByteCanonical_iff.mp (allCanonical_eq_true.mp (by decide)),
      by decide, by decide, (memRead_eq_next (by decide)).mp (next_of (by decide))⟩,
    ⟨by decide, by decide, by decide, linear_eq.mp (by decide), everyByteCanonical_iff.mp (allCanonical_eq_true.mp (by decide)),
      by decide, by decide, (memRead_eq_next (by decide)).mp (next_of (by decide))⟩,
    ⟨by decide, by decide, by decide, linear_eq.mp (by decide), everyByteCanonical_iff.mp (allCanonical_eq_true.mp (by decide)),
      by decide, by decide, (memRead_eq_next (by decide)).mp (next_of (by decide))⟩⟩

/-- The hypotheses of LegacyMemoryFormCompletes. -/
abbrev LegacyHypotheses (n : OpSize) (f : Form) (s : State) (lin : BitVec 64) (v : QWord) : Prop :=
  Admitted n f s ∧ f.modrm.mod ≠ 3#2 ∧ s.mode ≠ .long64 ∧ IsLinearAddress s (memRef s f) lin ∧
    LegacyAccessOk s (memRef s f) (opBytes n) ∧ AlignmentOk s lin (opBytes n) ∧ BytesReadable s lin (opBytes n) v

/-- LegacyMemoryFormCompletes: the last word below the limit in real-address mode, the last doubleword of a 4 GiB segment, the
first above the limit of an expand-down segment, and one whose linear bytes pass 2^32. -/
theorem witness_LegacyMemoryFormCompletes :
    LegacyHypotheses .w16 ⟨[], ⟨0#2, 0#3, 7#3⟩, none, .none⟩
      (realState [(3, 0xFFFE#64)] (bytesAt 0xFFFE [0x34, 0x12])) 0xFFFE#64 0x1234#64 ∧
    LegacyHypotheses .w32 (dispForm [] 0xFFFFFFFC#32) { protState with mem := bytesAt 0xFFFFFFFC [1, 2, 3, 4] } 0xFFFFFFFC#64
      0x04030201#64 ∧
    LegacyHypotheses .w32 (memForm []) (withDs { flat with expandDown := true, limit := 0xFFFF#32 } protState) 0x10000#64
      0x44332211#64 ∧
    LegacyHypotheses .w32 (memForm []) wrapState 0xFFFFFFFE#64 0x04030201#64 :=
  ⟨⟨by decide, by decide, by decide, linear_eq.mp (by decide), ⟨by decide, by decide, by decide⟩, by decide,
      (memRead_eq_next (by decide)).mp (next_of (by decide))⟩,
    ⟨by decide, by decide, by decide, linear_eq.mp (by decide), ⟨by decide, by decide, by decide⟩, by decide,
      (memRead_eq_next (by decide)).mp (next_of (by decide))⟩,
    ⟨by decide, by decide, by decide, linear_eq.mp (by decide), ⟨by decide, by decide, by decide⟩, by decide,
      (memRead_eq_next (by decide)).mp (next_of (by decide))⟩,
    ⟨by decide, by decide, by decide, linear_eq.mp (by decide), ⟨by decide, by decide, by decide⟩, by decide,
      (memRead_eq_next (by decide)).mp (next_of (by decide))⟩⟩

/-- SynonymsHaveOneEffect, FaultsIgnoreTheCondition: two instructions of one condition, or only of one size and form. -/
theorem witness_SynonymsHaveOneEffect :
    (Instr.cmovaR32 (memForm [])).cond = (Instr.cmovnbeR32 (memForm [])).cond ∧
    (Instr.cmovaR32 (memForm [])).size = (Instr.cmovnbeR32 (memForm [])).size ∧
    (Instr.cmovaR32 (memForm [])).form = (Instr.cmovnbeR32 (memForm [])).form ∧
    (Instr.cmovaR32 (memForm [])).size = (Instr.cmovoR32 (memForm [])).size ∧
    (Instr.cmovaR32 (memForm [])).form = (Instr.cmovoR32 (memForm [])).form := by decide

/-- DestinationAfterCompletion: each clause, in the order of the statement. -/
theorem witness_DestinationAfterCompletion :
    ((∃ s', exec (.cmoveR16 (memForm [.opSize])) memState = .next s') ∧ readSource .w16 (memForm [.opSize]) memState = .next 0x2211#64 ∧
      condHolds .e memState.flags = true) ∧
    ((∃ s', exec (.cmoveR32 (memForm [])) clearState = .next s') ∧ readSource .w32 (memForm []) clearState = .next 0x44332211#64 ∧
      clearState.ia32eActive = true) ∧
    ((∃ s', exec (.cmoveR32 (memForm [])) protState = .next s') ∧ readSource .w32 (memForm []) protState = .next 0x44332211#64 ∧
      protState.ia32eActive = false ∧ condHolds .e protState.flags = true) ∧
    ((∃ s', exec (.cmoveR64 (memForm [rexW1])) memState = .next s') ∧
      readSource .w64 (memForm [rexW1]) memState = .next 0x8877665544332211#64 ∧ condHolds .e memState.flags = true) ∧
    ((∃ s', exec (.cmovneR64 (memForm [rexW1])) memState = .next s') ∧
      readSource .w64 (memForm [rexW1]) memState = .next 0x8877665544332211#64 ∧ condHolds .ne memState.flags = false) :=
  ⟨⟨goes_on (by decide), next_of (by decide), by decide⟩, ⟨goes_on (by decide), next_of (by decide), by decide⟩,
    ⟨goes_on (by decide), next_of (by decide), by decide, by decide⟩, ⟨goes_on (by decide), next_of (by decide), by decide⟩,
    ⟨goes_on (by decide), next_of (by decide), by decide⟩⟩

/-- A page of 4 KiB at 10000H that faults for reads at level 3, with code 4. -/
def faultingPage : Page := ⟨0x10000#64, 0x1000, .read, 3#2, .pageFault 4#32⟩

/-- RBX at a byte of the faulting page. -/
def pageFaultState (ebx : QWord) : State := { memState.setReg 3#4 ebx with paging := [faultingPage] }

/-- CompletionAndExceptionFrame: a register form, a memory form with its linear address, and an exception. -/
theorem witness_CompletionAndExceptionFrame :
    (∃ s', exec (.cmovgR32 (regForm [])) protState = .next s') ∧ (∃ s', exec (.cmovgR32 (memForm [])) protState = .next s') ∧
    IsLinearAddress protState (memRef protState (memForm [])) 0x10000#64 ∧
    exec (.cmovgR32 (memForm [])) (pageFaultState 0x10000#64) =
      .fault (.exception .pf (some 4#32) (some 0x10000#64) (pageFaultState 0x10000#64)) :=
  ⟨goes_on (by decide), goes_on (by decide), linear_eq.mp (by decide), fault_of (by decide)⟩

/-- LockRaisesInvalidOpcode: a register form, and a memory form with a refused prefix and sixteen bytes. -/
theorem witness_LockRaisesInvalidOpcode :
    (Instr.cmovaR32 (regForm [.lock])).encodable ctx64 = true ∧ Prefix.lock ∈ (regForm [.lock]).prefixes ∧
    (Instr.cmovaR16 (memForm (.rep :: .lock :: List.replicate 11 .opSize))).encodable ctx64 = true ∧
    Prefix.lock ∈ (memForm (.rep :: .lock :: List.replicate 11 .opSize)).prefixes := by decide

/-- UnsupportedCmovRaisesInvalidOpcode: each clause. -/
theorem witness_UnsupportedCmovRaisesInvalidOpcode :
    ((Instr.cmovaR32 (regForm [])).encodable ({ protState with cmovSupported := false } : State).ctx = true ∧ protState.mode = .prot ∧
      Prefix.repne ∉ (regForm []).prefixes ∧ Prefix.rep ∉ (regForm []).prefixes ∧ (segOverrides (regForm []).prefixes).length ≤ 1) ∧
    (memState.mode = .long64 ∧ memState.cmovSupported = true) := by decide

/-- OverlongInstructionRaisesGeneralProtection: sixteen bytes, in 64-bit and in real-address mode. -/
theorem witness_OverlongInstructionRaisesGeneralProtection :
    (Instr.cmovaR16 (regForm (List.replicate 13 .opSize))).encodable memState.ctx = true ∧
    Prefix.lock ∉ List.replicate 13 Prefix.opSize ∧ Prefix.repne ∉ List.replicate 13 Prefix.opSize ∧
    Prefix.rep ∉ List.replicate 13 Prefix.opSize ∧ (segOverrides (List.replicate 13 .opSize)).length ≤ 1 ∧
    misplacedRex (List.replicate 13 .opSize) = false ∧ memState.supportsCmov = true ∧
    15 < (regForm (List.replicate 13 .opSize)).length ∧
    (Instr.cmovaR32 (regForm (List.replicate 13 .opSize))).encodable (realState [] []).ctx = true ∧
    (realState [] []).supportsCmov = true := by decide

/-- ReservedPrefixesAreRefused: each clause. -/
theorem witness_ReservedPrefixesAreRefused :
    (Instr.cmovaR32 (regForm [.repne])).encodable ctx64 = true ∧ (Instr.cmovaR32 (regForm [.rep])).encodable ctx64 = true ∧
    (Instr.cmovaR32 (regForm [.seg .ds, .seg .ds])).encodable ctx64 = true ∧ 1 < (segOverrides [.seg .ds, .seg .ds]).length ∧
    (Instr.cmovaR16 (regForm [rexW1, .opSize])).encodable ctx64 = true ∧ rexW1 ∈ [rexW1, Prefix.opSize].dropLast := by decide

/-- ExceptionsByModeAndForm: the five exceptions. -/
theorem witness_ExceptionsByModeAndForm :
    raised (exec (.cmovaR32 (regForm [.lock])) memState) = some (.ud, none) ∧
    raised (exec (.cmovaR16 ⟨[], ⟨0#2, 0#3, 7#3⟩, none, .none⟩) (realState [(3, 0xFFFF#64)] [])) = some (.gp, none) ∧
    raised (exec (.cmovaR16 ⟨[], ⟨1#2, 0#3, 6#3⟩, none, .disp8 0#8⟩) (realState [(5, 0xFFFF#64)] [])) = some (.ss, none) ∧
    raised (exec (.cmovaR32 (memForm [])) (pageFaultState 0x10000#64)) = some (.pf, some 4#32) ∧
    raised (exec (.cmovaR32 (memForm [])) (withAc (memState.setReg 3#4 0x10001#64))) = some (.ac, some 0#32) := by decide

/-- A memory of no bytes. -/
def emptyMemory : State := { memState with mem := [] }

/-- SourceReadIsUnconditional: a fault, a refusal and a value, each with the condition false. -/
theorem witness_SourceReadIsUnconditional :
    (Admitted .w32 (memForm []) memState ∧ condHolds .ne memState.flags = false) ∧
    loadOperand emptyMemory (memRef emptyMemory (memForm [])) 4 = .fault (.unmapped 0x10000) ∧
    loadOperand { memState with devices := [⟨0x10000, 1⟩] } (memRef memState (memForm [])) 4 = .refused (.deviceMemory 0x10000) ∧
    loadOperand memState (memRef memState (memForm [])) 4 = .next 0x44332211#64 :=
  ⟨by decide, fault_of (by decide), refused_of (by decide), next_of (by decide)⟩

/-- SegmentLimitViolation: one byte past an expand-up limit through DS and through SS, the limit of an expand-down segment
itself, and one byte past FFFFH in a small one. -/
theorem witness_SegmentLimitViolation :
    let up := withDs { flat with limit := 0x10002#32 } protState
    let down := withDs { flat with expandDown := true, limit := 0x10000#32 } protState
    let small := withDs { flat with expandDown := true, limit := 0#32, big := false } (protState.setReg 3#4 0xFFFD#64)
    let m := fun s : State => memRef s (memForm [])
    (Admitted .w32 (memForm []) up ∧ up.mode ≠ .long64 ∧ DescriptorOk up (m up) ∧ (m up).ea.toNat + 4 - 1 > 0x10002) ∧
    (Admitted .w32 (memForm []) down ∧ DescriptorOk down (m down) ∧ (m down).ea.toNat ≤ 0x10000) ∧
    (Admitted .w32 (memForm []) small ∧ DescriptorOk small (m small) ∧ (m small).ea.toNat + 4 - 1 > 0xFFFF) ∧
    (memRef (realState [(5, 0xFFFF#64)] []) ⟨[], ⟨1#2, 0#3, 6#3⟩, none, .disp8 0#8⟩).seg = .ss := by decide

/-- NullSelectorRaisesGeneralProtection: selectors 0 and 3, in protected and in compatibility mode. -/
theorem witness_NullSelectorRaisesGeneralProtection :
    let s := withDs { flat with selector := 3#16 } protState
    let t := { withDs { flat with selector := 0#16 } protState with mode := .compat }
    (Admitted .w32 (memForm []) s ∧ s.mode = .prot ∧ (memRef s (memForm [])).seg ∈ [SegName.ds, .es, .fs, .gs] ∧
      (s.seg (memRef s (memForm [])).seg).selector.toNat ≤ 3) ∧
    (Admitted .w32 (memForm []) t ∧ t.mode = .compat ∧ (t.seg (memRef t (memForm [])).seg).selector.toNat ≤ 3) := by decide

/-- UnreadableSegmentRaisesGeneralProtection: a read through CS. -/
theorem witness_UnreadableSegmentRaisesGeneralProtection :
    let s := { protState with segs := { flats with cs := { flat with readable := false } } }
    Admitted .w32 (memForm [.seg .cs]) s ∧ s.mode = .prot ∧ (s.seg (memRef s (memForm [.seg .cs])).seg).readable = false := by
  decide

/-- NonCanonicalAddressRaises: the first non-canonical address at byte 4 of a quadword through DS, the last one through SS, and
an ignored override that names SS. -/
theorem witness_NonCanonicalAddressRaises :
    let s := state64 0x2#64 [(3, 0x7FFFFFFFFFFC#64), (4, 0xFFFF7FFFFFFFFFFF#64)] []
    let sib : Form := ⟨[rexW1], ⟨0#2, 0#3, 4#3⟩, some ⟨0#2, 4#3, 4#3⟩, .none⟩
    let f := memForm [rexW1]
    let g := memForm [.seg .ss, rexW1]
    ((Admitted .w64 f s ∧ s.mode = .long64 ∧ (memRef s f).seg ≠ .ss ∧ segOverrides f.prefixes ≠ [.ss]) ∧
      IsLinearAddress s (memRef s f) 0x7FFFFFFFFFFC#64 ∧
      NonCanonicalAddress s.linearBits (0x7FFFFFFFFFFC#64 + BitVec.ofNat 64 4)) ∧
    ((Admitted .w64 sib s ∧ (memRef s sib).seg = .ss) ∧ IsLinearAddress s (memRef s sib) 0xFFFF7FFFFFFFFFFF#64 ∧
      NonCanonicalAddress s.linearBits (0xFFFF7FFFFFFFFFFF#64 + BitVec.ofNat 64 0)) ∧
    ((Admitted .w64 g s ∧ (memRef s g).seg ≠ .ss ∧ segOverrides g.prefixes = [.ss]) ∧
      IsLinearAddress s (memRef s g) 0x7FFFFFFFFFFC#64) :=
  ⟨⟨by decide, linear_eq.mp (by decide), nonCanonical_of (by decide)⟩,
    ⟨by decide, linear_eq.mp (by decide), nonCanonical_of (by decide)⟩, ⟨by decide, linear_eq.mp (by decide)⟩⟩

/-- AddressWrapFaults: a quadword four bytes below the top of the address space, a doubleword three bytes below 4 GiB, and one
whose linear bytes pass 2^32. -/
theorem witness_AddressWrapFaults :
    let s := state64 0x2#64 [(3, 0xFFFFFFFFFFFFFFFC#64)] []
    let f := memForm [rexW1]
    let g := dispForm [] 0xFFFFFFFD#32
    ((Admitted .w64 f s ∧ s.mode = .long64 ∧ 2 ^ 64 < (0xFFFFFFFFFFFFFFFC#64).toNat + 8) ∧
      IsLinearAddress s (memRef s f) 0xFFFFFFFFFFFFFFFC#64 ∧
      ∀ k < 8, ¬ NonCanonicalAddress s.linearBits (0xFFFFFFFFFFFFFFFC#64 + BitVec.ofNat 64 k)) ∧
    (Admitted .w32 g protState ∧ protState.mode ≠ .long64 ∧ DescriptorOk protState (memRef protState g) ∧
      (protState.seg (memRef protState g).seg).expandDown = false ∧
      (protState.seg (memRef protState g).seg).limit = 0xFFFFFFFF#32 ∧ 0xFFFFFFFF < (memRef protState g).ea.toNat + 4 - 1) ∧
    ((Admitted .w32 (memForm []) wrapState ∧ wrapState.mode ≠ .long64) ∧
      LegacyAccessOk wrapState (memRef wrapState (memForm [])) 4) :=
  ⟨⟨by decide, linear_eq.mp (by decide), everyByteCanonical_iff.mp (allCanonical_eq_true.mp (by decide))⟩, by decide,
    ⟨by decide, ⟨by decide, by decide, by decide⟩⟩⟩

/-- MisalignedOperandRaisesAlignmentCheck. -/
theorem witness_MisalignedOperandRaisesAlignmentCheck :
    let s := withAc (memState.setReg 3#4 0x10001#64)
    (Admitted .w32 (memForm []) s ∧ s.checksAlignment = true ∧ (0x10001#64 : QWord).toNat % 4 ≠ 0) ∧
    formLinear s (memRef s (memForm [])) 4 = .next 0x10001#64 ∧
    ∀ k < 4, ∃ p, translateAddress s (byteAddress s 0x10001#64 k) .read = .physical p :=
  ⟨by decide, next_of (by decide), pageFaults_eq_nil.mp (by decide)⟩

/-- PageFaultIsReported, translation: the first of two pages that cover an address, at its last byte; the byte after it, in no
page; a write and another level, for which the page is not; and real-address mode (R62). -/
theorem witness_PageFaultIsReported_translation :
    let s := { memState with paging := [⟨0x20000#64, 0x1000, .read, 3#2, .pageFault 4#32⟩,
      ⟨0x10000#64, 0x1000, .read, 3#2, .physical 0x50000#64⟩, faultingPage] }
    s.mode ≠ .real ∧ translateAddress s 0x10FFF#64 .read = .physical 0x50FFF#64 ∧
    translateAddress s 0x11000#64 .read = .physical 0x11000#64 ∧ translateAddress s 0x20000#64 .read = .pageFault 4#32 ∧
    translateAddress s 0x10000#64 .write = .physical 0x10000#64 ∧
    translateAddress { s with cpl := 0#2 } 0x10000#64 .read = .physical 0x10000#64 ∧
    translateAddress { s with mode := .real } 0x10000#64 .read = .physical 0x10000#64 := by decide

/-- PageFaultIsReported: the whole operand in a faulting page; and only its last byte, so that it lies in two pages. -/
theorem witness_PageFaultIsReported :
    let s := pageFaultState 0x10000#64
    let t := pageFaultState 0xFFFD#64
    (formLinear s (memRef s (memForm [])) 4 = .next 0x10000#64 ∧ Admitted .w32 (memForm []) s ∧ AlignmentOk s 0x10000#64 4 ∧
      translateAddress s (byteAddress s 0x10000#64 0) .read = .pageFault 4#32 ∧
      ∀ k < 4, s.pageOf (byteAddress s 0x10000#64 k) .read = s.pageOf (byteAddress s 0x10000#64 0) .read) ∧
    (formLinear t (memRef t (memForm [])) 4 = .next 0xFFFD#64 ∧ Admitted .w32 (memForm []) t ∧ AlignmentOk t 0xFFFD#64 4 ∧
      translateAddress t (byteAddress t 0xFFFD#64 3) .read = .pageFault 4#32) :=
  ⟨⟨next_of (by decide), by decide⟩, ⟨next_of (by decide), by decide⟩⟩

/-- AlignmentCheckOrPageFault. -/
theorem witness_AlignmentCheckOrPageFault :
    let s := withAc (pageFaultState 0x10001#64)
    formLinear s (memRef s (memForm [])) 4 = .next 0x10001#64 ∧ Admitted .w32 (memForm []) s ∧ s.checksAlignment = true ∧
      (0x10001#64 : QWord).toNat % 4 ≠ 0 ∧ translateAddress s (byteAddress s 0x10001#64 0) .read = .pageFault 4#32 :=
  ⟨next_of (by decide), by decide⟩

/-- PageFaultCodeBits. -/
theorem witness_PageFaultCodeBits :
    (pageFaultState 0x10000#64).Inv ∧ exec (.cmovgR32 (memForm [])) (pageFaultState 0x10000#64) =
      .fault (.exception .pf (some 4#32) (some 0x10000#64) (pageFaultState 0x10000#64)) :=
  ⟨by decide, fault_of (by decide)⟩

/-- R51's example with another agent's bytes: event 0 sees AAH at 10000H, event 1 BBH at 10002H (R64). -/
def oracleState : State := { memState with readOracle := [[(0x10000, 0xAA#8)], [(0x10002, 0xBB#8)]] }

/-- MixedWidthReads: R51's example, aligned with another agent writing to it, and unaligned with none. -/
theorem witness_MixedWidthReads :
    (memRead oracleState 0x10000#64 8 = .next 0x88776655443322AA#64 ∧ (0x10000#64).toNat % 8 = 0) ∧
    memRead { memState with mem := bytesAt 0x10001 [0x11, 0x22, 0x33, 0x44, 0x55, 0x66, 0x77, 0x88] } 0x10001#64 8 =
      .next 0x8877665544332211#64 ∧ ∀ p, NotWrittenByOthers memState p :=
  ⟨⟨next_of (by decide), by decide⟩, next_of (by decide), fun _ => notWritten_of rfl⟩

/-- UnmappedByteIsStuck: only the last byte is not listed. -/
theorem witness_UnmappedByteIsStuck :
    let s := memState.setReg 3#4 0x10005#64
    formLinear s (memRef s (memForm [])) 4 = .next 0x10005#64 ∧ Admitted .w32 (memForm []) s ∧ AlignmentOk s 0x10005#64 4 ∧
      (∀ k < 4, translateAddress s (byteAddress s 0x10005#64 k) .read = .physical (0x10005#64 + BitVec.ofNat 64 k) ∧
        s.isDevice (0x10005#64 + BitVec.ofNat 64 k).toNat = false) ∧
      Memory.read s.mem (0x10005#64 + BitVec.ofNat 64 3).toNat = none :=
  ⟨next_of (by decide), by decide⟩

/-- DeviceOperandIsRefused: only the last byte is in the device's region. -/
theorem witness_DeviceOperandIsRefused :
    let s := { memState with devices := [⟨0x10003, 1⟩] }
    formLinear s (memRef s (memForm [])) 4 = .next 0x10000#64 ∧ Admitted .w32 (memForm []) s ∧ AlignmentOk s 0x10000#64 4 ∧
      (∀ k < 4, translateAddress s (byteAddress s 0x10000#64 k) .read = .physical (0x10000#64 + BitVec.ofNat 64 k)) ∧
      s.isDevice (0x10000#64 + BitVec.ofNat 64 3).toNat = true :=
  ⟨next_of (by decide), by decide⟩

/-- MemWriteThenMemRead. -/
theorem witness_MemWriteThenMemRead :
    (∃ s', memWrite memState 0x10000#64 8 0x0102030405060708#64 = .next s') ∧ Memory.wf memState.mem ∧
      (∀ k < 8, translateAddress memState (byteAddress memState 0x10000#64 k) .write = .physical (0x10000#64 + BitVec.ofNat 64 k)) ∧
      (∀ k < 8, translateAddress memState (byteAddress memState 0x10000#64 k) .read = .physical (0x10000#64 + BitVec.ofNat 64 k)) ∧
      (∀ j < 8, ∀ k < 8, (0x10000#64 : QWord) + BitVec.ofNat 64 j = 0x10000#64 + BitVec.ofNat 64 k → j = k) ∧
      ∀ k < 8, NotWrittenByOthers memState (0x10000#64 + BitVec.ofNat 64 k).toNat :=
  ⟨goes_on (by decide), by decide, by decide, by decide, by decide, fun _ _ => notWritten_of rfl⟩

/-- SameRegisterForms. -/
theorem witness_SameRegisterForms :
    let f : Form := ⟨[], ⟨3#2, 1#3, 1#3⟩, none, .none⟩
    Admitted .w32 f memState ∧ f.modrm.mod = 3#2 ∧ srcNum f = destNum f := by decide

/-- SixteenBitAddresses: every r/m, with and without a displacement. -/
theorem witness_SixteenBitAddresses : ∀ rm : BitVec 3,
    addressSize (realState [] []).ctx [] = .a16 ∧ (⟨0#2, 0#3, rm⟩ : ModRM).mod ≠ 3#2 ∧ (⟨2#2, 0#3, rm⟩ : ModRM).mod ≠ 3#2 ∧
    (Instr.cmovaR16 ⟨[], ⟨2#2, 0#3, rm⟩, none, .disp16 0xFFFE#16⟩).wf (realState [] []).ctx = true := by decide

/-- PlainAddresses: each clause, R12 and R13 as bases among them. -/
theorem witness_PlainAddresses :
    (addressSize protState.ctx [] = .a32 ∧ protState.mode ≠ .long64 ∧ (dispForm [] 0#32).modrm.mod = 0#2 ∧
      (dispForm [] 0#32).modrm.rm = 5#3 ∧ (dispForm [] 0#32).sib = none) ∧
    (addressSize memState.ctx [.rex ⟨false, false, false, true⟩] = .a64 ∧
      srcNum ⟨[.rex ⟨false, false, false, true⟩], ⟨1#2, 0#3, 5#3⟩, none, .disp8 0#8⟩ = 13#4 ∧
      srcNum ⟨[], ⟨1#2, 0#3, 5#3⟩, none, .disp8 0#8⟩ = 5#4) := by decide

/-- RipRelativeAddress: with and without 67H. -/
theorem witness_RipRelativeAddress :
    memState.mode = .long64 ∧ (dispForm [] 0x10#32).modrm.mod = 0#2 ∧ (dispForm [] 0x10#32).modrm.rm = 5#3 ∧
    (dispForm [] 0x10#32).sib = none ∧ (dispForm [] 0x10#32).disp = .disp32 0x10#32 ∧ Prefix.addrSize ∉ (dispForm [] 0x10#32).prefixes ∧
    Prefix.addrSize ∈ (dispForm [.addrSize] 0x10#32).prefixes := by decide

/-- SibAddresses: no base and no index, and RSP as base with R12 as index. -/
theorem witness_SibAddresses :
    let f : Form := ⟨[], ⟨0#2, 0#3, 4#3⟩, some ⟨0#2, 4#3, 5#3⟩, .disp32 0x1000#32⟩
    let g : Form := ⟨[.rex ⟨false, false, true, false⟩], ⟨1#2, 0#3, 4#3⟩, some ⟨3#2, 4#3, 4#3⟩, .disp8 0xF0#8⟩
    addressSize memState.ctx f.prefixes = .a64 ∧ f.modrm.mod ≠ 3#2 ∧ f.wf memState.ctx .w32 = true ∧
    indexNum f ⟨0#2, 4#3, 5#3⟩ = 4#4 ∧ addressSize memState.ctx g.prefixes = .a64 ∧ g.wf memState.ctx .w32 = true ∧
    indexNum g ⟨3#2, 4#3, 4#3⟩ = 12#4 ∧ baseNum g ⟨3#2, 4#3, 4#3⟩ = 4#4 := by decide

/-- SegmentSelection: each clause. -/
theorem witness_SegmentSelection :
    segOverrides (memForm []).prefixes = [] ∧ segOverrides (memForm [.seg .es]).prefixes = [.es] ∧ protState.mode ≠ .long64 ∧
    segOverrides (memForm [.seg .gs]).prefixes = [.gs] ∧ memState.mode = .long64 := by decide

/-- StepKeepsTheInvariant, RunsKeepFlagsMemoryAndParameters: from a state with the invariant, one step and two. -/
theorem witness_StepKeepsTheInvariant :
    let s := withCode [0x0F, 0x44, 0x03, 0x48, 0x0F, 0x45, 0xC3] memState
    s.Inv ∧ (∃ s', step s = .next s') ∧ ∃ s', Sys2Proof.core.run 2 s = .next s' :=
  ⟨by decide, goes_on (by decide), goes_on (by decide)⟩

/-- UpperHalvesAreNeverReadOutsideLongMode: two states that differ in the upper half of EBX. -/
theorem witness_UpperHalvesAreNeverReadOutsideLongMode :
    protState.mode ≠ .long64 ∧ SameBelowUpperHalves protState (protState.setReg 3#4 0xFFFFFFFF00010000#64) ∧
    ∃ s', exec (.cmoveR32 (memForm [])) protState = .next s' :=
  ⟨by decide, ⟨rfl, by decide⟩, goes_on (by decide)⟩

/-- RegisterNumbers: a REX byte last, and none. -/
theorem witness_RegisterNumbers :
    (regForm [.opSize, .rex ⟨false, true, true, false⟩]).prefixes.getLast? = some (.rex ⟨false, true, true, false⟩) ∧
    destNum (regForm [.opSize, .rex ⟨false, true, true, false⟩]) = 8#4 ∧
    srcNum (regForm [.opSize, .rex ⟨false, true, true, false⟩]) = 3#4 ∧
    (∀ r : Rex, (regForm [rexW1, .opSize]).prefixes.getLast? ≠ some (.rex r)) :=
  ⟨rfl, rfl, rfl, fun _ h => by cases h⟩

/-- ReadOracle: an aligned read is one event, an unaligned one an event for each byte; and after a register form, bytes that no
other agent writes to. -/
theorem witness_ReadOracle :
    memRead oracleState 0x10000#64 4 = .next 0x443322AA#64 ∧ memRead oracleState 0x10001#64 4 = .next 0x5544BB22#64 ∧
    (∃ s', Sys2Proof.core.run 1 (withCode [0x0F, 0x44, 0xC3] oracleState) = .next s') ∧
    memRead (withCode [0x0F, 0x44, 0xC3] oracleState) 0x10004#64 4 = .next 0x88776655#64 ∧
    (∀ k < 4, NotWrittenByOthers (withCode [0x0F, 0x44, 0xC3] oracleState) (0x10004 + k)) ∧
    ∀ j < 4, ∀ k < 4, translateAddress oracleState (byteAddress oracleState 0x10000#64 j) .read =
      translateAddress oracleState (byteAddress oracleState 0x10000#64 k) .read → j = k :=
  ⟨next_of (by decide), next_of (by decide), goes_on (by decide), next_of (by decide),
    fun k hk => notWritten_of (by revert k; decide), by decide⟩

/-- R249: two reads of one address by two instructions, between which another agent writes to it, give two values. -/
theorem test_reads_differ :
    let s := withCode [0x0F, 0x44, 0x03, 0x0F, 0x44, 0x03] { memState with readOracle := [[], [(0x10000, 0xAA#8)]] }
    ends (Sys2Proof.core.run 1 s) 0#4 = some (0x44332211#64, 0x401003#64) ∧
    ends (Sys2Proof.core.run 2 s) 0#4 = some (0x443322AA#64, 0x401006#64) := by decide

/-- Real-address mode with its segments as R30 has them meets the invariant; another base, another limit
and a set TF do not. -/
theorem test_real_segments : (realState [] []).Inv ∧ ¬ (withDs { low with base := 0x10#64 } (realState [] [])).realSegmentsOk ∧
    ¬ (withDs flat (realState [] [])).realSegmentsOk ∧ ¬ ({ memState with rflags := 0x102#64 } : State).flagsWordOk :=
  ⟨by decide, fun h => absurd (h (by decide)).2.2.1.1 (by decide), fun h => absurd (h (by decide)).2.2.1.2 (by decide),
    fun h => absurd h.2.2.1 (by decide)⟩

/-- A word of the table loaded after reset meets the invariant and runs. -/
theorem test_loaded_word_runs : (State.reset.withFetchWord 24 0xC30F47).Inv ∧
    ends (step (State.reset.withFetchWord 24 0xC30F47)) 0#4 = some (0#64, 0xFFF3#64) := by decide

end Sys2Proof.Tests
end

/-! PROOFS. The family of 10_state.md: what a step can do, what it keeps, and what it does not look at. -/

namespace Sys2Proof.Machine

open Sys2Proof

/-! ### What an instruction and a step can do -/

/-- Everything a completed instruction can be: an admitted form whose source was read, and R136's state (R130). -/
theorem exec_eq_next {i : Instr} {s s' : State} :
    exec i s = .next s' ↔ Admitted i.size i.form s ∧ ∃ v, readSource i.size i.form s = .next v ∧
      s' = s.afterCmov (condHolds i.cond s.flags) i.size i.form v := by
  rw [exec_eq_cmov, cmov_eq_next]

/-- A step that completes answers R136's state for some instruction and some value of its source. -/
theorem step_next_afterCmov {s s' : State} (h : step s = .next s') :
    ∃ (i : Instr) (v : QWord), s' = s.afterCmov (condHolds i.cond s.flags) i.size i.form v := by
  obtain ⟨i, _, _, hexec⟩ := step_eq_next h
  obtain ⟨_, v, _, hs'⟩ := exec_eq_next.mp hexec
  exact ⟨i, v, hs'⟩

/-- A run of one step more is a step and then the run from the state it answers (R213). -/
theorem core_run_succ {k : Nat} {s s' : State} (h : Sys2Proof.core.run (k + 1) s = .next s') :
    ∃ s₁, step s = .next s₁ ∧ Sys2Proof.core.run k s₁ = .next s' := by
  simp only [Host.Core.run] at h
  split at h
  · next s₁ hstep => exact ⟨s₁, hstep, h⟩
  · cases h
  · cases h

/-- A run is its steps, one after the other. -/
theorem reaches_of_run {k : Nat} {s s' : State} (h : Sys2Proof.core.run k s = .next s') :
    Relation.ReflTransGen (fun a b => step a = .next b) s s' := by
  induction k generalizing s with
  | zero =>
    obtain rfl : s = s' := Host.Outcome.next.inj h
    exact .refl
  | succ k ih =>
    obtain ⟨s₁, hstep, hrun⟩ := core_run_succ h
    exact .head hstep (ih hrun)

/-! ### The invariant (R25, R27, R30, R32) -/

/-- A completed CMOVcc keeps the invariant: its program counter is cut to the instruction pointer's width, and no other
clause speaks of a field it changes. -/
theorem inv_afterCmov {s : State} (h : s.Inv) (moved : Bool) (n : OpSize) (f : Form) (v : QWord) :
    (s.afterCmov moved n f v).Inv := by
  obtain ⟨_, hflags, hmode, hpresent, hreal, hpaging, hmem, hcode⟩ := h
  exact ⟨pcAfter_lt s f.length, hflags, hmode, hpresent, hreal, hpaging, hmem, hcode⟩

/-- Settles O55: a step that completes is a completed CMOVcc, which keeps the invariant. -/
theorem stepKeepsTheInvariant : Obligations.StepKeepsTheInvariant := by
  intro s s' hinv hstep
  obtain ⟨i, v, rfl⟩ := step_next_afterCmov hstep
  exact inv_afterCmov hinv _ _ _ v

/-! ### What a run leaves unchanged (R28, R34, R54) -/

/-- The second state is the first but for registers, program counter and read oracle, and of the oracle only events are
over: the frame of a run. -/
def SameButRegsPcOracle (s s' : State) : Prop :=
  s' = { s with regs := s'.regs, pc := s'.pc, readOracle := s'.readOracle } ∧
    ∃ n, s'.readOracle = s.readOracle.drop n

theorem SameButRegsPcOracle.refl (s : State) : SameButRegsPcOracle s s :=
  ⟨rfl, 0, rfl⟩

theorem SameButRegsPcOracle.trans {s s₁ s₂ : State} (h₁ : SameButRegsPcOracle s s₁) (h₂ : SameButRegsPcOracle s₁ s₂) :
    SameButRegsPcOracle s s₂ := by
  obtain ⟨heq₁, n₁, hdrop₁⟩ := h₁
  obtain ⟨heq₂, n₂, hdrop₂⟩ := h₂
  constructor
  · rw [heq₁] at heq₂
    exact heq₂
  · exact ⟨n₁ + n₂, by rw [hdrop₂, hdrop₁, List.drop_drop]⟩

/-- The read oracle past the read of operand 2 is what is left after some events. -/
theorem passSource_readOracle_drop (n : OpSize) (f : Form) (s : State) :
    ∃ k, (passSource n f s).readOracle = s.readOracle.drop k := by
  rw [passSource_readOracle]
  split
  · exact ⟨0, rfl⟩
  · exact ⟨_, rfl⟩

theorem SameButRegsPcOracle.of_step {s s' : State} (h : step s = .next s') : SameButRegsPcOracle s s' := by
  obtain ⟨i, v, rfl⟩ := step_next_afterCmov h
  exact ⟨rfl, passSource_readOracle_drop i.size i.form s⟩

theorem SameButRegsPcOracle.of_run {k : Nat} {s s' : State} (h : Sys2Proof.core.run k s = .next s') :
    SameButRegsPcOracle s s' := by
  have hreach := reaches_of_run h
  clear h
  induction hreach with
  | refl => exact .refl s
  | tail _ hstep ih => exact ih.trans (.of_step hstep)

/-- Settles O56: the frame of one step composes along a run. -/
theorem runsKeepFlagsMemoryAndParameters : Obligations.RunsKeepFlagsMemoryAndParameters := by
  intro k s s' hrun
  obtain ⟨heq, hdrop⟩ := SameButRegsPcOracle.of_run hrun
  refine ⟨heq, hdrop, ?_⟩
  rw [heq]
  exact ⟨rfl, rfl, rfl, rfl, fun _ => rfl⟩

/-! ### What one instruction leaves unchanged (R34, R210) -/

/-- The read oracle after the read of operand 2, by the linear address that R31, R56 and R59 write (R64). -/
theorem passSource_readOracle_of_isLinearAddress {n : OpSize} {f : Form} {s : State} {lin : BitVec 64}
    (hmod : f.modrm.mod ≠ 3#2) (hlin : IsLinearAddress s (memRef s f) lin) :
    (passSource n f s).readOracle =
      s.readOracle.drop (if lin.toNat % opBytes n = 0 then 1 else opBytes n) := by
  rw [passSource_readOracle, if_neg hmod, ← linear_eq.mpr hlin, readEvents]

/-- An exception of the operand read carries the state it was raised in (R210). -/
theorem loadOperand_exception_state {s t : State} {m : MemRef} {n : Nat} {k : ExcKind} {c : Option (BitVec 32)}
    {a : Option (BitVec 64)} (h : loadOperand s m n = .fault (.exception k c a t)) : t = s := by
  rcases loadOperand_eq_fault h with (h | h | h) | ⟨_, _, ⟨h, _⟩ | ⟨_, _, h⟩ | ⟨_, h, _⟩⟩ <;> cases h <;> rfl

/-- An exception of the checks of decoding carries the state it was raised in (R210). -/
theorem decodeChecks_exception_state {n : OpSize} {f : Form} {s t : State} {k : ExcKind} {c : Option (BitVec 32)}
    {a : Option (BitVec 64)} (h : decodeChecks n f s = .fault (.exception k c a t)) : t = s := by
  rcases decodeChecks_eq_fault h with h | h <;> cases h <;> rfl

/-- An exception of an instruction carries the state before it (R210). -/
theorem exec_exception_state {i : Instr} {s t : State} {k : ExcKind} {c : Option (BitVec 32)}
    {a : Option (BitVec 64)} (h : exec i s = .fault (.exception k c a t)) : t = s := by
  rw [exec_eq_cmov, cmov_eq_fault] at h
  rcases h with hdecode | ⟨_, hread⟩
  · exact decodeChecks_exception_state hdecode
  · exact loadOperand_exception_state (readSource_eq_fault.mp hread).2

/-- Settles O27: the frame is read off R136's state, and every exception is raised in the state before the
instruction. -/
theorem completionAndExceptionFrame : Obligations.CompletionAndExceptionFrame := by
  refine ⟨fun i s s' hexec => ?_, fun i s t k c a hexec => exec_exception_state hexec⟩
  obtain ⟨_, v, _, rfl⟩ := exec_eq_next.mp hexec
  refine ⟨fun r hr => ?other, rfl, rfl, rfl, rfl, rfl, rfl, rfl, rfl, rfl, rfl, rfl, rfl, fun hmod => ?register,
    fun lin hmod hlin => ?memory, fun a => ⟨rfl, rfl⟩⟩
  case other => rw [afterCmov_reg, if_neg hr]
  case register => rw [afterCmov_readOracle, passSource_readOracle, if_pos hmod]
  case memory => rw [afterCmov_readOracle, passSource_readOracle_of_isLinearAddress hmod hlin]

/-! ### Two results that are alike -/

/-- Two results, from two states, that are alike: related values, or one and the same stop, an exception carrying the
state it came from. It is `SameOutcome` at every type of value, so that it goes through a sequence. -/
inductive SameResult {α : Type} (related : α → α → Prop) (s t : State) : Res α → Res α → Prop where
  | next {a b : α} (h : related a b) : SameResult related s t (.next a) (.next b)
  | exception (k : ExcKind) (c : Option (BitVec 32)) (a : Option (BitVec 64)) :
      SameResult related s t (.fault (.exception k c a s)) (.fault (.exception k c a t))
  | unmapped (p : Nat) : SameResult related s t (.fault (.unmapped p)) (.fault (.unmapped p))
  | addressWrap : SameResult related s t (.fault .addressWrap) (.fault .addressWrap)
  | refused (x : Refusal) : SameResult related s t (.refused x) (.refused x)

/-- Results of states that are alike are one outcome. -/
theorem SameResult.sameOutcome {related : State → State → Prop} {s t : State} {r r' : Res State}
    (h : SameResult related s t r r') : SameOutcome related s t r r' := by
  cases h with
  | next h => exact h
  | exception k c a => exact ⟨rfl, rfl, rfl, rfl, rfl⟩
  | unmapped p => exact rfl
  | addressWrap => trivial
  | refused x => exact rfl

/-- Sequences are alike when their first parts are, and their second parts on the values that these answer. -/
theorem SameResult.andThen {α β : Type} {related : α → α → Prop} {related' : β → β → Prop} {s t : State}
    {r r' : Res α} {k k' : α → Res β} (h : SameResult related s t r r')
    (hk : ∀ a b, r = .next a → related a b → SameResult related' s t (k a) (k' b)) :
    SameResult related' s t (andThen r k) (andThen r' k') := by
  cases h with
  | next hab => exact hk _ _ rfl hab
  | exception k c a => exact .exception k c a
  | unmapped p => exact .unmapped p
  | addressWrap => exact .addressWrap
  | refused x => exact .refused x

theorem SameResult.ite {α : Type} {related : α → α → Prop} {s t : State} {c : Prop} [Decidable c] {r₁ r₂ r₁' r₂' : Res α}
    (h₁ : SameResult related s t r₁ r₁') (h₂ : SameResult related s t r₂ r₂') :
    SameResult related s t (if c then r₁ else r₂) (if c then r₁' else r₂') := by
  split
  · exact h₁
  · exact h₂

theorem SameResult.raise {α : Type} {related : α → α → Prop} {s t : State} (k : ExcKind) (c : Option (BitVec 32))
    (a : Option (BitVec 64)) : SameResult related s t (raise s k c a) (raise t k c a) :=
  .exception k c a

/-! ### What the operand read looks at -/

/-- Two states that the checked read of an operand at a given reference cannot tell apart: registers, program counter,
flags word, program text and the CMOV feature are no part of it (R60 to R66). -/
def AlikeForReads (s t : State) : Prop :=
  { s with regs := t.regs, pc := t.pc, rflags := t.rflags, code := t.code, cmovSupported := t.cmovSupported } = t

namespace AlikeForReads

variable {s t : State} (h : AlikeForReads s t)
include h

theorem mode : t.mode = s.mode := (congrArg State.mode h).symm
theorem choice : t.choice = s.choice := (congrArg State.choice h).symm
theorem zeroCode : t.zeroCode = s.zeroCode := (congrArg State.zeroCode h).symm
theorem seg : t.seg = s.seg := (congrArg State.seg h).symm
theorem checksDescriptors : t.checksDescriptors = s.checksDescriptors := (congrArg State.checksDescriptors h).symm
theorem checksAlignment : t.checksAlignment = s.checksAlignment := (congrArg State.checksAlignment h).symm
theorem legacyLinear : t.legacyLinear = s.legacyLinear := (congrArg State.legacyLinear h).symm
theorem longLinear : t.longLinear = s.longLinear := (congrArg State.longLinear h).symm
theorem linear : t.linear = s.linear := (congrArg State.linear h).symm
theorem allCanonical : t.allCanonical = s.allCanonical := (congrArg State.allCanonical h).symm
theorem pageFaults : pageFaults t = pageFaults s := (congrArg Machine.pageFaults h).symm
theorem physicalAddresses : physicalAddresses t = physicalAddresses s := (congrArg Machine.physicalAddresses h).symm
theorem isDevice : t.isDevice = s.isDevice := (congrArg State.isDevice h).symm
theorem byteSeen : t.byteSeen = s.byteSeen := (congrArg State.byteSeen h).symm
theorem readOracle : t.readOracle = s.readOracle := (congrArg State.readOracle h).symm

theorem raiseGP {α : Type} {related : α → α → Prop} : SameResult related s t (raiseGP s) (raiseGP t) := by
  rw [Machine.raiseGP, Machine.raiseGP, h.zeroCode]
  exact .raise ..

theorem raiseSS {α : Type} {related : α → α → Prop} : SameResult related s t (raiseSS s) (raiseSS t) := by
  rw [Machine.raiseSS, Machine.raiseSS, h.zeroCode]
  exact .raise ..

theorem raiseNonCanonical {α : Type} {related : α → α → Prop} (m : MemRef) :
    SameResult related s t (raiseNonCanonical s m) (raiseNonCanonical t m) := by
  rw [Machine.raiseNonCanonical, Machine.raiseNonCanonical, h.choice]
  exact .ite h.raiseSS (.ite (.ite h.raiseSS h.raiseGP) h.raiseGP)

theorem formLinearLong (m : MemRef) (n : Nat) :
    SameResult Eq s t (formLinearLong s m n) (formLinearLong t m n) := by
  rw [Machine.formLinearLong, Machine.formLinearLong, h.allCanonical, h.longLinear]
  exact .ite (.ite .addressWrap (.next rfl)) (h.raiseNonCanonical m)

theorem formLinearLegacy (m : MemRef) (n : Nat) :
    SameResult Eq s t (formLinearLegacy s m n) (formLinearLegacy t m n) := by
  rw [Machine.formLinearLegacy, Machine.formLinearLegacy, h.checksDescriptors, h.seg, h.legacyLinear]
  exact .ite h.raiseGP (.ite h.raiseGP (.ite .addressWrap (.ite (.ite h.raiseSS h.raiseGP) (.next rfl))))

theorem formLinear (m : MemRef) (n : Nat) : SameResult Eq s t (formLinear s m n) (formLinear t m n) := by
  rw [Machine.formLinear, Machine.formLinear, h.mode]
  split
  · exact h.formLinearLong m n
  · exact h.formLinearLegacy m n

omit h in
/-- Reading some bytes with one and the same look never raises an exception, so the state it stops in is of no account. -/
theorem readBytes (look : Nat → Nat → Option Byte) (ps : List Nat) (k : Nat) :
    SameResult Eq s t (readBytes look ps k) (readBytes look ps k) := by
  cases hr : Machine.readBytes look ps k with
  | next bs => exact .next rfl
  | fault x =>
    obtain ⟨p, _, rfl, _⟩ := readBytes_eq_fault hr
    exact .unmapped p
  | refused x => exact absurd hr readBytes_not_refused

theorem reportPageFault {α : Type} {related : α → α → Prop} (f : BitVec 32 × BitVec 64)
    (fs : List (BitVec 32 × BitVec 64)) :
    SameResult related s t (reportPageFault s f fs) (reportPageFault t f fs) := by
  cases fs with
  | nil => exact .raise ..
  | cons g fs =>
    rw [Machine.reportPageFault, Machine.reportPageFault, h.choice]
    split
    · exact .raise ..
    · exact .raise ..

theorem memRead (lin : BitVec 64) (n : Nat) : SameResult Eq s t (memRead s lin n) (memRead t lin n) := by
  rw [Machine.memRead, Machine.memRead, h.pageFaults, h.physicalAddresses, h.isDevice, h.byteSeen]
  split
  · exact h.reportPageFault ..
  · split
    · exact .refused _
    · refine (readBytes ..).andThen fun bs bs' _ hbs => ?_
      exact .next (congrArg littleEndian hbs)

theorem accessOperand (lin : BitVec 64) (n : Nat) :
    SameResult Eq s t (accessOperand s lin n) (accessOperand t lin n) := by
  rw [Machine.accessOperand, Machine.accessOperand, h.checksAlignment, h.pageFaults, h.choice]
  exact .ite (.ite (.raise ..) (.ite (.raise ..) (h.memRead lin n))) (h.memRead lin n)

/-- The checked read of one and the same operand is alike from states alike for reads (R60). -/
theorem loadOperand (m : MemRef) (n : Nat) : SameResult Eq s t (loadOperand s m n) (loadOperand t m n) := by
  refine (h.formLinear m n).andThen fun lin lin' _ hlin => ?_
  subst hlin
  exact h.accessOperand lin n

end AlikeForReads

/-! ### Outside 64-bit mode no 64-bit size -/

theorem operandSize_ne_w64 {ctx : Ctx} (h : ctx.mode ≠ .long64) (ps : List Prefix) : operandSize ctx ps ≠ .w64 := by
  rw [operandSize]
  split
  · contradiction
  · split <;> split <;> decide

theorem addressSize_ne_a64 {ctx : Ctx} (h : ctx.mode ≠ .long64) (ps : List Prefix) : addressSize ctx ps ≠ .a64 := by
  rw [addressSize]
  split
  · contradiction
  · split <;> split <;> decide

/-- No form is admitted at operand size 64 outside 64-bit mode (R89). -/
theorem Admitted.ne_w64 {n : OpSize} {f : Form} {s : State} (h : Admitted n f s) (hmode : s.mode ≠ .long64) :
    n ≠ .w64 := by
  obtain ⟨hwf, _⟩ := h
  simp only [Form.wf, Form.encodable, Bool.and_eq_true, beq_iff_eq] at hwf
  obtain ⟨⟨⟨⟨_, hsize⟩, _⟩, _⟩, _⟩ := hwf
  exact hsize ▸ operandSize_ne_w64 hmode f.prefixes

/-! ### Outside 64-bit mode the upper halves are not read (R20) -/

theorem setWidth16_of_setWidth32 {v w : QWord} (h : v.setWidth 32 = w.setWidth 32) :
    v.setWidth 16 = w.setWidth 16 := by
  have := congrArg (BitVec.setWidth 16) h
  simpa using this

theorem lowBits_congr {n : OpSize} (hn : n ≠ .w64) {v w : QWord} (h : v.setWidth 32 = w.setWidth 32) :
    lowBits n v = lowBits n w := by
  cases n with
  | w16 => rw [lowBits, lowBits, setWidth16_of_setWidth32 h]
  | w32 => rw [lowBits, lowBits, h]
  | w64 => exact absurd rfl hn

theorem cutAddress_congr {a : AddrSize} (ha : a ≠ .a64) {v w : QWord} (h : v.setWidth 32 = w.setWidth 32) :
    cutAddress a v = cutAddress a w := by
  cases a with
  | a16 => rw [cutAddress, cutAddress, setWidth16_of_setWidth32 h]
  | a32 => rw [cutAddress, cutAddress, h]
  | a64 => exact absurd rfl ha

/-- The lower half after a 16-bit write: bits 31:16 of the old value and the word written. -/
theorem append16_setWidth32 (old : QWord) (v : BitVec 16) :
    (old.extractLsb' 16 48 ++ v : QWord).setWidth 32 = (old.setWidth 32).extractLsb' 16 16 ++ v := by
  have hupper : (old.extractLsb' 16 48).setWidth 16 = (old.setWidth 32).extractLsb' 16 16 := by
    ext i hi
    simp
    grind
  rw [← hupper]
  exact BitVec.setWidth_append

/-- The lower half after a 32-bit write: the doubleword written. -/
theorem append32_setWidth32 (upper v : BitVec 32) : (upper ++ v : QWord).setWidth 32 = v :=
  BitVec.setWidth_append.trans (BitVec.setWidth_eq v)

/-- The lower half of R136's destination depends on the old destination's lower half alone. -/
theorem destAfter_setWidth32_congr (n : OpSize) (ia32e moved : Bool) (v : QWord) {old old' : QWord}
    (h : old.setWidth 32 = old'.setWidth 32) :
    (destAfter n ia32e moved old v).setWidth 32 = (destAfter n ia32e moved old' v).setWidth 32 := by
  cases moved with
  | true =>
    cases n with
    | w16 => simp only [destAfter, append16_setWidth32, h]
    | w32 => cases ia32e <;> simp only [destAfter, append32_setWidth32]
    | w64 => rfl
  | false =>
    cases n with
    | w16 => exact h
    | w32 =>
      cases ia32e with
      | true => simp only [destAfter, ← zeroExtendLow32, h]
      | false => exact h
    | w64 => exact h

namespace SameBelowUpperHalves

variable {s t : State} (h : SameBelowUpperHalves s t)
include h

theorem alikeForReads : AlikeForReads s t := by
  rw [AlikeForReads, ← h.1]

theorem pc : t.pc = s.pc := (congrArg State.pc h.1).symm
theorem ctx : t.ctx = s.ctx := (congrArg State.ctx h.1).symm
theorem flags : t.flags = s.flags := (congrArg State.flags h.1).symm
theorem ia32eActive : t.ia32eActive = s.ia32eActive := (congrArg State.ia32eActive h.1).symm
theorem supportsCmov : t.supportsCmov = s.supportsCmov := (congrArg State.supportsCmov h.1).symm
theorem pcAfter : t.pcAfter = s.pcAfter := (congrArg State.pcAfter h.1).symm
theorem fetch : fetch t = fetch s := (congrArg Machine.fetch h.1).symm

theorem areg {a : AddrSize} (ha : a ≠ .a64) (r : Reg) : areg t a r = areg s a r :=
  cutAddress_congr ha (h.2 r).symm

theorem gprRead {n : OpSize} (hn : n ≠ .w64) (r : Reg) : t.gprRead r n = s.gprRead r n :=
  lowBits_congr hn (h.2 r).symm

theorem base16 (mod : BitVec 2) (rm : BitVec 3) : base16 t mod rm = base16 s mod rm := by
  have hareg : Machine.areg t .a16 = Machine.areg s .a16 := funext (h.areg (by decide))
  rw [Machine.base16, Machine.base16, hareg]

theorem basePlain {a : AddrSize} (ha : a ≠ .a64) (f : Form) : basePlain t a f = basePlain s a f := by
  rw [Machine.basePlain, Machine.basePlain, h.areg ha, h.alikeForReads.mode, h.pc]

theorem indexTerm {a : AddrSize} (ha : a ≠ .a64) (f : Form) (b : Sib) : indexTerm t a f b = indexTerm s a f b := by
  rw [Machine.indexTerm, Machine.indexTerm, h.areg ha]

theorem baseSib {a : AddrSize} (ha : a ≠ .a64) (f : Form) (b : Sib) : baseSib t a f b = baseSib s a f b := by
  rw [Machine.baseSib, Machine.baseSib, h.areg ha, h.indexTerm ha]

theorem baseOf (hmode : s.mode ≠ .long64) (f : Form) : baseOf t f = baseOf s f := by
  have ha : addressSize s.ctx f.prefixes ≠ .a64 := addressSize_ne_a64 hmode f.prefixes
  rw [Machine.baseOf, Machine.baseOf, h.ctx]
  split
  · exact h.base16 ..
  · split
    · exact h.baseSib ha ..
    · exact h.basePlain ha f

/-- Both states form the same memory operand (R96). -/
theorem memRef (hmode : s.mode ≠ .long64) (f : Form) : memRef t f = memRef s f := by
  simp only [Machine.memRef, operandSegment, effectiveAddress, stackOnlyByOverride, defaultSegment, h.baseOf hmode, h.ctx,
    h.alikeForReads.mode]

theorem decodeChecks (n : OpSize) (f : Form) :
    SameResult Eq s t (decodeChecks n f s) (decodeChecks n f t) := by
  rw [Machine.decodeChecks, Machine.decodeChecks, h.ctx, h.supportsCmov]
  exact .ite (.ite (.raise ..) (.ite (.refused _) (.ite (.refused _) (.ite (.refused _)
    (.ite (.ite h.alikeForReads.raiseGP (.next rfl)) (.raise ..)))))) (.refused _)

theorem readSource (hmode : s.mode ≠ .long64) {n : OpSize} (hn : n ≠ .w64) (f : Form) :
    SameResult Eq s t (readSource n f s) (readSource n f t) := by
  rw [Machine.readSource, Machine.readSource, h.gprRead hn, h.memRef hmode]
  exact .ite (.next rfl) (h.alikeForReads.loadOperand ..)

theorem passSource_readOracle (hmode : s.mode ≠ .long64) (n : OpSize) (f : Form) :
    (passSource n f t).readOracle = (passSource n f s).readOracle := by
  rw [Machine.passSource_readOracle, Machine.passSource_readOracle, h.memRef hmode, h.alikeForReads.linear,
    h.alikeForReads.readOracle]

/-- Completed with one value of the source, the two states differ again at most in the upper halves. -/
theorem afterCmov (hmode : s.mode ≠ .long64) (moved : Bool) (n : OpSize) (f : Form) (v : QWord) :
    SameBelowUpperHalves (s.afterCmov moved n f v) (t.afterCmov moved n f v) := by
  constructor
  · rw [State.afterCmov, State.afterCmov, h.pcAfter, h.passSource_readOracle hmode]
    exact congrArg (fun u : State => { u with
      regs := (t.afterCmov moved n f v).regs
      pc := s.pcAfter f.length
      readOracle := (passSource n f s).readOracle }) h.1
  · intro r
    rw [afterCmov_reg, afterCmov_reg, h.ia32eActive]
    split
    · exact destAfter_setWidth32_congr n _ moved v (h.2 _)
    · exact h.2 r

theorem exec (hmode : s.mode ≠ .long64) (i : Instr) :
    SameResult SameBelowUpperHalves s t (exec i s) (exec i t) := by
  rw [exec_eq_cmov, exec_eq_cmov]
  refine (h.decodeChecks i.size i.form).andThen fun _ _ hchecks _ => ?_
  have hn : i.size ≠ .w64 := (decodeChecks_eq_next.mp hchecks).ne_w64 hmode
  refine (h.readSource hmode hn i.form).andThen fun v w _ hvw => ?_
  subst hvw
  rw [writeDest_advance, writeDest_advance, h.flags]
  exact .next (h.afterCmov hmode _ _ _ v)

theorem step (hmode : s.mode ≠ .long64) : SameResult SameBelowUpperHalves s t (step s) (step t) := by
  rw [Machine.step, Machine.step, h.ctx, h.fetch]
  split
  · exact h.exec hmode _
  · exact .refused _
  · exact .refused _

end SameBelowUpperHalves

/-- Settles O57: every part of an instruction outside 64-bit mode reads the registers through a cut to 16 or 32 bits. -/
theorem upperHalvesAreNeverReadOutsideLongMode : Obligations.UpperHalvesAreNeverReadOutsideLongMode :=
  fun _ _ hmode h => ⟨fun i => (h.exec hmode i).sameOutcome, (h.step hmode).sameOutcome⟩

/-! ### The state after reset (R36, R240) -/

/-- Settles O54, clause by clause of the invariant. -/
theorem resetSatisfiesTheInvariant : Obligations.ResetSatisfiesTheInvariant := by
  have hpc : State.reset.pcFits := by decide
  have hflags : State.reset.flagsWordOk := by decide
  have hmode : State.reset.modeOk := by decide
  have hpresent : State.reset.stackAndCodePresent := by decide
  have hreal : State.reset.realSegmentsOk := by decide
  exact ⟨hpc, hflags, hmode, hpresent, hreal, by decide, by decide, by decide⟩

/-- Every register reads 0 after reset (log 1). -/
@[simp] theorem State.reset_reg (r : Reg) : State.reset.reg r = 0#64 := by
  simp [State.reset, State.reg]

/-- Settles O58, by evaluating the reset state field by field. -/
theorem resetValues : Obligations.ResetValues := by
  refine ⟨rfl, rfl, rfl, rfl, by decide, rfl, rfl, rfl, by decide, fun g => ?_, State.reset_reg, rfl⟩
  cases g with
  | cs => exact ⟨rfl, fun hg => absurd rfl hg⟩
  | ss => exact ⟨rfl, fun _ => ⟨rfl, rfl⟩⟩
  | ds => exact ⟨rfl, fun _ => ⟨rfl, rfl⟩⟩
  | es => exact ⟨rfl, fun _ => ⟨rfl, rfl⟩⟩
  | fs => exact ⟨rfl, fun _ => ⟨rfl, rfl⟩⟩
  | gs => exact ⟨rfl, fun _ => ⟨rfl, rfl⟩⟩

end Sys2Proof.Machine

/-! PROOFS. The family of 20_memory.md: fetching and decoding, address formation, the checked operand read, what MemRead
and MemWrite answer. -/

namespace Sys2Proof

/-! ### Decoding an encoding (R107, R113) -/

/-- The bytes of prefixes that may stand in the context, up to the opcode, read back as the prefixes. -/
theorem takePrefixes_map_byte {ctx : Ctx} {ps : List Prefix} (h : ∀ p ∈ ps, ctx.mode = .long64 ∨ p.isRex = false)
    (rest : List Byte) : takePrefixes ctx (ps.map Prefix.byte ++ 0x0F#8 :: rest) = (ps, 0x0F#8 :: rest) := by
  induction ps with
  | nil => simp [takePrefixes, Prefix.ofByte_0F]
  | cons p ps ih =>
    obtain ⟨hp, hps⟩ := List.forall_mem_cons.mp h
    simp [takePrefixes, Prefix.ofByte_byte ctx p hp, ih hps]

@[simp] theorem takeSib_sibBytes (sib : Option Sib) (rest : List Byte) :
    takeSib sib.isSome (sibBytes sib ++ rest) = some (sib, rest) := by
  cases sib <;> simp [takeSib, sibBytes]

/-- What an encodable form asks of its parts: the REX bytes, the operand size, the SIB byte and the displacement. -/
theorem Form.encodable_iff {ctx : Ctx} {n : OpSize} {f : Form} :
    f.encodable ctx n = true ↔ (∀ p ∈ f.prefixes, ctx.mode = .long64 ∨ p.isRex = false) ∧
      operandSize ctx f.prefixes = n ∧ f.sib.isSome = needsSib (addressSize ctx f.prefixes) f.modrm ∧
      f.disp.kind = dispKind (addressSize ctx f.prefixes) f.modrm f.sib := by
  by_cases hmode : ctx.mode = .long64 <;> simp [Form.encodable, hmode, and_assoc]

/-- What follows the opcode bytes of an encodable form reads back as the form. -/
theorem takeForm_bytes {ctx : Ctx} {n : OpSize} {f : Form} (h : f.encodable ctx n = true) (rest : List Byte) :
    takeForm ctx f.prefixes (f.modrm.byte :: (sibBytes f.sib ++ (f.disp.bytes ++ rest))) = some (f, rest) := by
  obtain ⟨_, _, hsib, hdisp⟩ := Form.encodable_iff.mp h
  simp [takeForm, ← hsib, ← hdisp]

/-- The encoding of an encodable instruction, followed by any bytes, decodes to the instruction under its canonical
mnemonic and leaves the bytes that followed. -/
theorem decode_encode_append {ctx : Ctx} {i : Instr} (h : i.encodable ctx = true) (rest : List Byte) :
    decode ctx (encode i ++ rest) = .instr i.canonical rest := by
  obtain ⟨hrex, hsize, _, _⟩ := Form.encodable_iff.mp h
  have hbytes : encode i ++ rest = i.form.prefixes.map Prefix.byte ++ 0x0F#8 :: opcodeByte i.cond ::
      i.form.modrm.byte :: (sibBytes i.form.sib ++ (i.form.disp.bytes ++ rest)) := by
    simp [encode]
  simp [decode, hbytes, takePrefixes_map_byte hrex, takeForm_bytes h, hsize, Instr.canonical]

/-! ### Decoding bytes with more bytes after them -/

/-- A decoder's answer when more bytes follow: the bytes left over are followed by them. -/
def Decoded.followedBy (more : List Byte) : Decoded → Decoded
  | .instr i rest => .instr i (rest ++ more)
  | .notCmov b0 b1 => .notCmov b0 b1
  | .truncated => .truncated

theorem takePrefixes_append {ctx : Ctx} {bs : List Byte} (more : List Byte) (h : (takePrefixes ctx bs).2 ≠ []) :
    takePrefixes ctx (bs ++ more) = ((takePrefixes ctx bs).1, (takePrefixes ctx bs).2 ++ more) := by
  induction bs with
  | nil => exact absurd rfl h
  | cons b bs ih =>
    cases hb : Prefix.ofByte ctx b with
    | none => simp [takePrefixes, hb]
    | some p =>
      simp only [takePrefixes, hb] at h
      simp [takePrefixes, hb, ih h]

theorem takeSib_append {present : Bool} {bs rest : List Byte} {sib : Option Sib} (more : List Byte)
    (h : takeSib present bs = some (sib, rest)) : takeSib present (bs ++ more) = some (sib, rest ++ more) := by
  cases present with
  | false => simpa [takeSib] using h
  | true =>
    cases bs with
    | nil => simp [takeSib] at h
    | cons b bs => simpa [takeSib] using h

theorem takeDisp_append {k : DispKind} {bs rest : List Byte} {d : Disp} (more : List Byte)
    (h : takeDisp k bs = some (d, rest)) : takeDisp k (bs ++ more) = some (d, rest ++ more) := by
  obtain ⟨rfl, rfl⟩ := takeDisp_eq_some h
  simp

theorem takeForm_append {ctx : Ctx} {ps : List Prefix} {bs rest : List Byte} {f : Form} (more : List Byte)
    (h : takeForm ctx ps bs = some (f, rest)) : takeForm ctx ps (bs ++ more) = some (f, rest ++ more) := by
  cases bs with
  | nil => simp [takeForm] at h
  | cons b bs =>
    simp only [takeForm, List.cons_append] at h ⊢
    split at h
    · cases h
    · next sib bs' hsib =>
      rw [takeSib_append more hsib]
      split at h
      · cases h
      · next d rest' hdisp =>
        obtain ⟨rfl, rfl⟩ := Prod.mk.inj (Option.some.inj h)
        simp only [takeDisp_append more hdisp]

/-- Bytes that the decoder does not find cut short have the same answer when more bytes follow. -/
theorem decode_append {ctx : Ctx} {bs : List Byte} (more : List Byte) (h : decode ctx bs ≠ .truncated) :
    decode ctx (bs ++ more) = (decode ctx bs).followedBy more := by
  have hne : (takePrefixes ctx bs).2 ≠ [] := fun hnil => h (by simp [decode, hnil])
  simp only [decode, takePrefixes_append more hne] at h ⊢
  cases hrest : (takePrefixes ctx bs).2 with
  | nil => exact absurd hrest hne
  | cons b0 r0 =>
    simp only [hrest, List.cons_append] at h ⊢
    by_cases h0F : b0 = 0x0F#8
    · simp only [h0F, if_true] at h ⊢
      cases r0 with
      | nil => exact absurd rfl h
      | cons b1 r1 =>
        simp only [List.cons_append] at h ⊢
        split at h
        · next h4 =>
          cases hform : takeForm ctx (takePrefixes ctx bs).1 r1 with
          | none => simp [hform] at h
          | some fr => simp [h4, takeForm_append more hform, Decoded.followedBy]
        · next h4 => simp [h4, Decoded.followedBy]
    · simp [h0F, Decoded.followedBy]

/-- A proper part of the encoding of an encodable instruction is found cut short. -/
theorem decode_eq_truncated {ctx : Ctx} {i : Instr} {bs missing : List Byte} (h : i.encodable ctx = true)
    (hmissing : missing ≠ []) (hbs : bs ++ missing = encode i) : decode ctx bs = .truncated := by
  by_contra htruncated
  have hwhole : (decode ctx bs).followedBy missing = .instr i.canonical [] := by
    rw [← decode_append missing htruncated, hbs, ← List.append_nil (encode i), decode_encode_append h]
  cases hd : decode ctx bs with
  | instr j rest => simp [hd, Decoded.followedBy, hmissing] at hwhole
  | notCmov b0 b1 => simp [hd, Decoded.followedBy] at hwhole
  | truncated => exact htruncated hd

end Sys2Proof

namespace Sys2Proof.Machine

open Sys2Proof

/-! ### Steps (R70, R249) -/

/-- Settles O8: the branch of the step for decoded bytes. -/
theorem stepRunsTheDecodedInstruction : Obligations.StepRunsTheDecodedInstruction := by
  intro s i rest hdecode
  simp only [step, hdecode]

/-- An instruction and its canonical mnemonic have one meaning (R113). -/
theorem exec_canonical (i : Instr) (s : State) : exec i.canonical s = exec i s := by
  simp only [exec_eq_cmov, Instr.canonical, Instr.ofParts_cond, Instr.ofParts_size, Instr.ofParts_form]

/-- Settles O9: the encoding decodes to the canonical mnemonic, whose meaning is the instruction's. -/
theorem stepRunsTheEncodedInstruction : Obligations.StepRunsTheEncodedInstruction := by
  intro s i rest hencodable hfetch
  have hdecode : decode s.ctx (fetch s) = .instr i.canonical rest := hfetch ▸ decode_encode_append hencodable rest
  rw [stepRunsTheDecodedInstruction s _ rest hdecode, exec_canonical]

/-- Settles O11: a proper part of an encoding decodes to nothing but its own end. -/
theorem fetchOutsideTheTextIsRefused : Obligations.FetchOutsideTheTextIsRefused := by
  intro s i missing hencodable hmissing hfetch
  simp only [step, decode_eq_truncated hencodable hmissing hfetch]

/-! ### Fetching (R26, R70; log 5) -/

/-- A map of rising addresses reads nothing below the addresses it lists. -/
theorem Memory.read_eq_none_of_lt {m : List Host.Cell} {x : Nat} (h : ∀ c ∈ m, x < c.1) : Memory.read m x = none := by
  induction m with
  | nil => rfl
  | cons c m ih =>
    obtain ⟨hc, hm⟩ := List.forall_mem_cons.mp h
    rw [Memory.read, if_neg hc.ne', ih hm]

/-- Byte `k` of the bytes from an address on is the map's byte there, where every address up to it is below the bound and
in the map. -/
theorem bytesFrom_getElem? {m : List Host.Cell} (hm : m.Pairwise fun a b => a.1 < b.1) (x top k : Nat) (b : Byte) :
    (bytesFrom m x top)[k]? = some b ↔
      (∀ j ≤ k, x + j < top ∧ (Memory.read m (x + j)).isSome = true) ∧ Memory.read m (x + k) = some b := by
  induction m generalizing x k with
  | nil => simp [bytesFrom, Memory.read]
  | cons c m ih =>
    obtain ⟨a, v⟩ := c
    obtain ⟨hbelow, hm⟩ := List.pairwise_cons.mp hm
    have hcons (y : Nat) : Memory.read ((a, v) :: m) y = if a = y then some v else Memory.read m y := rfl
    rcases lt_trichotomy a x with hlt | rfl | hgt
    · have hskip (j : Nat) : a ≠ x + j := by omega
      simp [bytesFrom, hlt, hlt.ne, hcons, hskip, ih hm]
    · by_cases htop : a < top
      · cases k with
        | zero => simp [bytesFrom, hcons, htop]
        | succ k =>
          have hsplit (P : Nat → Prop) : (∀ j ≤ k + 1, P j) ↔ P 0 ∧ ∀ j ≤ k, P (j + 1) := by
            simpa only [Nat.lt_succ_iff] using Nat.forall_lt_succ_left (n := k + 1) (p := P)
          have hshift (j : Nat) : a + 1 + j = a + (j + 1) := by omega
          simp [bytesFrom, htop, ih hm, hcons, hsplit, hshift]
      · constructor
        · simp [bytesFrom, htop]
        · rintro ⟨h, _⟩
          exact absurd (h 0 (Nat.zero_le k)).1 htop
    · have hnone : Memory.read ((a, v) :: m) x = none :=
        Memory.read_eq_none_of_lt (List.forall_mem_cons.mpr ⟨hgt, fun c hc => hgt.trans (hbelow c hc)⟩)
      constructor
      · simp [bytesFrom, hgt.ne', hgt.not_gt]
      · rintro ⟨h, _⟩
        simpa [hnone] using (h 0 (Nat.zero_le k)).2

/-- The linear address of the instruction, as R70 writes it. -/
theorem fetchAddress_eq (s : State) : s.fetchAddress =
    if s.mode = .long64 then s.pc.toNat else (s.segs.cs.base.toNat + s.pc.toNat) % 2 ^ 32 := by
  have hlegacy : ((s.segs.cs.base + s.pc).setWidth 32).toNat = (s.segs.cs.base.toNat + s.pc.toNat) % 2 ^ 32 := by
    rw [BitVec.toNat_setWidth, BitVec.toNat_add, Nat.mod_mod_of_dvd _ (by decide)]
  simp only [State.fetchAddress, hlegacy]
  cases s.mode <;> simp

/-- The width of the instruction pointer outside 64-bit mode (R25). -/
theorem ipBits_of_ne_long64 {s : State} (h : s.mode ≠ .long64) :
    s.ipBits = if s.mode = .real ∨ s.mode = .v86 ∨ s.csD = .d16 then 16 else 32 := by
  simp only [State.ipBits, Ctx.defaultSize, State.ctx]
  cases hmode : s.mode <;> cases s.csD <;> simp_all

/-- When byte `j` of an instruction is below the bound of the fetch: within the address space and, outside 64-bit mode,
within the code-segment limit and the instruction pointer's width (R26). -/
theorem lt_fetchBound {s : State} {j : Nat} : s.fetchAddress + j < s.fetchBound ↔
    if s.mode = .long64 then s.fetchAddress + j < 2 ^ 64
    else s.fetchAddress + j < 2 ^ 32 ∧ s.pc.toNat + j ≤ s.segs.cs.limit.toNat ∧
      s.pc.toNat + j < 2 ^ (if s.mode = .real ∨ s.mode = .v86 ∨ s.csD = .d16 then 16 else 32) := by
  by_cases hmode : s.mode = .long64
  · simp [State.fetchBound, hmode]
  · have hbound : s.fetchBound =
        min (2 ^ 32) (s.fetchAddress + (min (2 ^ s.ipBits) (s.segs.cs.limit.toNat + 1) - s.pc.toNat)) := by
      simp only [State.fetchBound]
    rw [hbound, if_neg hmode, ← ipBits_of_ne_long64 hmode]
    omega

/-- Settles O10: the bytes from the fetch address on, below the bound of the fetch. -/
theorem fetchReadsTheProgramText : Obligations.FetchReadsTheProgramText := by
  intro s a k b hcode ha
  obtain rfl : a = s.fetchAddress := ha.trans (fetchAddress_eq s).symm
  simp only [← lt_fetchBound]
  exact bytesFrom_getElem? hcode.1 _ _ k b

/-! ### The operand read of a memory form (R55, R60, R130) -/

/-- An operand whose alignment is no trouble is read by MemRead (R61). -/
theorem accessOperand_of_alignmentOk {s : State} {lin : BitVec 64} {n : Nat} (h : AlignmentOk s lin n) :
    accessOperand s lin n = memRead s lin n := by
  rw [accessOperand, if_neg]
  simpa using h

section
variable {i : Instr} {s : State} (hadm : Admitted i.size i.form s) (hmem : i.form.modrm.mod ≠ 3#2)
include hadm hmem

/-- An admitted memory form is the checked read of its operand and then R136's state, whatever the condition. -/
theorem exec_memoryForm : exec i s = andThen (loadOperand s (memRef s i.form) (opBytes i.size)) fun v =>
    .next (s.afterCmov (condHolds i.cond s.flags) i.size i.form v) := by
  rw [exec_eq_cmov, cmov_of_admitted hadm, readSource, if_neg hmem]

/-- A stop in forming the address is the instruction's. -/
theorem exec_of_formLinear_fault {x : Fault} (h : formLinear s (memRef s i.form) (opBytes i.size) = .fault x) :
    exec i s = .fault x := by
  rw [exec_memoryForm hadm hmem, loadOperand, h, andThen_fault, andThen_fault]

variable {lin : BitVec 64} (hform : formLinear s (memRef s i.form) (opBytes i.size) = .next lin)
include hform

/-- Once the address is formed, the instruction is the access to the operand and then R136's state. -/
theorem exec_of_formLinear_next : exec i s = andThen (accessOperand s lin (opBytes i.size)) fun v =>
    .next (s.afterCmov (condHolds i.cond s.flags) i.size i.form v) := by
  rw [exec_memoryForm hadm hmem, loadOperand, hform, andThen_next]

variable (halign : AlignmentOk s lin (opBytes i.size))
include halign

/-- With the address formed and the alignment no trouble, a fault of MemRead is the instruction's. -/
theorem exec_of_memRead_fault {x : Fault} (h : memRead s lin (opBytes i.size) = .fault x) : exec i s = .fault x := by
  rw [exec_of_formLinear_next hadm hmem hform, accessOperand_of_alignmentOk halign, h, andThen_fault]

/-- With the address formed and the alignment no trouble, a refusal of MemRead is the instruction's. -/
theorem exec_of_memRead_refused {x : Refusal} (h : memRead s lin (opBytes i.size) = .refused x) :
    exec i s = .refused x := by
  rw [exec_of_formLinear_next hadm hmem hform, accessOperand_of_alignmentOk halign, h, andThen_refused]

/-- With the address formed, the alignment no trouble and the bytes readable, the instruction completes. -/
theorem exec_of_bytesReadable {v : QWord} (h : BytesReadable s lin (opBytes i.size) v) :
    exec i s = .next (s.afterCmov (condHolds i.cond s.flags) i.size i.form v) := by
  have hread := (memRead_eq_next (opBytes_le i.size)).mpr h
  rw [exec_of_formLinear_next hadm hmem hform, accessOperand_of_alignmentOk halign, hread, andThen_next]

end

/-- Settles O34: the read comes before the test of the condition. -/
theorem sourceReadIsUnconditional : Obligations.SourceReadIsUnconditional := by
  intro i s hadm hmem
  rw [exec_memoryForm hadm hmem]
  refine ⟨fun x h => ?_, fun x h => ?_, fun v h => ?_⟩
  · rw [h, andThen_fault]
  · rw [h, andThen_refused]
  · rw [h, andThen_next]

/-! ### Address formation by mode (R56 to R59) -/

theorem formLinear_of_long64 {s : State} (h : s.mode = .long64) (m : MemRef) (n : Nat) :
    formLinear s m n = formLinearLong s m n := by
  simp only [formLinear, h]

theorem formLinear_of_ne_long64 {s : State} (h : s.mode ≠ .long64) (m : MemRef) (n : Nat) :
    formLinear s m n = formLinearLegacy s m n := by
  simp only [formLinear]

/-- In 64-bit mode the linear address of R59 is the model's. -/
theorem eq_longLinear {s : State} {m : MemRef} {lin : BitVec 64} (h : s.mode = .long64) (hlin : IsLinearAddress s m lin) :
    lin = s.longLinear m := by
  rw [linear_eq.mpr hlin]
  simp only [State.linear, h]

/-- Outside 64-bit mode the linear address of R56 is the model's. -/
theorem eq_legacyLinear {s : State} {m : MemRef} {lin : BitVec 64} (h : s.mode ≠ .long64)
    (hlin : IsLinearAddress s m lin) : lin = s.legacyLinear m := by
  rw [linear_eq.mpr hlin]
  simp only [State.linear]

/-- Settles O21: the address is formed where no byte is non-canonical and none wraps. -/
theorem longModeMemoryFormCompletes : Obligations.LongModeMemoryFormCompletes := by
  intro i s lin v hadm hmem hmode hlin hcanonical hwrap halign hread
  have hform : formLinear s (memRef s i.form) (opBytes i.size) = .next lin := by
    rw [formLinear_of_long64 hmode, formLinearLong_eq_next]
    exact ⟨eq_longLinear hmode hlin, everyByteCanonical_iff.mpr hcanonical, hwrap⟩
  exact exec_of_bytesReadable hadm hmem hform halign hread

/-- Outside 64-bit mode the address of an access that no check turns away is formed. -/
theorem formLinear_of_legacyAccessOk {s : State} {m : MemRef} {n : Nat} (hmode : s.mode ≠ .long64)
    (h : LegacyAccessOk s m n) : formLinear s m n = .next (s.legacyLinear m) := by
  rw [formLinear_of_ne_long64 hmode, formLinearLegacy_eq_next]
  exact ⟨rfl, h⟩

/-- Settles O22: the address is formed where the NULL, readability and limit checks pass. -/
theorem legacyMemoryFormCompletes : Obligations.LegacyMemoryFormCompletes := by
  intro i s lin v hadm hmem hmode hlin haccess halign hread
  have hform := formLinear_of_legacyAccessOk hmode haccess
  rw [← eq_legacyLinear hmode hlin] at hform
  exact exec_of_bytesReadable hadm hmem hform halign hread

/-! ### Selector, readability and limit (R57, R58, R72) -/

theorem zeroCode_eq (s : State) : s.zeroCode = if s.mode = .real then none else some 0#32 := by
  cases hmode : s.mode <;> simp [State.zeroCode, hmode]

/-- An access that the selector or the readability check turns away raises `#GP` (R58). -/
theorem formLinearLegacy_of_not_descriptorOk {s : State} {m : MemRef} (h : ¬ DescriptorOk s m) (n : Nat) :
    formLinearLegacy s m n = raiseGP s := by
  rw [formLinearLegacy]
  split
  · rfl
  · next hnull =>
    rw [if_pos]
    simp only [DescriptorOk, Bool.and_eq_true, not_and, Bool.not_eq_true, Bool.not_eq_true'] at h hnull ⊢
    grind

/-- Past the selector and the readability check, address formation is the wrap and the limit check (R57, R72). -/
theorem formLinearLegacy_of_descriptorOk {s : State} {m : MemRef} (h : DescriptorOk s m) (n : Nat) :
    formLinearLegacy s m n =
      if (s.seg m.seg).offsetWraps m.ea.toNat n then .fault .addressWrap
      else if (s.seg m.seg).outside m.ea.toNat n then (if m.seg = .ss then raiseSS s else raiseGP s)
      else .next (s.legacyLinear m) := by
  have hnull : ¬ (s.checksDescriptors && nullChecked m.seg && (s.seg m.seg).isNull) = true := by
    simp only [Bool.and_eq_true, DescriptorOk] at h ⊢
    grind
  have hreadable : ¬ (s.checksDescriptors && !(s.seg m.seg).readable) = true := by
    simp only [Bool.and_eq_true, DescriptorOk] at h ⊢
    grind
  rw [formLinearLegacy, if_neg hnull, if_neg hreadable]

/-- In protected and compatibility mode an access that the selector or the readability check turns away raises `#GP(0)`. -/
theorem exec_of_not_descriptorOk {i : Instr} {s : State} (hadm : Admitted i.size i.form s)
    (hmem : i.form.modrm.mod ≠ 3#2) (hmode : s.mode = .prot ∨ s.mode = .compat)
    (h : ¬ DescriptorOk s (memRef s i.form)) : exec i s = .fault (.exception .gp (some 0#32) none s) := by
  have hlegacy : s.mode ≠ .long64 := by rcases hmode with hmode | hmode <;> simp [hmode]
  have hcode : s.zeroCode = some 0#32 := by rcases hmode with hmode | hmode <;> simp [zeroCode_eq, hmode]
  refine exec_of_formLinear_fault hadm hmem ?_
  rw [formLinear_of_ne_long64 hlegacy, formLinearLegacy_of_not_descriptorOk h, raiseGP, raise, hcode]

theorem checksDescriptors_of_mode {s : State} (h : s.mode = .prot ∨ s.mode = .compat) : s.checksDescriptors = true := by
  rcases h with h | h <;> simp [State.checksDescriptors, h]

theorem nullChecked_eq_true {g : SegName} : nullChecked g = true ↔ g ∈ [SegName.ds, .es, .fs, .gs] := by
  cases g <;> decide

/-- The NULL selectors are 0000H to 0003H (R30). -/
theorem Segment.isNull_eq_true {g : Segment} : g.isNull = true ↔ g.selector.toNat ≤ 3 := by
  have := g.selector.isLt
  rw [Segment.isNull, beq_iff_eq, ← BitVec.toNat_inj, BitVec.extractLsb'_toNat, Nat.shiftRight_eq_div_pow]
  simp only [BitVec.toNat_ofNat]
  omega

/-- Settles O36: a NULL selector fails the first clause of the descriptor check. -/
theorem nullSelectorRaisesGeneralProtection : Obligations.NullSelectorRaisesGeneralProtection := by
  intro i s hadm hmem hmode hseg hselector
  refine exec_of_not_descriptorOk hadm hmem hmode fun hok => ?_
  have hpresent := (hok (checksDescriptors_of_mode hmode)).1 (nullChecked_eq_true.mpr hseg)
  rw [Segment.isNull_eq_true.mpr hselector] at hpresent
  cases hpresent

/-- Settles O37: an unreadable segment fails the second clause of the descriptor check. -/
theorem unreadableSegmentRaisesGeneralProtection : Obligations.UnreadableSegmentRaisesGeneralProtection := by
  intro i s hadm hmem hmode hunreadable
  refine exec_of_not_descriptorOk hadm hmem hmode fun hok => ?_
  have hreadable := (hok (checksDescriptors_of_mode hmode)).2
  rw [hunreadable] at hreadable
  cases hreadable

/-- The limit violations that are not the wrap of a segment of 4 GiB (R57, R72). -/
theorem Segment.outside_and_not_wraps {g : Segment} {ea n : Nat}
    (h : (g.expandDown = false ∧ g.limit ≠ 0xFFFFFFFF#32 ∧ ea + n - 1 > g.limit.toNat) ∨
      (g.expandDown = true ∧ (ea ≤ g.limit.toNat ∨ ea + n - 1 > if g.big = true then 0xFFFFFFFF else 0xFFFF))) :
    g.offsetWraps ea n = false ∧ g.outside ea n = true := by
  rcases h with ⟨hup, hlimit, hlast⟩ | ⟨hdown, hoffset⟩
  · simp [Segment.offsetWraps, Segment.outside, hup, hlimit, hlast]
  · simp only [Segment.offsetWraps, Segment.outside, hdown, if_true, Bool.or_eq_true, decide_eq_true_eq]
    exact ⟨rfl, hoffset⟩

/-- Settles O35: past the descriptor check and the wrap, the limit check raises by the segment. -/
theorem segmentLimitViolation : Obligations.SegmentLimitViolation := by
  intro i s hadm hmem hmode m g last hok hviolation
  obtain ⟨hwraps, houtside⟩ := Segment.outside_and_not_wraps hviolation
  refine exec_of_formLinear_fault hadm hmem ?_
  rw [formLinear_of_ne_long64 hmode, formLinearLegacy_of_descriptorOk hok, hwraps, houtside, ← zeroCode_eq]
  by_cases hss : m.seg = .ss <;> simp [m, hss, raiseSS, raiseGP, raise]

/-! ### Canonical addresses and wraps (R59, R72) -/

/-- An operand with a non-canonical byte raises as R59 says. -/
theorem formLinearLong_of_nonCanonical {s : State} {m : MemRef} {n k : Nat} (hk : k < n)
    (h : NonCanonicalAddress s.linearBits (s.longLinear m + BitVec.ofNat 64 k)) :
    formLinearLong s m n = raiseNonCanonical s m := by
  rw [formLinearLong, if_neg]
  rw [allCanonical_eq_true, everyByteCanonical_iff]
  exact fun hall => hall k hk h

/-- An admitted form has at most one segment override (R95). -/
theorem Admitted.segOverrides_length {n : OpSize} {f : Form} {s : State} (h : Admitted n f s) :
    (segOverrides f.prefixes).length ≤ 1 := by
  have hwf := h.1
  simp only [Form.wf, Form.legal, Bool.and_eq_true, decide_eq_true_eq] at hwf
  obtain ⟨_, ⟨⟨_, hlength⟩, _⟩, _⟩ := hwf
  exact hlength

/-- An admitted form whose one override is not SS does not name SS by an ignored override (R59, U6). -/
theorem stackOnlyByOverride_eq_false {n : OpSize} {f : Form} {s : State} (h : Admitted n f s)
    (hover : segOverrides f.prefixes ≠ [.ss]) : stackOnlyByOverride s f = false := by
  have hhead : (segOverrides f.prefixes).head? ≠ some .ss := by
    have hlength := h.segOverrides_length
    cases hlist : segOverrides f.prefixes with
    | nil => simp
    | cons g gs => simp_all
  simp [stackOnlyByOverride, hhead]

/-- Settles O38, by the three cases of R59 and U6. -/
theorem nonCanonicalAddressRaises : Obligations.NonCanonicalAddressRaises := by
  intro i s lin k hadm hmem hmode hlin hk hnoncanonical
  have hcode : s.zeroCode = some 0#32 := by simp [zeroCode_eq, hmode]
  have hform : formLinear s (memRef s i.form) (opBytes i.size) = raiseNonCanonical s (memRef s i.form) := by
    rw [formLinear_of_long64 hmode]
    exact formLinearLong_of_nonCanonical hk (eq_longLinear hmode hlin ▸ hnoncanonical)
  have hexec (kind : ExcKind)
      (h : (raiseNonCanonical s (memRef s i.form) : Res (BitVec 64)) = raise s kind s.zeroCode none) :
      exec i s = .fault (.exception kind (some 0#32) none s) :=
    exec_of_formLinear_fault hadm hmem (by rw [hform, h, raise, hcode])
  refine ⟨fun hss => ?default, fun hss hover => ?other, fun _ _ => ?override⟩
  case default => exact hexec .ss (by rw [raiseNonCanonical, if_pos hss, raiseSS])
  case other =>
    have hignored : (memRef s i.form).stackOverride = false := stackOnlyByOverride_eq_false hadm hover
    exact hexec .gp (by rw [raiseNonCanonical, if_neg hss, hignored, if_neg Bool.false_ne_true, raiseGP])
  case override => exact (raiseNonCanonical_eq s (memRef s i.form)).imp (hexec .ss) (hexec .gp)

/-- The access to an operand never faults as wrapping. -/
theorem accessOperand_ne_addressWrap {s : State} {lin : BitVec 64} {n : Nat} :
    accessOperand s lin n ≠ .fault .addressWrap := by
  intro h
  rcases accessOperand_eq_fault h with ⟨h, _⟩ | ⟨_, _, h⟩ | ⟨_, h, _⟩ <;> cases h

/-- Settles O39, by address formation in 64-bit mode and elsewhere. -/
theorem addressWrapFaults : Obligations.AddressWrapFaults := by
  intro i s hadm hmem
  refine ⟨fun lin hmode hlin hcanonical hwrap => ?long, fun hmode hok hup hlimit hlast => ?legacy,
    fun hmode haccess hexec => ?inside⟩
  case long =>
    obtain rfl := eq_longLinear hmode hlin
    refine exec_of_formLinear_fault hadm hmem ?_
    rw [formLinear_of_long64 hmode, formLinearLong, if_pos hwrap,
      if_pos (allCanonical_eq_true.mpr (everyByteCanonical_iff.mpr hcanonical))]
  case legacy =>
    have hwraps : (s.seg (memRef s i.form).seg).offsetWraps (memRef s i.form).ea.toNat (opBytes i.size) = true := by
      simp [Segment.offsetWraps, hup, hlimit, hlast]
    refine exec_of_formLinear_fault hadm hmem ?_
    rw [formLinear_of_ne_long64 hmode, formLinearLegacy_of_descriptorOk hok, if_pos hwraps]
  case inside =>
    rw [exec_of_formLinear_next hadm hmem (formLinear_of_legacyAccessOk hmode haccess)] at hexec
    rcases andThen_eq_fault.mp hexec with h | ⟨_, _, h⟩
    · exact accessOperand_ne_addressWrap h
    · cases h

/-! ### The paging table (R62) -/

theorem level_of_ne_real {s : State} (h : s.mode ≠ .real) : s.level = if s.mode = .v86 then 3#2 else s.cpl := by
  cases hmode : s.mode <;> simp_all [State.level]

theorem Page.covers_eq_true {p : Page} {a : BitVec 64} {acc : AccessKind} {level : BitVec 2} :
    p.covers a acc level = true ↔
      p.base.toNat ≤ a.toNat ∧ a.toNat < p.base.toNat + p.size ∧ p.access = acc ∧ p.cpl = level := by
  simp [Page.covers, and_assoc]

theorem pageOf_of_real {s : State} (h : s.mode = .real) (a : BitVec 64) (acc : AccessKind) : s.pageOf a acc = none := by
  simp only [State.pageOf, h]

theorem pageOf_of_ne_real {s : State} (h : s.mode ≠ .real) (a : BitVec 64) (acc : AccessKind) :
    s.pageOf a acc = s.paging.find? fun p => p.covers a acc s.level := by
  simp only [State.pageOf]

/-- The page of an address is of the table and covers it. -/
theorem pageOf_eq_some {s : State} {a : BitVec 64} {acc : AccessKind} {p : Page} (h : s.pageOf a acc = some p) :
    p ∈ s.paging ∧ p.covers a acc s.level = true := by
  by_cases hmode : s.mode = .real
  · simp [pageOf_of_real hmode] at h
  · rw [pageOf_of_ne_real hmode] at h
    exact ⟨List.mem_of_find?_eq_some h, List.find?_some (p := fun q : Page => q.covers a acc s.level) h⟩

theorem translateAddress_of_pageOf_none {s : State} {a : BitVec 64} {acc : AccessKind} (h : s.pageOf a acc = none) :
    translateAddress s a acc = .physical a := by
  simp only [translateAddress, h]

theorem translateAddress_of_pageOf_physical {s : State} {a b : BitVec 64} {acc : AccessKind} {p : Page}
    (h : s.pageOf a acc = some p) (hresult : p.result = .physical b) :
    translateAddress s a acc = .physical (b + (a - p.base)) := by
  simp only [translateAddress, h, hresult]

/-- An address faults exactly when its page does. -/
theorem translateAddress_eq_pageFault {s : State} {a : BitVec 64} {acc : AccessKind} {c : BitVec 32} :
    translateAddress s a acc = .pageFault c ↔ ∃ p, s.pageOf a acc = some p ∧ p.result = .pageFault c := by
  cases hpage : s.pageOf a acc with
  | none => simp [translateAddress, hpage]
  | some p => cases hresult : p.result <;> simp [translateAddress, hpage, hresult]

/-- The page faults of an operand: one at each faulting byte that is the first or lies in another page than the byte
before it (R63). -/
theorem pageFaultAt_eq_some {s : State} {acc : AccessKind} {lin : BitVec 64} {k : Nat} {f : BitVec 32 × BitVec 64} :
    pageFaultAt s acc lin k = some f ↔
      translateAddress s (byteAddress s lin k) acc = .pageFault f.1 ∧ f.2 = byteAddress s lin k ∧
        (k = 0 ∨ s.pageOf (byteAddress s lin k) acc ≠ s.pageOf (byteAddress s lin (k - 1)) acc) := by
  obtain ⟨c, a⟩ := f
  simp only [pageFaultAt]
  cases translateAddress s (byteAddress s lin k) acc with
  | physical p => simp
  | pageFault c' =>
    by_cases hnew : k = 0 ∨ s.pageOf (byteAddress s lin k) acc ≠ s.pageOf (byteAddress s lin (k - 1)) acc
    · simp [hnew, eq_comm]
    · simp [hnew]

/-- The page faults of an operand that lies in one page are at its first byte. -/
theorem pageFault_of_one_page {s : State} {acc : AccessKind} {lin : BitVec 64} {n : Nat} {f : BitVec 32 × BitVec 64}
    (hf : f ∈ pageFaults s acc lin n)
    (hpage : ∀ k < n, s.pageOf (byteAddress s lin k) acc = s.pageOf (byteAddress s lin 0) acc) :
    translateAddress s (byteAddress s lin 0) acc = .pageFault f.1 ∧ f.2 = byteAddress s lin 0 := by
  obtain ⟨k, hk, hat⟩ := List.mem_filterMap.mp hf
  rw [List.mem_range] at hk
  obtain ⟨hfault, haddress, rfl | hnew⟩ := pageFaultAt_eq_some.mp hat
  · exact ⟨hfault, haddress⟩
  · exact absurd ((hpage k hk).trans (hpage (k - 1) (by omega)).symm) hnew

/-- MemRead of an operand with a byte that faults raises `#PF` with one of the operand's page faults (R63). -/
theorem memRead_of_pageFault {s : State} {lin : BitVec 64} {n : Nat}
    (h : ∃ k < n, ∃ c, translateAddress s (byteAddress s lin k) .read = .pageFault c) :
    ∃ f ∈ pageFaults s .read lin n, memRead s lin n = .fault (.exception .pf (some f.1) (some f.2) s) := by
  obtain ⟨k, hk, c, hc⟩ := h
  cases hfaults : pageFaults s .read lin n with
  | nil =>
    obtain ⟨p, hp⟩ := pageFaults_eq_nil.mp hfaults k hk
    rw [hp] at hc
    cases hc
  | cons f fs =>
    obtain ⟨g, hg, hreport⟩ := reportPageFault_eq (α := QWord) s f fs
    exact ⟨g, hg, by simp only [memRead, hfaults, hreport]⟩

/-- An address that no page of the table covers has no page. -/
theorem pageOf_of_uncovered {s : State} {a : BitVec 64} {acc : AccessKind}
    (h : ∀ p ∈ s.paging, ¬ p.covers a acc s.level = true) : s.pageOf a acc = none := by
  rw [Option.eq_none_iff_forall_ne_some]
  intro p hp
  obtain ⟨hmem, hcovers⟩ := pageOf_eq_some hp
  exact h p hmem hcovers

/-- Outside real-address mode the page of an address is the first of the table that covers it. -/
theorem pageOf_of_first {s : State} {a : BitVec 64} {acc : AccessKind} {before after : List Page} {p : Page}
    (hmode : s.mode ≠ .real) (hpaging : s.paging = before ++ p :: after)
    (hbefore : ∀ q ∈ before, ¬ q.covers a acc s.level = true) (hp : p.covers a acc s.level = true) :
    s.pageOf a acc = some p := by
  rw [pageOf_of_ne_real hmode, List.find?_eq_some_iff_append]
  exact ⟨hp, before, after, hpaging, fun q hq => by simpa using hbefore q hq⟩

/-- Settles O41: the table's answers, and the page fault that MemRead reports. -/
theorem pageFaultIsReported : Obligations.PageFaultIsReported := by
  constructor
  case left =>
    intro s a acc covers
    have hreal (hmode : s.mode = .real) : translateAddress s a acc = .physical a :=
      translateAddress_of_pageOf_none (pageOf_of_real hmode a acc)
    have hcovers (hmode : s.mode ≠ .real) (p : Page) : p.covers a acc s.level = true ↔ covers p := by
      rw [Page.covers_eq_true, level_of_ne_real hmode]
    refine ⟨hreal, fun hnone => ?uncovered, fun before p after hmode hpaging hbefore hp => ?covered⟩
    case uncovered =>
      by_cases hmode : s.mode = .real
      · exact hreal hmode
      · exact translateAddress_of_pageOf_none
          (pageOf_of_uncovered fun p hp => (hcovers hmode p).not.mpr (hnone p hp))
    case covered =>
      have hpage : s.pageOf a acc = some p :=
        pageOf_of_first hmode hpaging (fun q hq => (hcovers hmode q).not.mpr (hbefore q hq)) ((hcovers hmode p).mpr hp)
      exact ⟨fun b hb => translateAddress_of_pageOf_physical hpage hb,
        fun c hc => translateAddress_eq_pageFault.mpr ⟨p, hpage, hc⟩⟩
  case right =>
    intro i s lin hadm hmem hform halign hfault
    obtain ⟨f, hf, hread⟩ := memRead_of_pageFault hfault
    have hexec := exec_of_memRead_fault hadm hmem hform halign hread
    constructor
    · obtain ⟨k, hk, haddress, hcode⟩ := mem_pageFaults hf
      rw [haddress] at hcode hexec
      exact ⟨k, hk, f.1, hcode, hexec⟩
    · intro hpage
      obtain ⟨hcode, haddress⟩ := pageFault_of_one_page hf hpage
      rw [haddress] at hexec
      exact ⟨f.1, hcode, hexec⟩

/-! ### The code of a page fault (R62, R206) -/

/-- A `#PF` of an instruction is a page fault of a byte of its operand. -/
theorem exec_pageFault_code {i : Instr} {s t : State} {c : BitVec 32} {a : Option (BitVec 64)}
    (h : exec i s = .fault (.exception .pf (some c) a t)) : ∃ b, translateAddress s b .read = .pageFault c := by
  rw [exec_eq_cmov, cmov_eq_fault] at h
  rcases h with hdecode | ⟨_, hread⟩
  · rcases decodeChecks_eq_fault hdecode with h | h <;> cases h
  · rcases loadOperand_eq_fault (readSource_eq_fault.mp hread).2 with
      (h | h | h) | ⟨lin, _, ⟨h, _⟩ | ⟨f, hf, h⟩ | ⟨_, h, _⟩⟩ <;> cases h
    obtain ⟨_, _, _, hcode⟩ := mem_pageFaults hf
    exact ⟨f.2, hcode⟩

/-- The code of a faulting page that is read, where the table is as the invariant asks (R62). -/
theorem Page.codeOk_of_read {p : Page} {c : BitVec 32} (h : p.codeOk = true) (haccess : p.access = .read)
    (hresult : p.result = .pageFault c) :
    c.getLsbD 1 = false ∧ c.getLsbD 4 = false ∧ c.getLsbD 2 = decide (p.cpl = 3#2) := by
  simpa [Page.codeOk, haccess, hresult, and_assoc, beq_eq_decide] using h

/-- Settles O43: the code is that of a page of the table, whose codes the invariant speaks of. -/
theorem pageFaultCodeBits : Obligations.PageFaultCodeBits := by
  intro i s t c a hinv hexec
  obtain ⟨_, _, _, _, _, hpaging, _, _⟩ := hinv
  obtain ⟨b, hb⟩ := exec_pageFault_code hexec
  obtain ⟨p, hpage, hresult⟩ := translateAddress_eq_pageFault.mp hb
  obtain ⟨hmem, hcovers⟩ := pageOf_eq_some hpage
  obtain ⟨_, _, haccess, hlevel⟩ := Page.covers_eq_true.mp hcovers
  rw [← hlevel]
  exact Page.codeOk_of_read (hpaging p hmem) haccess hresult

/-! ### Alignment, device memory and unlisted bytes (R61, R65, R66) -/

/-- Settles O40: with no page fault, the alignment check is the first to stop the access. -/
theorem misalignedOperandRaisesAlignmentCheck : Obligations.MisalignedOperandRaisesAlignmentCheck := by
  intro i s lin hadm hmem hform hchecks hmisaligned htranslate
  have haccess : accessOperand s lin (opBytes i.size) = .fault (.exception .ac (some 0#32) none s) := by
    simp [accessOperand, hchecks, hmisaligned, pageFaults_eq_nil.mpr htranslate, raiseAC, raise]
  rw [exec_of_formLinear_next hadm hmem hform, haccess, andThen_fault]

/-- Reading stops where a look finds nothing, at an address that a look finds nothing at. -/
theorem readBytes_of_none {look : Nat → Nat → Option Byte} {ps : List Nat} {k : Nat}
    (h : ∃ j, ∃ hj : j < ps.length, look (k + j) ps[j] = none) :
    ∃ q ∈ ps, readBytes look ps k = .fault (.unmapped q) ∧ ∃ e, look e q = none := by
  obtain ⟨j, hj, hnone⟩ := h
  cases hread : readBytes look ps k with
  | next bs =>
    obtain ⟨hlength, hbytes⟩ := readBytes_eq_next.mp hread
    have hbyte := hbytes j hj
    rw [hnone, List.getElem?_eq_getElem (by omega)] at hbyte
    cases hbyte
  | fault x =>
    obtain ⟨q, hq, rfl, he⟩ := readBytes_eq_fault hread
    exact ⟨q, hq, rfl, he⟩
  | refused x => exact absurd hread readBytes_not_refused

section
variable {s : State} {lin : BitVec 64} {n : Nat} {p : Nat → BitVec 64}

/-- An operand whose bytes all translate has no page fault. -/
theorem pageFaults_of_translated {acc : AccessKind}
    (h : ∀ k < n, translateAddress s (byteAddress s lin k) acc = .physical (p k)) : pageFaults s acc lin n = [] :=
  pageFaults_eq_nil.mpr fun k hk => ⟨p k, h k hk⟩

/-- The physical addresses of a translated operand are those of its bytes. -/
theorem mem_physicalAddresses {acc : AccessKind}
    (h : ∀ k < n, translateAddress s (byteAddress s lin k) acc = .physical (p k)) {q : Nat} :
    q ∈ physicalAddresses s acc lin n ↔ ∃ k < n, (p k).toNat = q := by
  simp [physicalAddresses_eq h]

/-- MemRead of a translated operand with a byte in device memory is refused at such a byte (R65). -/
theorem memRead_of_device (h : ∀ k < n, translateAddress s (byteAddress s lin k) .read = .physical (p k))
    (hdevice : ∃ k < n, s.isDevice (p k).toNat = true) :
    ∃ k < n, s.isDevice (p k).toNat = true ∧ memRead s lin n = .refused (.deviceMemory (p k).toNat) := by
  cases hfind : (physicalAddresses s .read lin n).find? s.isDevice with
  | none =>
    obtain ⟨k, hk, hd⟩ := hdevice
    exact absurd hd (List.find?_eq_none.mp hfind _ ((mem_physicalAddresses h).mpr ⟨k, hk, rfl⟩))
  | some q =>
    obtain ⟨k, hk, rfl⟩ := (mem_physicalAddresses h).mp (List.mem_of_find?_eq_some hfind)
    exact ⟨k, hk, List.find?_some hfind, by simp only [memRead, pageFaults_of_translated h, hfind]⟩

/-- MemRead of a translated operand with no byte in device memory and an unlisted one is stuck at an unlisted byte (R66). -/
theorem memRead_of_unlisted (h : ∀ k < n, translateAddress s (byteAddress s lin k) .read = .physical (p k))
    (hdevice : ∀ k < n, s.isDevice (p k).toNat = false) (hunlisted : ∃ k < n, Memory.read s.mem (p k).toNat = none) :
    ∃ k < n, Memory.read s.mem (p k).toNat = none ∧ memRead s lin n = .fault (.unmapped (p k).toNat) := by
  have hfind : (physicalAddresses s .read lin n).find? s.isDevice = none := by
    rw [List.find?_eq_none]
    intro q hq
    obtain ⟨k, hk, rfl⟩ := (mem_physicalAddresses h).mp hq
    simp [hdevice k hk]
  obtain ⟨j, hj, hnone⟩ := hunlisted
  obtain ⟨q, hq, hread, e, he⟩ := readBytes_of_none (ps := physicalAddresses s .read lin n) (k := 0)
    (look := fun k p => s.byteSeen (readEvent lin n k) p)
    ⟨j, by simpa [physicalAddresses_eq h] using hj, by simpa [physicalAddresses_eq h, byteSeen_eq_none] using hnone⟩
  obtain ⟨k, hk, rfl⟩ := (mem_physicalAddresses h).mp hq
  exact ⟨k, hk, byteSeen_eq_none.mp he,
    by simp only [memRead, pageFaults_of_translated h, hfind, hread, andThen_fault]⟩

end

/-- Settles O46: MemRead's refusal is the instruction's. -/
theorem deviceOperandIsRefused : Obligations.DeviceOperandIsRefused := by
  intro i s lin p hadm hmem hform halign htranslate hdevice
  obtain ⟨k, hk, hd, hread⟩ := memRead_of_device htranslate hdevice
  exact ⟨k, hk, hd, exec_of_memRead_refused hadm hmem hform halign hread⟩

/-- Settles O45: MemRead's fault is the instruction's. -/
theorem unmappedByteIsStuck : Obligations.UnmappedByteIsStuck := by
  intro i s lin p hadm hmem hform halign hbytes hunlisted
  obtain ⟨k, hk, hnone, hread⟩ :=
    memRead_of_unlisted (fun k hk => (hbytes k hk).1) (fun k hk => (hbytes k hk).2) hunlisted
  exact ⟨k, hk, hnone, exec_of_memRead_fault hadm hmem hform halign hread⟩

/-! ### Parts of a little-endian value (R51) -/

/-- The value of `m` bytes of a quadword from byte `off` on. -/
def bytesAt (v : QWord) (off m : Nat) : QWord :=
  (v.extractLsb' (8 * off) (8 * m)).setWidth 64

theorem bytesAt_toNat_lt (v : QWord) (off m : Nat) : (bytesAt v off m).toNat < 2 ^ (8 * m) := by
  rw [bytesAt, BitVec.toNat_setWidth]
  exact lt_of_le_of_lt (Nat.mod_le _ _) (BitVec.isLt _)

theorem byteOf_bytesAt {v : QWord} {off m k : Nat} (hk : k < m) (hm : m ≤ 8) :
    byteOf (bytesAt v off m) k = byteOf v (off + k) := by
  ext i hi
  have hbit : 8 * k + i < 8 * m := by omega
  have hword : 8 * k + i < 64 := by omega
  simp [byteOf, bytesAt, hbit, hword, Nat.mul_add, Nat.add_assoc]

/-- The first `n` bytes of a quadword, as a number. -/
theorem bytesAt_zero (v : QWord) (n : Nat) : bytesAt v 0 n = BitVec.ofNat 64 (v.toNat % 2 ^ (8 * n)) := by
  simp [bytesAt, ← BitVec.toNat_inj]

/-! ### Reads inside a read (R51, R53) -/

theorem byteAddress_toNat (s : State) (lin : BitVec 64) (k : Nat) :
    (byteAddress s lin k).toNat = (lin.toNat + k) % 2 ^ (if s.mode = .long64 then 64 else 32) :=
  byteAddress_eq.mp rfl

/-- Byte `k` on from byte `off` of an operand is its byte `off + k`. -/
theorem byteAddress_byteAddress (s : State) (lin : BitVec 64) (off k : Nat) :
    byteAddress s (byteAddress s lin off) k = byteAddress s lin (off + k) := by
  rw [byteAddress_eq, byteAddress_toNat, byteAddress_toNat, Nat.mod_add_mod, Nat.add_assoc]

/-- An even byte of an operand at an even address stands at an even address, however the addresses wrap. -/
theorem byteAddress_even {s : State} {lin : BitVec 64} {k : Nat} (hlin : lin.toNat % 2 = 0) (hk : k % 2 = 0) :
    (byteAddress s lin k).toNat % 2 = 0 := by
  rw [byteAddress_toNat]
  split <;> omega

/-- Some of the bytes of a readable operand are a readable operand, where its read sees the same bytes there. -/
theorem BytesReadable.part {s : State} {lin lin' : BitVec 64} {n off m : Nat} {v : QWord} (h : BytesReadable s lin n v)
    (hm : m ≤ 8) (hoff : off + m ≤ n) (haddress : ∀ k < m, byteAddress s lin' k = byteAddress s lin (off + k))
    (hseen : ∀ k < m, ∀ p, translateAddress s (byteAddress s lin (off + k)) .read = .physical p →
      s.byteSeen (readEvent lin' m k) p.toNat = s.byteSeen (readEvent lin n (off + k)) p.toNat) :
    BytesReadable s lin' m (bytesAt v off m) := by
  obtain ⟨_, hbytes⟩ := bytesReadable_iff.mp h
  refine bytesReadable_iff.mpr ⟨bytesAt_toNat_lt v off m, fun k hk => ?_⟩
  obtain ⟨p, hphysical, hdevice, hbyte⟩ := hbytes (off + k) (by omega)
  refine ⟨p, by rw [haddress k hk, hphysical], hdevice, ?_⟩
  rw [hseen k hk p hphysical, hbyte, byteOf_bytesAt hk hm]

/-- A read inside the read of a quadword: both are one event, or no other agent writes to the quadword (R249). -/
theorem memRead_part {s : State} {lin lin' : BitVec 64} {off m : Nat} {v : QWord} (h : memRead s lin 8 = .next v)
    (hoff : off + m ≤ 8) (haddress : ∀ k < m, byteAddress s lin' k = byteAddress s lin (off + k))
    (hagree : (lin.toNat % 8 = 0 ∧ lin'.toNat % m = 0) ∨ ∀ k < 8, ∀ p,
      translateAddress s (byteAddress s lin k) .read = .physical p → NotWrittenByOthers s p.toNat) :
    memRead s lin' m = .next (bytesAt v off m) := by
  have hm : m ≤ 8 := by omega
  refine (memRead_eq_next hm).mpr (((memRead_eq_next le_rfl).mp h).part hm hoff haddress fun k hk p hp => ?_)
  rcases hagree with ⟨haligned, haligned'⟩ | hown
  · rw [readEvent, readEvent, if_pos haligned, if_pos haligned']
  · have hnotWritten := hown (off + k) (by omega) p hp
    rw [byteSeen_of_not_written hnotWritten, byteSeen_of_not_written hnotWritten]

/-- Settles O44: the three reads are parts of the quadword's. -/
theorem mixedWidthReads : Obligations.MixedWidthReads := by
  intro s lin v hread hagree
  have hdword : bytesAt v 0 4 = 0#32 ++ v.extractLsb' 0 32 := BitVec.setWidth_eq_append (by decide)
  have hword : bytesAt v 0 2 = 0#48 ++ v.extractLsb' 0 16 := BitVec.setWidth_eq_append (by decide)
  have hlast : bytesAt v 6 2 = 0#48 ++ v.extractLsb' 48 16 := BitVec.setWidth_eq_append (by decide)
  rw [← hdword, ← hword, ← hlast]
  exact ⟨memRead_part hread (by decide) (fun k _ => by rw [Nat.zero_add]) (hagree.imp_left fun h => ⟨h, by omega⟩),
    memRead_part hread (by decide) (fun k _ => by rw [Nat.zero_add]) (hagree.imp_left fun h => ⟨h, by omega⟩),
    memRead_part hread (by decide) (fun k _ => byteAddress_byteAddress s lin 6 k)
      (hagree.imp_left fun h => ⟨h, byteAddress_even (by omega) (by decide)⟩)⟩

/-! ### Reading back what MemWrite stored (R53, R54) -/

/-- An address that reads a byte is listed with it. -/
theorem Memory.mem_of_read {m : List Host.Cell} {x : Nat} {b : Byte} (h : Memory.read m x = some b) : (x, b) ∈ m := by
  induction m with
  | nil => cases h
  | cons c m ih =>
    obtain ⟨a, e⟩ := c
    rw [Memory.read] at h
    split at h
    · next hax =>
      obtain rfl := hax
      obtain rfl := Option.some.inj h
      exact List.mem_cons_self
    · exact List.mem_cons_of_mem _ (ih h)

/-- A store to addresses all different is read back byte by byte. -/
theorem writeBytes_read {m m' : List Host.Cell} {v : QWord} {ps : List Nat} {k : Nat} (hm : Memory.wf m)
    (hps : ps.Nodup) (h : writeBytes m v ps k = .next m') (j : Nat) (hj : j < ps.length) :
    Memory.read m' ps[j] = some (byteOf v (k + j)) := by
  induction ps generalizing m k j with
  | nil => cases hj
  | cons p ps ih =>
    obtain ⟨hp, hps⟩ := List.nodup_cons.mp hps
    rw [writeBytes] at h
    split at h
    · cases h
    · next b hb =>
      have hwf : Memory.wf (Memory.write m p (byteOf v k)) :=
        Memory.wf_write _ hm (hm.2 (p, b) (Memory.mem_of_read hb))
      cases j with
      | zero =>
        have hkept := (writeBytes_next h hwf).2 p hp
        simpa [Memory.read_write _ _ _ _ hm.1] using hkept
      | succ j =>
        have hrest := ih hwf hps h j (by simpa using hj)
        simpa [Nat.add_assoc, Nat.add_comm 1 j] using hrest

/-- A MemWrite that completes stores the value's bytes at the operand's physical addresses, none of them a device's. -/
theorem memWrite_next_writeBytes {s s' : State} {lin : BitVec 64} {n : Nat} {v : QWord}
    (h : memWrite s lin n v = .next s') :
    (∀ q ∈ physicalAddresses s .write lin n, s.isDevice q = false) ∧
      writeBytes s.mem v (physicalAddresses s .write lin n) 0 = .next s'.mem := by
  rw [memWrite] at h
  split at h
  · next f fs _ =>
    obtain ⟨g, _, hreport⟩ := reportPageFault_eq (α := State) s f fs
    rw [hreport] at h
    cases h
  · split at h
    · cases h
    · next hfind =>
      obtain ⟨m, hwrite, hs'⟩ := andThen_eq_next.mp h
      obtain rfl := Host.Outcome.next.inj hs'
      exact ⟨fun q hq => Bool.eq_false_iff.mpr (List.find?_eq_none.mp hfind q hq), hwrite⟩

/-- Settles O47: the frame of the store, and its bytes read back. -/
theorem memWriteThenMemRead : Obligations.MemWriteThenMemRead := by
  intro s s' lin n v p hn hmem hwrite hp
  obtain ⟨hs', hwf, hframe⟩ := memWrite_next hwrite hmem
  obtain ⟨hdevice, hbytes⟩ := memWrite_next_writeBytes hwrite
  refine ⟨hwf, fun a ha => hframe a fun hmem => ?_, fun hread hdistinct hown => ?_⟩
  · obtain ⟨k, hk, rfl⟩ := (mem_physicalAddresses hp).mp hmem
    exact ha k hk rfl
  · have hnodup : (physicalAddresses s .write lin n).Nodup := by
      rw [physicalAddresses_eq hp]
      refine List.Nodup.map_on (fun j hj k hk heq => ?_) List.nodup_range
      exact hdistinct j (List.mem_range.mp hj) k (List.mem_range.mp hk) (BitVec.eq_of_toNat_eq heq)
    have hstored (k : Nat) (hk : k < n) : Memory.read s'.mem (p k).toNat = some (byteOf v k) := by
      have hbyte := writeBytes_read hmem hnodup hbytes k (by simpa [physicalAddresses_eq hp] using hk)
      simpa [physicalAddresses_eq hp] using hbyte
    rw [← bytesAt_zero, memRead_eq_next hn, bytesReadable_iff]
    refine ⟨bytesAt_toNat_lt v 0 n, fun k hk => ⟨p k, ?_, ?_, ?_⟩⟩
    · rw [hs']
      exact hread k hk
    · rw [hs']
      exact hdevice _ ((mem_physicalAddresses hp).mpr ⟨k, hk, rfl⟩)
    · have hown' : NotWrittenByOthers s' (p k).toNat := by
        rw [hs']
        exact hown k hk
      rw [byteSeen_of_not_written hown', hstored k hk, byteOf_bytesAt hk hn, Nat.zero_add]

/-! ### What a read answers (R53, R64, R249) -/

/-- A byte that a read event sees is the memory map's, or what another agent has put over it. -/
theorem byteSeen_eq_some {s : State} {e q : Nat} {b : Byte} :
    s.byteSeen e q = some b ↔ ∃ own, Memory.read s.mem q = some own ∧
      b = match s.readOracle[e]? with
        | none => own
        | some written => (Memory.read written q).getD own := by
  rw [State.byteSeen]
  cases Memory.read s.mem q with
  | none => simp
  | some own => cases s.readOracle[e]? <;> simp [eq_comm]

/-- Each byte of a value that MemRead answers is seen by its read event. -/
theorem memRead_byte {s : State} {lin : BitVec 64} {n : Nat} {v : QWord} (hn : n ≤ 8) (h : memRead s lin n = .next v)
    {k : Nat} (hk : k < n) : ∃ p : BitVec 64, translateAddress s (byteAddress s lin k) .read = .physical p ∧
      s.isDevice p.toNat = false ∧ s.byteSeen (readEvent lin n k) p.toNat = some (byteOf v k) :=
  (bytesReadable_iff.mp ((memRead_eq_next hn).mp h)).2 k hk

/-- With other registers, another program counter and another read oracle, an operand that could be read is read again,
and the value is what the read events see there. -/
theorem memRead_with {s : State} {lin : BitVec 64} {n : Nat} {v u : QWord} (hn : n ≤ 8) (h : memRead s lin n = .next v)
    (hu : u.toNat < 2 ^ (8 * n)) (regs : Vector (BitVec 64) 16) (pc : BitVec 64) (oracle : List (List Host.Cell))
    (hseen : ∀ k < n, ∀ p, translateAddress s (byteAddress s lin k) .read = .physical p →
      s.byteSeen (readEvent lin n k) p.toNat = some (byteOf v k) →
      State.byteSeen { s with regs := regs, pc := pc, readOracle := oracle } (readEvent lin n k) p.toNat =
        some (byteOf u k)) :
    memRead { s with regs := regs, pc := pc, readOracle := oracle } lin n = .next u := by
  refine (memRead_eq_next hn).mpr (bytesReadable_iff.mpr ⟨hu, fun k hk => ?_⟩)
  obtain ⟨p, hp, hdevice, hbyte⟩ := memRead_byte hn h hk
  exact ⟨p, hp, hdevice, hseen k hk p hp hbyte⟩

/-- Two reads of one operand, with a run between them, agree where no other agent writes to it (R249). -/
theorem memRead_of_run {steps : Nat} {s s' : State} {lin : BitVec 64} {n : Nat} {v : QWord} (hn : n ≤ 8)
    (hrun : Sys2Proof.core.run steps s = .next s') (h : memRead s lin n = .next v)
    (hown : ∀ k < n, ∀ p, translateAddress s (byteAddress s lin k) .read = .physical p → NotWrittenByOthers s p.toNat) :
    memRead s' lin n = .next v := by
  obtain ⟨heq, count, hdrop⟩ := SameButRegsPcOracle.of_run hrun
  have hv := (bytesReadable_iff.mp ((memRead_eq_next hn).mp h)).1
  rw [heq]
  refine memRead_with hn h hv _ _ _ fun k hk p hp hbyte => ?_
  rw [byteSeen_of_not_written (hown k hk p hp)] at hbyte
  rw [byteSeen_of_not_written]
  · exact hbyte
  · intro written hwritten
    rw [hdrop] at hwritten
    exact hown k hk p hp written (List.mem_of_mem_drop hwritten)

/-- A map with a byte for each of some numbers, at addresses all different, reads each byte at its address. -/
theorem Memory.read_map {ks : List Nat} {address : Nat → Nat} (byte : Nat → Byte)
    (hdistinct : ∀ j ∈ ks, ∀ k ∈ ks, address j = address k → j = k) {k : Nat} (hk : k ∈ ks) :
    Memory.read (ks.map fun j => (address j, byte j)) (address k) = some (byte k) := by
  induction ks with
  | nil => cases hk
  | cons j js ih =>
    rw [List.map_cons, Memory.read]
    by_cases hjk : address j = address k
    · rw [if_pos hjk, hdistinct j List.mem_cons_self k hk hjk]
    · have hk' : k ∈ js := (List.mem_cons.mp hk).resolve_left fun h => hjk (h ▸ rfl)
      rw [if_neg hjk]
      exact ih (fun a ha b hb => hdistinct a (List.mem_cons_of_mem _ ha) b (List.mem_cons_of_mem _ hb)) hk'

/-- An oracle whose every event of an operand's read puts the bytes of a value at the operand's physical addresses. -/
def oracleAnswering (p : Nat → BitVec 64) (n : Nat) (u : QWord) : List (List Host.Cell) :=
  List.replicate 8 ((List.range n).map fun k => ((p k).toNat, byteOf u k))

theorem readEvent_le (lin : BitVec 64) (n k : Nat) : readEvent lin n k ≤ k := by
  rw [readEvent]
  split
  · exact Nat.zero_le k
  · exact le_rfl

/-- Any value of the operand's width may be answered, where its bytes lie at addresses all different (R53). -/
theorem memRead_oracleAnswering {s : State} {lin : BitVec 64} {n : Nat} {v u : QWord} {p : Nat → BitVec 64} (hn : n ≤ 8)
    (h : memRead s lin n = .next v) (hu : u.toNat < 2 ^ (8 * n))
    (hp : ∀ k < n, translateAddress s (byteAddress s lin k) .read = .physical (p k))
    (hdistinct : ∀ j < n, ∀ k < n, p j = p k → j = k) :
    memRead { s with readOracle := oracleAnswering p n u } lin n = .next u := by
  refine memRead_with hn h hu s.regs s.pc _ fun k hk q hq hbyte => ?_
  obtain rfl : p k = q := Translation.physical.inj ((hp k hk).symm.trans hq)
  obtain ⟨own, hlisted, _⟩ := byteSeen_eq_some.mp hbyte
  have hevent : (oracleAnswering p n u)[readEvent lin n k]? =
      some ((List.range n).map fun k => ((p k).toNat, byteOf u k)) := by
    have hlt : readEvent lin n k < 8 := lt_of_le_of_lt (readEvent_le lin n k) (by omega)
    rw [oracleAnswering, List.getElem?_replicate, if_pos hlt]
  have hread : Memory.read ((List.range n).map fun k => ((p k).toNat, byteOf u k)) (p k).toNat = some (byteOf u k) := by
    refine Memory.read_map (byteOf u) (fun i hi j hj heq => ?_) (List.mem_range.mpr hk)
    exact hdistinct i (List.mem_range.mp hi) j (List.mem_range.mp hj) (BitVec.eq_of_toNat_eq heq)
  exact byteSeen_eq_some.mpr ⟨own, hlisted, by simp only [hevent, hread, Option.getD_some]⟩

/-- Settles O60: what an event sees, what a run leaves, and the oracle that answers a given value. -/
theorem readOracle : Obligations.ReadOracle := by
  refine ⟨fun s lin n v hn hread k hk => ?byte, fun steps s s' lin n v hn hrun hread hown => ?agree,
    fun s lin n v u hn hread hu hdistinct => ?any⟩
  case byte =>
    obtain ⟨p, hp, _, hbyte⟩ := memRead_byte hn hread hk
    obtain ⟨own, hlisted, hseen⟩ := byteSeen_eq_some.mp hbyte
    exact ⟨p, own, hp, hlisted, hseen⟩
  case agree => exact memRead_of_run hn hrun hread hown
  case any =>
    choose! p hp _ using fun k (hk : k < n) => memRead_byte hn hread hk
    refine ⟨oracleAnswering p n u, memRead_oracleAnswering hn hread hu hp fun j hj k hk heq => ?_⟩
    exact hdistinct j hj k hk (by rw [hp j hj, hp k hk, heq])

end Sys2Proof.Machine

/-! PROOFS. The family of 30_encoding.md: the decoder and the encoder undo each other, the checks of decoding, sizes,
register numbers, effective addresses and segments. -/

namespace Sys2Proof

/-! ### Encoding what was decoded (R80, R107, R109, R113) -/

/-- Settles O1: the prefixes, the opcode and the form of an encoding are each read back. -/
theorem decodeOfEncodeIsCanonical : Obligations.DecodeOfEncodeIsCanonical :=
  fun _ _ rest hencodable => decode_encode_append hencodable rest

/-- The prefixes taken off the front of some bytes may stand in the context, and their bytes are what was taken. -/
theorem takePrefixes_bytes (ctx : Ctx) (bs : List Byte) :
    (takePrefixes ctx bs).1.map Prefix.byte ++ (takePrefixes ctx bs).2 = bs ∧
      ∀ p ∈ (takePrefixes ctx bs).1, ctx.mode = .long64 ∨ p.isRex = false := by
  induction bs with
  | nil => simp [takePrefixes]
  | cons b bs ih =>
    cases hb : Prefix.ofByte ctx b with
    | none => simp [takePrefixes, hb]
    | some p =>
      obtain ⟨hbyte, hstand⟩ := Prefix.byte_of_ofByte hb
      obtain ⟨hbytes, hall⟩ := ih
      simp only [takePrefixes, hb, List.map_cons, List.cons_append, hbyte, hbytes, List.forall_mem_cons, true_and]
      exact ⟨hstand, hall⟩

/-- A SIB byte read from bytes is there exactly where one is asked for, and its byte is what was taken (R86). -/
theorem takeSib_eq_some {present : Bool} {bs rest : List Byte} {sib : Option Sib}
    (h : takeSib present bs = some (sib, rest)) : sib.isSome = present ∧ sibBytes sib ++ rest = bs := by
  unfold takeSib at h
  split at h
  · obtain ⟨rfl, rfl⟩ := Prod.mk.inj (Option.some.inj h)
    exact ⟨rfl, rfl⟩
  · obtain ⟨rfl, rfl⟩ := Prod.mk.inj (Option.some.inj h)
    exact ⟨rfl, by simp [sibBytes]⟩
  · cases h

/-- A form read from bytes has the prefixes it was read after, the SIB byte and the displacement that R86 and R87 ask for,
and its bytes are what was taken. -/
theorem takeForm_eq_some {ctx : Ctx} {ps : List Prefix} {bs rest : List Byte} {f : Form}
    (h : takeForm ctx ps bs = some (f, rest)) :
    f.prefixes = ps ∧ f.sib.isSome = needsSib (addressSize ctx ps) f.modrm ∧
      f.disp.kind = dispKind (addressSize ctx ps) f.modrm f.sib ∧
      f.modrm.byte :: (sibBytes f.sib ++ (f.disp.bytes ++ rest)) = bs := by
  cases bs with
  | nil => simp [takeForm] at h
  | cons b bs =>
    simp only [takeForm] at h
    split at h
    · cases h
    · next sib bs' hsib =>
      split at h
      · cases h
      · next d rest' hdisp =>
        obtain ⟨rfl, rfl⟩ := Prod.mk.inj (Option.some.inj h)
        obtain ⟨hpresent, hsibBytes⟩ := takeSib_eq_some hsib
        obtain ⟨hkind, hdispBytes⟩ := takeDisp_eq_some hdisp
        exact ⟨rfl, hpresent, hkind, by rw [hdispBytes, hsibBytes, ModRM.byte_ofByte]⟩

/-- Everything the decoder can answer as an instruction: prefixes, `0F`, a byte whose high nibble is 4 and a form, under
the canonical mnemonic of that byte and of the operand size that the prefixes give. -/
theorem decode_eq_instr {ctx : Ctx} {bs rest : List Byte} {i : Instr} (h : decode ctx bs = .instr i rest) :
    ∃ b1 r1 f, (takePrefixes ctx bs).2 = 0x0F#8 :: b1 :: r1 ∧ highNibbleIs4 b1 = true ∧
      takeForm ctx (takePrefixes ctx bs).1 r1 = some (f, rest) ∧
      i = Instr.ofParts (Cond.ofNum (b1.extractLsb' 0 4)) (operandSize ctx f.prefixes) f := by
  simp only [decode] at h
  split at h
  · cases h
  · next b0 r0 hrest =>
    split at h
    · next h0F =>
      split at h
      · cases h
      · next b1 r1 =>
        split at h
        · next h4 =>
          split at h
          · cases h
          · next f rest' hform =>
            obtain ⟨rfl, rfl⟩ := Decoded.instr.inj h
            exact ⟨b1, r1, f, h0F ▸ hrest, h4, hform, rfl⟩
        · cases h
    · cases h

/-- Settles O2: the bytes taken for each part of the instruction are the bytes of that part. -/
theorem encodeOfDecodeGivesTheBytesBack : Obligations.EncodeOfDecodeGivesTheBytesBack := by
  intro ctx bs rest i hdecode
  obtain ⟨b1, r1, f, hopcode, h4, hform, rfl⟩ := decode_eq_instr hdecode
  obtain ⟨hprefixes, hsib, hdisp, hformBytes⟩ := takeForm_eq_some hform
  obtain ⟨hbytes, hstand⟩ := takePrefixes_bytes ctx bs
  rw [← hprefixes] at hbytes hstand hsib hdisp
  refine ⟨?bytes, ?encodable, ?canonical⟩
  case bytes =>
    rw [hopcode, ← hformBytes] at hbytes
    simpa [encode, opcodeByte_ofNum b1 h4] using hbytes
  case encodable =>
    rw [Instr.encodable, Instr.ofParts_form, Instr.ofParts_size]
    exact Form.encodable_iff.mpr ⟨hstand, rfl, hsib, hdisp⟩
  case canonical => simp [Instr.canonical]

/-! ### Synonyms (R113) -/

@[simp] theorem Instr.canonical_cond (i : Instr) : i.canonical.cond = i.cond := Instr.ofParts_cond ..
@[simp] theorem Instr.canonical_size (i : Instr) : i.canonical.size = i.size := Instr.ofParts_size ..
@[simp] theorem Instr.canonical_form (i : Instr) : i.canonical.form = i.form := Instr.ofParts_form ..

/-- An instruction and its canonical mnemonic have the same bytes (R113). -/
theorem encode_canonical (i : Instr) : encode i.canonical = encode i := by
  simp only [encode, Instr.canonical_cond, Instr.canonical_form]

/-- Settles O3: equal bytes decode to one instruction, and the bytes are those of the canonical mnemonic. -/
theorem synonymsEncodeAlike : Obligations.SynonymsEncodeAlike := by
  intro ctx i j hi hj
  constructor
  · intro hbytes
    have hdecode : decode ctx (encode i ++ []) = .instr j.canonical [] := hbytes ▸ decode_encode_append hj []
    rw [decode_encode_append hi] at hdecode
    exact (Decoded.instr.inj hdecode).1
  · intro hcanonical
    rw [← encode_canonical i, hcanonical, encode_canonical]

/-! ### Bytes that are no CMOVcc (R5, R83, R107) -/

/-- The bytes of prefixes that may stand in the context, up to a byte that is none, read back as the prefixes. -/
theorem takePrefixes_map_byte_of_ofByte_none {ctx : Ctx} {ps : List Prefix} {b : Byte}
    (h : ∀ p ∈ ps, ctx.mode = .long64 ∨ p.isRex = false) (hb : Prefix.ofByte ctx b = none) (rest : List Byte) :
    takePrefixes ctx (ps.map Prefix.byte ++ b :: rest) = (ps, b :: rest) := by
  induction ps with
  | nil => simp [takePrefixes, hb]
  | cons p ps ih =>
    obtain ⟨hp, hps⟩ := List.forall_mem_cons.mp h
    simp [takePrefixes, Prefix.ofByte_byte ctx p hp, ih hps]

section
variable {ctx : Ctx} {ps : List Prefix} (hps : ∀ p ∈ ps, ctx.mode = .long64 ∨ p.isRex = false)
include hps

/-- After prefixes, a byte that is neither one more nor `0F` is no CMOVcc. -/
theorem decode_of_ne_0F {b0 : Byte} (hb0 : Prefix.ofByte ctx b0 = none) (h0F : b0 ≠ 0x0F#8) (rest : List Byte) :
    decode ctx (ps.map Prefix.byte ++ b0 :: rest) = .notCmov b0 none := by
  simp only [decode, takePrefixes_map_byte_of_ofByte_none hps hb0, if_neg h0F]

/-- After prefixes, `0F` and a byte whose high nibble is not 4 are no CMOVcc. -/
theorem decode_of_highNibble_ne_4 {b1 : Byte} (hb1 : b1.extractLsb' 4 4 ≠ 4#4) (rest : List Byte) :
    decode ctx (ps.map Prefix.byte ++ 0x0F#8 :: b1 :: rest) = .notCmov 0x0F#8 (some b1) := by
  have h4 : ¬ highNibbleIs4 b1 = true := by simpa [highNibbleIs4] using hb1
  simp only [decode, takePrefixes_map_byte hps, if_true, if_neg h4]

end

/-! ### Operand size and address size (R90, R91) -/

theorem operandSize_of_long64 {ctx : Ctx} (h : ctx.mode = .long64) (ps : List Prefix) :
    operandSize ctx ps = if rexW ps then .w64 else if Prefix.opSize ∈ ps then .w16 else .w32 := by
  simp only [operandSize, h]

theorem addressSize_of_long64 {ctx : Ctx} (h : ctx.mode = .long64) (ps : List Prefix) :
    addressSize ctx ps = if Prefix.addrSize ∈ ps then .a32 else .a64 := by
  simp only [addressSize, h]

theorem operandSize_of_ne_long64 {ctx : Ctx} (h : ctx.mode ≠ .long64) (ps : List Prefix) :
    operandSize ctx ps = if Prefix.opSize ∈ ps then (if ctx.defaultSize = .d32 then .w16 else .w32)
      else if ctx.defaultSize = .d32 then .w32 else .w16 := by
  rw [operandSize]
  split
  · contradiction
  · split
    · next hd => simp [hd]
    · next hd => simp [hd]

theorem addressSize_of_ne_long64 {ctx : Ctx} (h : ctx.mode ≠ .long64) (ps : List Prefix) :
    addressSize ctx ps = if Prefix.addrSize ∈ ps then (if ctx.defaultSize = .d32 then .a16 else .a32)
      else if ctx.defaultSize = .d32 then .a32 else .a16 := by
  rw [addressSize]
  split
  · contradiction
  · split
    · next hd => simp [hd]
    · next hd => simp [hd]

/-- The default size is 32 exactly with the D bit set in a mode other than real-address and virtual-8086 mode (R6). -/
theorem Ctx.defaultSize_eq_d32 {ctx : Ctx} :
    ctx.defaultSize = .d32 ↔ ctx.mode ≠ .real ∧ ctx.mode ≠ .v86 ∧ ctx.csD = .d32 := by
  cases hmode : ctx.mode <;> simp [Ctx.defaultSize, hmode]

/-- Settles O6, by the default size of the context. -/
theorem operandAndAddressSizeByPrefixes : Obligations.OperandAndAddressSizeByPrefixes := by
  intro ctx ps
  refine ⟨fun hlong => ?long, fun hlong hreal hv86 hd32 => ?default32, fun hlong h16 => ?default16⟩
  case long =>
    rw [operandSize_of_long64 hlong, addressSize_of_long64 hlong]
    exact ⟨fun hw => if_pos hw, fun hw hp => by simp [hw, hp], fun hw hp => by simp [hw, hp], fun hp => if_pos hp,
      fun hp => if_neg hp⟩
  case default32 =>
    have hdefault : ctx.defaultSize = .d32 := Ctx.defaultSize_eq_d32.mpr ⟨hreal, hv86, hd32⟩
    rw [operandSize_of_ne_long64 hlong, addressSize_of_ne_long64 hlong, if_pos hdefault, if_pos hdefault, if_pos hdefault,
      if_pos hdefault]
    exact ⟨fun hp => if_pos hp, fun hp => if_neg hp, fun hp => if_pos hp, fun hp => if_neg hp⟩
  case default16 =>
    have hdefault : ¬ ctx.defaultSize = .d32 := by
      rw [Ctx.defaultSize_eq_d32]
      rintro ⟨hreal, hv86, hd32⟩
      simp [hreal, hv86, hd32] at h16
    rw [operandSize_of_ne_long64 hlong, addressSize_of_ne_long64 hlong, if_neg hdefault, if_neg hdefault, if_neg hdefault,
      if_neg hdefault]
    exact ⟨fun hp => if_pos hp, fun hp => if_neg hp, fun hp => if_pos hp, fun hp => if_neg hp⟩

/-! ### The operand sizes a context can encode (R89) -/

/-- The shortest prefixes that give an operand size in a context: REX.W for 64 bits, else 66H where the size is not the
default one (R90). -/
def sizePrefixes (ctx : Ctx) (n : OpSize) : List Prefix :=
  if n = .w64 then [.rex ⟨true, false, false, false⟩] else if operandSize ctx [] = n then [] else [.opSize]

/-- The register form of the shortest prefixes for an operand size, with ModR/M C0. -/
def shortestForm (ctx : Ctx) (n : OpSize) : Form :=
  ⟨sizePrefixes ctx n, ⟨3#2, 0#3, 0#3⟩, none, .none⟩

theorem sizePrefixes_eq (ctx : Ctx) (n : OpSize) :
    sizePrefixes ctx n = [.rex ⟨true, false, false, false⟩] ∧ n = .w64 ∨ sizePrefixes ctx n = [] ∨
      sizePrefixes ctx n = [.opSize] := by
  unfold sizePrefixes
  split
  · next hn => exact .inl ⟨rfl, hn⟩
  · split
    · exact .inr (.inl rfl)
    · exact .inr (.inr rfl)

/-- The shortest prefixes for a size give that size, 64 bits in 64-bit mode only (R90). -/
theorem operandSize_sizePrefixes {ctx : Ctx} {n : OpSize} (h : n = .w64 → ctx.mode = .long64) :
    operandSize ctx (sizePrefixes ctx n) = n := by
  by_cases hlong : ctx.mode = .long64
  · simp only [sizePrefixes, operandSize_of_long64 hlong]
    cases n <;> decide
  · simp only [sizePrefixes, operandSize_of_ne_long64 hlong]
    cases n with
    | w64 => exact absurd (h rfl) hlong
    | w16 => by_cases hdefault : ctx.defaultSize = .d32 <;> simp [hdefault]
    | w32 => by_cases hdefault : ctx.defaultSize = .d32 <;> simp [hdefault]

/-- The shortest form is well formed, at 64 bits in 64-bit mode (R89, R110). -/
theorem shortestForm_wf {ctx : Ctx} {n : OpSize} (h : n = .w64 → ctx.mode = .long64) :
    (shortestForm ctx n).wf ctx n = true := by
  have hstand : ∀ p ∈ sizePrefixes ctx n, ctx.mode = .long64 ∨ p.isRex = false := by
    rcases sizePrefixes_eq ctx n with ⟨_, hn⟩ | hps | hps
    · exact fun p _ => .inl (h hn)
    · simp [hps]
    · simp [hps, Prefix.isRex]
  have hsib : false = needsSib (addressSize ctx (sizePrefixes ctx n)) ⟨3#2, 0#3, 0#3⟩ := by simp [needsSib]
  have hlegal : (shortestForm ctx n).legal = true := by
    rcases sizePrefixes_eq ctx n with ⟨hps, _⟩ | hps | hps <;> rw [shortestForm, hps] <;> decide
  rw [Form.wf, hlegal, Bool.and_true]
  exact Form.encodable_iff.mpr ⟨hstand, operandSize_sizePrefixes h, hsib, rfl⟩

/-- Settles O7: outside 64-bit mode no prefixes give operand size 64, and the shortest form shows the rest. -/
theorem sixtyFourBitFormsOnlyInLongMode : Obligations.SixtyFourBitFormsOnlyInLongMode := by
  refine ⟨fun ctx i hsize hencodable => ?only, fun ctx c n hn => ⟨shortestForm ctx n, ?wf, by simp, by simp⟩⟩
  case only =>
    obtain ⟨_, hoperand, _, _⟩ := Form.encodable_iff.mp hencodable
    by_contra hlong
    exact Machine.operandSize_ne_w64 hlong _ (hoperand.trans hsize)
  case wf =>
    rw [Instr.wf, Instr.ofParts_form, Instr.ofParts_size]
    exact shortestForm_wf hn

/-- Settles O5, by running the decoder on the five words. -/
theorem wordsDecodeToTheirInstructions : Obligations.WordsDecodeToTheirInstructions :=
  ⟨by decide, by decide, by decide, by decide, by decide⟩

end Sys2Proof

namespace Sys2Proof.Machine

open Sys2Proof

/-- A step at bytes that the decoder finds to be no CMOVcc is refused by their name. -/
theorem step_of_notCmov {s : State} {bs : List Byte} {b0 : Byte} {b1 : Option Byte} (hfetch : fetch s = bs)
    (h : decode s.ctx bs = .notCmov b0 b1) : step s = .refused (.notCmov b0 b1) := by
  rw [step, hfetch, h]

/-- Settles O4: the step refuses by the name that the decoder answers. -/
theorem otherOpcodesAreRejected : Obligations.OtherOpcodesAreRejected :=
  ⟨fun _ _ _ _ rest hps => ⟨fun hb0 h0F => decode_of_ne_0F hps hb0 h0F rest,
      fun hb1 => decode_of_highNibble_ne_4 hps hb1 rest⟩,
    fun s _ _ _ rest hps => ⟨fun hb0 h0F hfetch => step_of_notCmov hfetch (decode_of_ne_0F (ctx := s.ctx) hps hb0 h0F rest),
      fun hb1 hfetch => step_of_notCmov hfetch (decode_of_highNibble_ne_4 (ctx := s.ctx) hps hb1 rest)⟩⟩

/-! ### One effect under every mnemonic (R113) -/

/-- Settles O25: the meaning of an instruction is a function of its condition, operand size and form. -/
theorem synonymsHaveOneEffect : Obligations.SynonymsHaveOneEffect := by
  intro i j s
  refine ⟨(exec_canonical i s).symm, fun hcond hsize hform => ?_⟩
  rw [exec_eq_cmov, exec_eq_cmov, hcond, hsize, hform]

/-! ### The checks of decoding (R92, R94, R95, R106, R108, R109, R111) -/

theorem hasRep_eq_true {ps : List Prefix} : hasRep ps = true ↔ Prefix.repne ∈ ps ∨ Prefix.rep ∈ ps := by
  simp [hasRep]

theorem misplacedRex_eq_true {ps : List Prefix} : misplacedRex ps = true ↔ ∃ r, Prefix.rex r ∈ ps.dropLast := by
  rw [misplacedRex, List.any_eq_true]
  constructor
  · rintro ⟨p, hp, hrex⟩
    cases p with
    | rex r => exact ⟨r, hp⟩
    | _ => cases hrex
  · rintro ⟨r, hr⟩
    exact ⟨.rex r, hr, rfl⟩

/-- Without REX bytes none is misplaced. -/
theorem misplacedRex_eq_false {ps : List Prefix} (h : ∀ p ∈ ps, p.isRex = false) : misplacedRex ps = false := by
  rw [misplacedRex, List.any_eq_false]
  exact fun p hp => by simp [h p (List.mem_of_mem_dropLast hp)]

/-- Outside 64-bit mode an encodable form has no REX byte to misplace (R82). -/
theorem misplacedRex_of_ne_long64 {ctx : Ctx} {n : OpSize} {f : Form} (h : f.encodable ctx n = true)
    (hmode : ctx.mode ≠ .long64) : misplacedRex f.prefixes = false := by
  obtain ⟨hstand, _, _, _⟩ := Form.encodable_iff.mp h
  exact misplacedRex_eq_false fun p hp => (hstand p hp).resolve_left hmode

section
variable {i : Instr} {s : State}

/-- A fault of the checks of decoding is the instruction's. -/
theorem exec_of_decodeChecks_fault {x : Fault} (h : decodeChecks i.size i.form s = .fault x) : exec i s = .fault x := by
  rw [exec_eq_cmov, cmov, h, andThen_fault]

/-- A refusal by the checks of decoding is the instruction's. -/
theorem exec_of_decodeChecks_refused {x : Refusal} (h : decodeChecks i.size i.form s = .refused x) :
    exec i s = .refused x := by
  rw [exec_eq_cmov, cmov, h, andThen_refused]

variable (hencodable : i.encodable s.ctx = true)
include hencodable

/-- The first check of an encodable instruction is that for LOCK (R92, R109). -/
theorem exec_of_lock (hlock : Prefix.lock ∈ i.form.prefixes) : exec i s = .fault (.exception .ud none none s) := by
  have hform : i.form.encodable s.ctx i.size = true := hencodable
  refine exec_of_decodeChecks_fault ?_
  rw [decodeChecks, if_pos hform, if_pos (by simpa [hasLock] using hlock), raiseUD, raise]

variable (hlock : Prefix.lock ∉ i.form.prefixes)
include hlock

/-- Past the check for LOCK come those for the prefixes that are refused, for the CMOV feature and for the length (R109;
log 13). -/
theorem decodeChecks_of_not_lock : decodeChecks i.size i.form s =
    if hasRep i.form.prefixes then .refused .repPrefix
    else if (segOverrides i.form.prefixes).length > 1 then .refused .severalSegmentOverrides
    else if misplacedRex i.form.prefixes then .refused .misplacedRex
    else if s.supportsCmov then (if i.form.length > Config.maxInsnLen then raiseGP s else .next ())
    else raiseUD s := by
  have hform : i.form.encodable s.ctx i.size = true := hencodable
  rw [decodeChecks, if_pos hform, if_neg (by simpa [hasLock] using hlock)]

/-- A REP byte, F2 or F3, among the prefixes is refused (R94). -/
theorem exec_of_rep (hrep : Prefix.repne ∈ i.form.prefixes ∨ Prefix.rep ∈ i.form.prefixes) :
    exec i s = .refused .repPrefix := by
  refine exec_of_decodeChecks_refused ?_
  rw [decodeChecks_of_not_lock hencodable hlock, if_pos (hasRep_eq_true.mpr hrep)]

variable (hrepne : Prefix.repne ∉ i.form.prefixes) (hrep : Prefix.rep ∉ i.form.prefixes)
include hrepne hrep

/-- Without F2 and F3 the checks go on with the segment overrides (R95). -/
theorem decodeChecks_of_not_rep : decodeChecks i.size i.form s =
    if (segOverrides i.form.prefixes).length > 1 then .refused .severalSegmentOverrides
    else if misplacedRex i.form.prefixes then .refused .misplacedRex
    else if s.supportsCmov then (if i.form.length > Config.maxInsnLen then raiseGP s else .next ())
    else raiseUD s := by
  have hneither : ¬ hasRep i.form.prefixes = true := by simp [hasRep_eq_true, hrepne, hrep]
  rw [decodeChecks_of_not_lock hencodable hlock, if_neg hneither]

/-- More than one segment override is refused (R95). -/
theorem exec_of_severalSegmentOverrides (hseveral : 1 < (segOverrides i.form.prefixes).length) :
    exec i s = .refused .severalSegmentOverrides := by
  refine exec_of_decodeChecks_refused ?_
  rw [decodeChecks_of_not_rep hencodable hlock hrepne hrep, if_pos hseveral]

variable (hone : (segOverrides i.form.prefixes).length ≤ 1)
include hone

/-- A REX byte before another of the prefixes is refused (R106). -/
theorem exec_of_misplacedRex (hrex : misplacedRex i.form.prefixes = true) : exec i s = .refused .misplacedRex := by
  refine exec_of_decodeChecks_refused ?_
  rw [decodeChecks_of_not_rep hencodable hlock hrepne hrep, if_neg (Nat.not_lt.mpr hone), if_pos hrex]

variable (hrex : misplacedRex i.form.prefixes = false)
include hrex

/-- Past the prefixes the checks are those for the CMOV feature and for the length (R108, R111). -/
theorem decodeChecks_of_prefixes_ok : decodeChecks i.size i.form s =
    if s.supportsCmov then (if i.form.length > Config.maxInsnLen then raiseGP s else .next ()) else raiseUD s := by
  have hplaced : ¬ misplacedRex i.form.prefixes = true := by simp [hrex]
  rw [decodeChecks_of_not_rep hencodable hlock hrepne hrep, if_neg (Nat.not_lt.mpr hone), if_neg hplaced]

/-- A processor without CMOVcc raises `#UD` (R111). -/
theorem exec_of_not_supportsCmov (hsupports : s.supportsCmov = false) :
    exec i s = .fault (.exception .ud none none s) := by
  refine exec_of_decodeChecks_fault ?_
  rw [decodeChecks_of_prefixes_ok hencodable hlock hrepne hrep hone hrex, if_neg (by simp [hsupports]), raiseUD, raise]

/-- More than fifteen bytes raise `#GP` (R108). -/
theorem exec_of_overlong (hsupports : s.supportsCmov = true) (hlong : Config.maxInsnLen < i.form.length) :
    exec i s = .fault (.exception .gp s.zeroCode none s) := by
  refine exec_of_decodeChecks_fault ?_
  rw [decodeChecks_of_prefixes_ok hencodable hlock hrepne hrep hone hrex, if_pos hsupports, if_pos hlong, raiseGP, raise]

end

/-- Settles O28: LOCK is the first thing checked, before anything of the operand. -/
theorem lockRaisesInvalidOpcode : Obligations.LockRaisesInvalidOpcode :=
  fun _ _ hencodable hlock => exec_of_lock hencodable hlock

/-- Settles O30: with the prefixes and the feature in order, the length is what is left to check. -/
theorem overlongInstructionRaisesGeneralProtection : Obligations.OverlongInstructionRaisesGeneralProtection := by
  intro i s hencodable hlock hrepne hrep hone hrex hsupports hlong
  rw [← zeroCode_eq]
  exact exec_of_overlong hencodable hlock hrepne hrep hone hrex hsupports hlong

/-- Settles O31: the three refusals in the order in which they are checked. -/
theorem reservedPrefixesAreRefused : Obligations.ReservedPrefixesAreRefused :=
  fun _ _ hencodable hlock => ⟨exec_of_rep hencodable hlock, fun hrepne hrep =>
    ⟨exec_of_severalSegmentOverrides hencodable hlock hrepne hrep, fun hone hrex =>
      exec_of_misplacedRex hencodable hlock hrepne hrep hone (misplacedRex_eq_true.mpr hrex)⟩⟩

/-! ### The CMOV feature (R111, R146) -/

/-- The state on a processor whose CMOV parameter is clear. -/
def State.withoutCmov (s : State) : State :=
  { s with cmovSupported := false }

theorem alikeForReads_withoutCmov (s : State) : AlikeForReads s s.withoutCmov := rfl

@[simp] theorem State.withoutCmov_gprRead (s : State) (r : Reg) (n : OpSize) :
    s.withoutCmov.gprRead r n = s.gprRead r n := rfl

@[simp] theorem State.withoutCmov_memRef (s : State) (f : Form) : memRef s.withoutCmov f = memRef s f := rfl

@[simp] theorem State.withoutCmov_flags (s : State) : s.withoutCmov.flags = s.flags := rfl

@[simp] theorem State.withoutCmov_ctx (s : State) : s.withoutCmov.ctx = s.ctx := rfl

/-- In IA-32e mode the parameter is not asked (R146; log 18). -/
theorem supportsCmov_of_ia32e {s : State} (h : s.mode = .compat ∨ s.mode = .long64) : s.supportsCmov = true := by
  rcases h with h | h <;> simp [State.supportsCmov, State.ia32eActive, h]

/-- The parameter has no part in what a completed instruction leaves. -/
theorem afterCmov_withoutCmov (s : State) (moved : Bool) (n : OpSize) (f : Form) (v : QWord) :
    s.withoutCmov.afterCmov moved n f v = (s.afterCmov moved n f v).withoutCmov := by
  have horacle : (passSource n f s.withoutCmov).readOracle = (passSource n f s).readOracle := by
    simp only [passSource_readOracle, State.withoutCmov_memRef]
    rfl
  rw [State.afterCmov, horacle]
  rfl

theorem decodeChecks_withoutCmov {s : State} (h : s.mode = .compat ∨ s.mode = .long64) (n : OpSize) (f : Form) :
    SameResult Eq s s.withoutCmov (decodeChecks n f s) (decodeChecks n f s.withoutCmov) := by
  rw [decodeChecks, decodeChecks, State.withoutCmov_ctx, supportsCmov_of_ia32e h,
    supportsCmov_of_ia32e (s := s.withoutCmov) h]
  exact .ite (.ite (.raise ..) (.ite (.refused _) (.ite (.refused _) (.ite (.refused _)
    (.ite (.ite (alikeForReads_withoutCmov s).raiseGP (.next rfl)) (.raise ..)))))) (.refused _)

theorem readSource_withoutCmov (s : State) (n : OpSize) (f : Form) :
    SameResult Eq s s.withoutCmov (readSource n f s) (readSource n f s.withoutCmov) := by
  rw [readSource, readSource, State.withoutCmov_gprRead, State.withoutCmov_memRef]
  exact .ite (.next rfl) ((alikeForReads_withoutCmov s).loadOperand ..)

/-- In IA-32e mode every instruction does with the parameter clear what it does with it set (R146). -/
theorem exec_withoutCmov {s : State} (h : s.mode = .compat ∨ s.mode = .long64) (i : Instr) :
    SameResult (fun x y => y = x.withoutCmov) s s.withoutCmov (exec i s) (exec i s.withoutCmov) := by
  rw [exec_eq_cmov, exec_eq_cmov]
  refine (decodeChecks_withoutCmov h i.size i.form).andThen fun _ _ _ _ => ?_
  refine (readSource_withoutCmov s i.size i.form).andThen fun v w _ hvw => ?_
  subst hvw
  rw [writeDest_advance, writeDest_advance, afterCmov_withoutCmov, State.withoutCmov_flags]
  exact .next rfl

/-- Settles O29: outside IA-32e mode an encodable form has no REX byte, so the checks come to the feature; inside it the
parameter is not looked at. -/
theorem unsupportedCmovRaisesInvalidOpcode : Obligations.UnsupportedCmovRaisesInvalidOpcode := by
  refine ⟨fun i s hencodable hsupported hmode hprefixes => ?outside, fun i s hmode _ => (exec_withoutCmov hmode i).sameOutcome⟩
  have hlong : s.mode ≠ .long64 := by rcases hmode with h | h | h <;> simp [h]
  have hsupports : s.supportsCmov = false := by
    rcases hmode with h | h | h <;> simp [State.supportsCmov, State.ia32eActive, hsupported, h]
  by_cases hlock : Prefix.lock ∈ i.form.prefixes
  · exact exec_of_lock hencodable hlock
  · obtain ⟨hrepne, hrep, hone⟩ := hprefixes.resolve_left hlock
    exact exec_of_not_supportsCmov hencodable hlock hrepne hrep hone (misplacedRex_of_ne_long64 hencodable hlong) hsupports

/-! ### Segments (R95, R103) -/

theorem operandSegment_of_no_override {s : State} {f : Form} (h : segOverrides f.prefixes = []) :
    operandSegment s f = defaultSegment s f := by
  simp only [operandSegment, h, List.head?_nil]

theorem operandSegment_of_ne_long64 {s : State} {f : Form} {g : SegName} (h : segOverrides f.prefixes = [g])
    (hmode : s.mode ≠ .long64) : operandSegment s f = g := by
  simp only [operandSegment, h, List.head?_cons]

/-- In 64-bit mode only an FS or a GS override counts (R103). -/
theorem operandSegment_of_long64 {s : State} {f : Form} {g : SegName} (h : segOverrides f.prefixes = [g])
    (hmode : s.mode = .long64) : operandSegment s f = if g = .fs ∨ g = .gs then g else defaultSegment s f := by
  simp only [operandSegment, h, List.head?_cons, hmode]

/-- Settles O53, by the number of overrides and the mode. -/
theorem segmentSelection : Obligations.SegmentSelection := by
  refine fun s f g => ⟨operandSegment_of_no_override, operandSegment_of_ne_long64, fun h hmode hg => ?counts,
    fun h hmode hg => ?ignored⟩
  case counts => rw [operandSegment_of_long64 h hmode, if_pos hg]
  case ignored =>
    have hother : ¬ (g = .fs ∨ g = .gs) := by rcases hg with rfl | rfl | rfl | rfl <;> decide
    rw [operandSegment_of_long64 h hmode, if_neg hother]

/-! ### Register numbers (R93) -/

/-- A register number is a bit over a 3-bit field. -/
theorem regNum_toNat (ext : Bool) (field : BitVec 3) : (regNum ext field).toNat = 8 * ext.toNat + field.toNat := by
  revert ext field
  decide

section
variable (f : Form) (b : Sib)

theorem destNum_toNat : (destNum f).toNat = 8 * (rexR f.prefixes).toNat + f.modrm.reg.toNat := regNum_toNat ..
theorem srcNum_toNat : (srcNum f).toNat = 8 * (rexB f.prefixes).toNat + f.modrm.rm.toNat := regNum_toNat ..
theorem baseNum_toNat : (baseNum f b).toNat = 8 * (rexB f.prefixes).toNat + b.base.toNat := regNum_toNat ..
theorem indexNum_toNat : (indexNum f b).toNat = 8 * (rexX f.prefixes).toNat + b.index.toNat := regNum_toNat ..

end

theorem rexOf_of_getLast? {ps : List Prefix} {r : Rex} (h : ps.getLast? = some (.rex r)) : rexOf ps = some r := by
  simp only [rexOf, h]

theorem rexOf_eq_none {ps : List Prefix} (h : ∀ r : Rex, ps.getLast? ≠ some (.rex r)) : rexOf ps = none := by
  unfold rexOf
  split
  · next r hr => exact absurd hr (h r)
  · rfl

/-- The instruction of a condition number with one REX byte, in 64-bit mode. -/
def rexInstr (r : Rex) (c : BitVec 4) (m : ModRM) (sib : Option Sib) (d : Disp) : Instr :=
  Instr.ofParts (Cond.ofNum c) (if r.w then .w64 else .w32) ⟨[.rex r], m, sib, d⟩

/-- REX alone gives operand size 64 with W and 32 without, address size 64 (R90, R91). -/
theorem rexInstr_encodable {d : CodeSize} {r : Rex} {c : BitVec 4} {m : ModRM} {sib : Option Sib} {disp : Disp}
    (hsib : sib.isSome = needsSib .a64 m) (hdisp : disp.kind = dispKind .a64 m sib) :
    (rexInstr r c m sib disp).encodable ⟨.long64, d⟩ = true := by
  rw [rexInstr, Instr.encodable, Instr.ofParts_form, Instr.ofParts_size]
  refine Form.encodable_iff.mpr ⟨fun _ _ => .inl rfl, ?_, hsib, hdisp⟩
  simp [operandSize, rexW, rexOf]

/-- A REX byte, the opcode and a form's bytes decode to that instruction (R82, R83). -/
theorem decode_rexInstr {d : CodeSize} {r : Rex} {c : BitVec 4} {m : ModRM} {sib : Option Sib} {disp : Disp}
    (hsib : sib.isSome = needsSib .a64 m) (hdisp : disp.kind = dispKind .a64 m sib) (rest : List Byte) :
    decode ⟨.long64, d⟩ ([r.byte, 0x0F#8, 4#4 ++ c] ++ m.byte :: (sibBytes sib ++ (disp.bytes ++ rest))) =
      .instr (rexInstr r c m sib disp) rest := by
  have hdecode := decode_encode_append (rexInstr_encodable (d := d) (r := r) (c := c) hsib hdisp) rest
  simpa [encode, rexInstr, Instr.canonical, opcodeByte, Prefix.byte] using hdecode

/-- Settles O59: by the bits of a register number, and by decoding an encoding with one REX byte. -/
theorem registerNumbers : Obligations.RegisterNumbers := by
  refine ⟨fun f b => ⟨fun r hr => ?rex, fun hr => ?noRex⟩, fun d W R X B c reg rm index base scale disp rest => ?bytes⟩
  case rex =>
    simp [destNum_toNat, srcNum_toNat, baseNum_toNat, indexNum_toNat, rexR, rexX, rexB, rexOf_of_getLast? hr]
  case noRex =>
    simp [destNum_toNat, srcNum_toNat, baseNum_toNat, indexNum_toNat, rexR, rexX, rexB, rexOf_eq_none hr]
  case bytes =>
    intro rex opcode
    have hnoSib : (none : Option Sib).isSome = needsSib .a64 ⟨3#2, reg, rm⟩ := by simp [needsSib]
    have hsib : (some (Sib.mk scale index base)).isSome = needsSib .a64 ⟨1#2, reg, 4#3⟩ := by simp [needsSib]
    have hregister := decode_rexInstr (d := d) (r := ⟨W, R, X, B⟩) (c := c) hnoSib (disp := .none) rfl rest
    have hmemory := decode_rexInstr (d := d) (r := ⟨W, R, X, B⟩) (c := c) hsib (disp := .disp8 disp) rfl rest
    refine ⟨⟨_, hregister, ?_, ?_, ?_, ?_⟩, _, ⟨scale, index, base⟩, hmemory, ?_, ?_, ?_, ?_⟩
    all_goals simp [rexInstr, destNum_toNat, srcNum_toNat, baseNum_toNat, indexNum_toNat, rexR, rexX, rexB, rexOf]

/-! ### Effective addresses (R96 to R105) -/

theorem addressBits_le (a : AddrSize) : addressBits a ≤ 64 := by
  cases a <;> decide

/-- An address cut to its size is its low bits, zero-extended (R104). -/
theorem cutAddress_eq (a : AddrSize) (v : QWord) : cutAddress a v = (v.setWidth (addressBits a)).setWidth 64 := by
  cases a with
  | a16 => rfl
  | a32 => rfl
  | a64 => simp [cutAddress, addressBits]

/-- The low bits of an address register read at the address size are those of the register (R96). -/
theorem areg_setWidth (s : State) (a : AddrSize) (r : Reg) :
    (areg s a r).setWidth (addressBits a) = (s.reg r).setWidth (addressBits a) := by
  rw [areg, cutAddress_eq, BitVec.setWidth_setWidth_of_le _ (addressBits_le a), BitVec.setWidth_eq]

theorem signExtend_setWidth {k w : Nat} (hw : w ≤ 64) (d : BitVec k) :
    (d.signExtend 64).setWidth w = d.signExtend w := by
  ext j hj
  have hj64 : j < 64 := lt_of_lt_of_le hj hw
  simp [BitVec.getElem_signExtend, hj64]

/-- The low bits of a displacement's value are the displacement at that width (R105). -/
theorem dispValue_setWidth {w : Nat} (hw : w ≤ 64) (d : Disp) : (dispValue d).setWidth w = displacement w d := by
  cases d with
  | none => simp [dispValue, displacement]
  | disp8 d => exact signExtend_setWidth hw d
  | disp16 d => exact signExtend_setWidth hw d
  | disp32 d => exact signExtend_setWidth hw d

/-- The effective address is the base part plus the displacement, modulo the address size (R104, R105). -/
theorem effectiveAddress_eq {s : State} {f : Form} {w : Nat} (hw : w = addressBits (addressSize s.ctx f.prefixes)) :
    effectiveAddress s f = ((baseOf s f).1.setWidth w + displacement w f.disp).setWidth 64 := by
  have hle : w ≤ 64 := hw ▸ addressBits_le _
  rw [effectiveAddress, cutAddress_eq, ← hw, BitVec.setWidth_add _ _ hle, dispValue_setWidth hle]

theorem baseOf_of_a16 {s : State} {f : Form} (h : addressSize s.ctx f.prefixes = .a16) :
    baseOf s f = base16 s f.modrm.mod f.modrm.rm := by
  simp only [baseOf, h]

theorem baseOf_of_sib {s : State} {f : Form} {b : Sib} (h : addressSize s.ctx f.prefixes ≠ .a16) (hsib : f.sib = some b) :
    baseOf s f = baseSib s (addressSize s.ctx f.prefixes) f b := by
  simp only [baseOf, hsib]

theorem baseOf_of_no_sib {s : State} {f : Form} (h : addressSize s.ctx f.prefixes ≠ .a16) (hsib : f.sib = none) :
    baseOf s f = basePlain s (addressSize s.ctx f.prefixes) f := by
  simp only [baseOf, hsib]

/-- A 16-bit address and its default segment, by the line of R97's table that gives the base part. -/
theorem address_of_base16 {s : State} {f : Form} (ha : addressSize s.ctx f.prefixes = .a16) {v : QWord} {g : SegName}
    {x : BitVec 16} (hbase : base16 s f.modrm.mod f.modrm.rm = (v, g)) (hv : v.setWidth 16 = x) :
    effectiveAddress s f = (x + displacement 16 f.disp).setWidth 64 ∧ defaultSegment s f = g := by
  have hbits : 16 = addressBits (addressSize s.ctx f.prefixes) := by rw [ha, addressBits]
  rw [effectiveAddress_eq hbits, defaultSegment, baseOf_of_a16 ha, hbase]
  exact ⟨by rw [hv], rfl⟩

theorem areg16_setWidth (s : State) (r : Reg) : (areg s .a16 r).setWidth 16 = (s.reg r).setWidth 16 :=
  areg_setWidth s .a16 r

theorem areg16_add_setWidth (s : State) (r q : Reg) :
    (areg s .a16 r + areg s .a16 q).setWidth 16 = (s.reg r).setWidth 16 + (s.reg q).setWidth 16 := by
  rw [BitVec.setWidth_add _ _ (by decide), areg16_setWidth, areg16_setWidth]

/-- Settles O49, line by line of R97's table. -/
theorem sixteenBitAddresses : Obligations.SixteenBitAddresses := by
  intro s f ha _ bx bp si di d is
  refine ⟨fun hrm => ?_, fun hrm => ?_, fun hrm => ?_, fun hrm => ?_, fun hrm => ?_, fun hrm => ?_,
    fun hrm hmod => ?noBase, fun hrm hmod => ?bp, fun hrm => ?_⟩
  case noBase =>
    have haddress := address_of_base16 ha (v := 0#64) (g := .ds) (by rw [hrm, hmod]; rfl) rfl
    rwa [BitVec.setWidth_zero, BitVec.zero_add] at haddress
  case bp => exact address_of_base16 ha (by rw [hrm]; exact if_neg hmod) (areg16_setWidth s 5#4)
  · exact address_of_base16 ha (by rw [hrm]; rfl) (areg16_add_setWidth s 3#4 6#4)
  · exact address_of_base16 ha (by rw [hrm]; rfl) (areg16_add_setWidth s 3#4 7#4)
  · exact address_of_base16 ha (by rw [hrm]; rfl) (areg16_add_setWidth s 5#4 6#4)
  · exact address_of_base16 ha (by rw [hrm]; rfl) (areg16_add_setWidth s 5#4 7#4)
  · exact address_of_base16 ha (by rw [hrm]; rfl) (areg16_setWidth s 6#4)
  · exact address_of_base16 ha (by rw [hrm]; rfl) (areg16_setWidth s 7#4)
  · exact address_of_base16 ha (by rw [hrm]; rfl) (areg16_setWidth s 3#4)

theorem baseSegment_eq_ss {r : Reg} (h : r = 4#4 ∨ r = 5#4) : baseSegment r = .ss := if_pos h

theorem baseSegment_eq_ds {r : Reg} (h4 : r ≠ 4#4) (h5 : r ≠ 5#4) : baseSegment r = .ds :=
  if_neg fun h => h.elim h4 h5

/-- Settles O50, by the two branches of R98. -/
theorem plainAddresses : Obligations.PlainAddresses := by
  rintro s f w ha hw hsib -
  rw [effectiveAddress_eq hw, defaultSegment, baseOf_of_no_sib ha hsib]
  constructor
  · intro hmod hrm hmode
    have hbase : basePlain s (addressSize s.ctx f.prefixes) f = (0#64, .ds) := by
      rw [basePlain, if_pos ⟨hmod, hrm⟩]
      split
      · contradiction
      · rfl
    simp [hbase]
  · intro hregister
    rw [basePlain, if_neg hregister, hw, areg_setWidth]
    exact ⟨rfl, baseSegment_eq_ss, baseSegment_eq_ds⟩

/-- Settles O51: the base part is the address of the next instruction, and only the sum is cut (R100, R104). -/
theorem ripRelativeAddress : Obligations.RipRelativeAddress := by
  intro s f d hmode hmod hrm hsib hdisp
  have hsize : addressSize s.ctx f.prefixes = if Prefix.addrSize ∈ f.prefixes then .a32 else .a64 :=
    addressSize_of_long64 hmode f.prefixes
  have ha : addressSize s.ctx f.prefixes ≠ .a16 := by
    rw [hsize]
    split <;> decide
  have hbase : baseOf s f = (s.pc + BitVec.ofNat 64 f.length, .ds) := by
    rw [baseOf_of_no_sib ha hsib, basePlain, if_pos ⟨hmod, hrm⟩, hmode]
  rw [defaultSegment, effectiveAddress, hbase, hdisp, hsize]
  refine ⟨rfl, fun h67 => ?_, fun h67 => ?_⟩
  · rw [if_neg h67, cutAddress, dispValue]
  · rw [if_pos h67, cutAddress, dispValue, zeroExtendLow32]

theorem sibHasBase_eq_true {f : Form} {b : Sib} : sibHasBase f b = true ↔ ¬ (b.base = 5#3 ∧ f.modrm.mod = 0#2) := by
  simp [sibHasBase, ← not_and_or]

/-- The low bits of the scaled index are the scaled low bits of the index register (R99, R104). -/
theorem indexTerm_setWidth (s : State) (a : AddrSize) (f : Form) (b : Sib) :
    (indexTerm s a f b).setWidth (addressBits a) =
      if indexNum f b = 4#4 then 0#(addressBits a)
      else (s.reg (indexNum f b)).setWidth (addressBits a) <<< b.scale.toNat := by
  rw [indexTerm]
  split
  · exact BitVec.setWidth_zero ..
  · rw [BitVec.setWidth_shiftLeft_of_le (addressBits_le a), areg_setWidth]

/-- Settles O52, by whether there is a base register (R99). -/
theorem sibAddresses : Obligations.SibAddresses := by
  rintro s f b w ha rfl hsib - noBase baseTerm indexTerm
  rw [effectiveAddress_eq rfl, defaultSegment, baseOf_of_sib ha hsib, baseSib]
  by_cases hbase : noBase
  · rw [if_neg (mt sibHasBase_eq_true.mp (not_not.mpr hbase)), indexTerm_setWidth]
    have hterm : baseTerm = 0#_ := if_pos hbase
    rw [hterm, BitVec.zero_add]
    exact ⟨rfl, fun h => absurd hbase h, fun _ => rfl⟩
  · rw [if_pos (sibHasBase_eq_true.mpr hbase), BitVec.setWidth_add _ _ (addressBits_le _), areg_setWidth, indexTerm_setWidth]
    have hterm : baseTerm = (s.reg (baseNum f b)).setWidth _ := if_neg hbase
    rw [hterm]
    exact ⟨rfl, fun _ => baseSegment_eq_ss, fun h => baseSegment_eq_ds (h.resolve_left hbase).1 (h.resolve_left hbase).2⟩

end Sys2Proof.Machine

/-! PROOFS. The family of 40_cmovcc_operation.md: the sixteen conditions, register forms, the destination after a
completed CMOVcc, stops whatever the condition. -/

namespace Sys2Proof.Machine

open Sys2Proof

/-! ### The conditions (R131, R132) -/

/-- Settles O23, condition by condition: the odd ones are negations, a disjunction or conjunction of tests is one of
bits. -/
theorem conditionPredicates : Obligations.ConditionPredicates := by
  intro v cf pf zf sf of cond
  have hnot (b : Bool) : (!b) = true ↔ b = false := by simp
  refine ⟨.rfl, hnot of, .rfl, hnot cf, .rfl, hnot zf, ?be, ?a, .rfl, hnot sf, .rfl, hnot pf, bne_iff_ne, beq_iff_eq,
    ?le, ?g⟩
  case be => exact Bool.or_eq_true_iff
  case a => exact Bool.and_eq_true_iff.trans (and_congr (hnot cf) (hnot zf))
  case le => exact Bool.or_eq_true_iff.trans (or_congr_right bne_iff_ne)
  case g => exact Bool.and_eq_true_iff.trans (and_congr (hnot zf) beq_iff_eq)

/-- Settles O24, pair by pair. -/
theorem complementaryConditions : Obligations.ComplementaryConditions := by
  intro k fl
  match k with
  | 0 | 1 | 2 | 4 | 5 => rfl
  | 3 => exact (Bool.not_or fl.cf fl.zf).symm
  | 6 => exact (Bool.not_not (fl.sf == fl.of)).symm
  | 7 =>
    calc (!fl.zf && fl.sf == fl.of) = (!fl.zf && !(fl.sf != fl.of)) := by rw [bne, Bool.not_not]
      _ = !(fl.zf || fl.sf != fl.of) := (Bool.not_or ..).symm

/-! ### Stops (R138) -/

/-- The refusals of a CMOVcc are those of the checks of decoding and of the source read. -/
theorem cmov_eq_refused {c : Cond} {n : OpSize} {f : Form} {s : State} {x : Refusal} :
    cmov c n f s = .refused x ↔ decodeChecks n f s = .refused x ∨ (Admitted n f s ∧ readSource n f s = .refused x) := by
  constructor
  · intro h
    rcases andThen_eq_refused.mp h with hchecks | ⟨_, hchecks, hrest⟩
    · exact .inl hchecks
    · rcases andThen_eq_refused.mp hrest with hread | ⟨_, _, hnext⟩
      · exact .inr ⟨decodeChecks_eq_next.mp hchecks, hread⟩
      · cases hnext
  · rintro (hchecks | ⟨hadm, hread⟩)
    · rw [cmov, hchecks, andThen_refused]
    · rw [cmov_of_admitted hadm, hread, andThen_refused]

/-- Settles O33: an instruction stops where its checks of decoding or its source read stop, and neither is given the
condition. -/
theorem faultsIgnoreTheCondition : Obligations.FaultsIgnoreTheCondition := by
  intro i j s hsize hform
  simp only [exec_eq_cmov, hsize, hform, cmov_eq_fault, cmov_eq_refused, implies_true, and_self]

/-! ### Register forms (R96, R140) -/

/-- Settles O20: a register form's source is read without a check. -/
theorem registerFormCompletes : Obligations.RegisterFormCompletes :=
  fun _ _ hadm hmod => exec_eq_next.mpr ⟨hadm, _, if_pos hmod, rfl⟩

/-- A completed register form writes the destination and the program counter; the read oracle is not asked. -/
theorem afterCmov_of_registerForm {f : Form} (hmod : f.modrm.mod = 3#2) (s : State) (moved : Bool) (n : OpSize)
    (t : QWord) : s.afterCmov moved n f t =
      (s.setReg (destNum f) (destAfter n s.ia32eActive moved (s.reg (destNum f)) t)).setPc (s.pcAfter f.length) := by
  rw [State.afterCmov, passSource_readOracle, if_pos hmod]
  rfl

/-- A quadword cut to its low bits and widened again keeps these bits. -/
theorem extractLsb'_zeroExtend {k : Nat} (hk : k ≤ 64) (v : QWord) :
    ((v.setWidth k).setWidth 64).extractLsb' 0 k = v.extractLsb' 0 k := by
  rw [← BitVec.setWidth_eq_extractLsb' hk, ← BitVec.setWidth_eq_extractLsb' hk,
    BitVec.setWidth_setWidth_of_le _ hk, BitVec.setWidth_eq]

/-- R136's value takes no more of the source than the operand size. -/
theorem destAfter_lowBits (n : OpSize) (ia32e moved : Bool) (old t : QWord) :
    destAfter n ia32e moved old (lowBits n t) = destAfter n ia32e moved old t := by
  cases moved with
  | false => cases n <;> cases ia32e <;> rfl
  | true =>
    cases n with
    | w16 => simp only [destAfter, lowBits, extractLsb'_zeroExtend (k := 16) (by decide)]
    | w32 => cases ia32e <;> simp only [destAfter, lowBits, extractLsb'_zeroExtend (k := 32) (by decide)]
    | w64 => rfl

/-- R136's value where a register is moved onto itself, or not moved: its low half at size 32 in IA-32e mode, else what it
held (R140). -/
theorem destAfter_self (n : OpSize) (ia32e moved : Bool) (v : QWord) :
    destAfter n ia32e moved v v = if n = .w32 ∧ ia32e = true then 0#32 ++ v.extractLsb' 0 32 else v := by
  cases n with
  | w16 =>
    cases moved with
    | true => exact BitVec.extractLsb'_append_extractLsb'
    | false => rfl
  | w32 =>
    cases ia32e with
    | true => cases moved <;> rfl
    | false =>
      cases moved with
      | true => exact BitVec.extractLsb'_append_extractLsb'
      | false => rfl
  | w64 => cases moved <;> rfl

/-- Settles O48: what a register moved onto itself holds, written where it was read. -/
theorem sameRegisterForms : Obligations.SameRegisterForms := by
  intro i s hadm hmod hsame
  rw [registerFormCompletes i s hadm hmod, afterCmov_of_registerForm hmod, State.gprRead, hsame, destAfter_lowBits,
    destAfter_self]
  split
  · rfl
  · rw [State.setReg_reg]

/-! ### The destination register (R134, R135, R136) -/

section
variable (ia32e moved : Bool) (old t : QWord)

/-- A 16-bit move replaces bits 15:0 alone (R135). -/
theorem destAfter_w16_moved : (destAfter .w16 ia32e true old t).extractLsb' 0 16 = t.extractLsb' 0 16 ∧
    (destAfter .w16 ia32e true old t).extractLsb' 16 48 = old.extractLsb' 16 48 :=
  ⟨BitVec.extractLsb'_append_eq_right, BitVec.extractLsb'_append_eq_left⟩

/-- A 32-bit form in IA-32e mode clears bits 63:32, whether it moves or not (R134). -/
theorem destAfter_w32_ia32e : (destAfter .w32 true moved old t).extractLsb' 32 32 = 0#32 ∧
    (destAfter .w32 true moved old t).extractLsb' 0 32 =
      if moved then t.extractLsb' 0 32 else old.extractLsb' 0 32 := by
  cases moved with
  | true => exact ⟨BitVec.extractLsb'_append_eq_left, BitVec.extractLsb'_append_eq_right⟩
  | false => exact ⟨BitVec.extractLsb'_append_eq_left, BitVec.extractLsb'_append_eq_right⟩

/-- A 32-bit move outside IA-32e mode replaces bits 31:0 alone (R135, U12). -/
theorem destAfter_w32_moved : (destAfter .w32 false true old t).extractLsb' 0 32 = t.extractLsb' 0 32 ∧
    (destAfter .w32 false true old t).extractLsb' 32 32 = old.extractLsb' 32 32 :=
  ⟨BitVec.extractLsb'_append_eq_right, BitVec.extractLsb'_append_eq_left⟩

theorem destAfter_w64_moved : destAfter .w64 ia32e true old t = t := by
  cases ia32e <;> rfl

/-- A form that does not move leaves the destination, but at size 32 in IA-32e mode (R134). -/
theorem destAfter_not_moved {n : OpSize} (h : ¬ (n = .w32 ∧ ia32e = true)) : destAfter n ia32e false old t = old := by
  cases n with
  | w16 => cases ia32e <;> rfl
  | w32 =>
    cases ia32e with
    | true => exact absurd ⟨rfl, rfl⟩ h
    | false => rfl
  | w64 => cases ia32e <;> rfl

end

/-- A 64-bit form is admitted in 64-bit mode alone (R89). -/
theorem Admitted.long64_of_w64 {n : OpSize} {f : Form} {s : State} (h : Admitted n f s) (hn : n = .w64) :
    s.mode = .long64 :=
  by_contra fun hmode => h.ne_w64 hmode hn

/-- Settles O26, clause by clause of R136's value. -/
theorem destinationAfterCompletion : Obligations.DestinationAfterCompletion := by
  intro i s s' t hexec hread d moved
  obtain ⟨hadm, v, hv, rfl⟩ := exec_eq_next.mp hexec
  obtain rfl : t = v := Host.Outcome.next.inj (hread.symm.trans hv)
  have hdest : (s.afterCmov moved i.size i.form t).reg d = destAfter i.size s.ia32eActive moved (s.reg d) t := by
    rw [afterCmov_reg, if_pos rfl]
  rw [hdest]
  refine ⟨fun hsize hmoved => ?w16, fun hsize hia32e => ?w32, fun hsize hia32e hmoved => ?w32Legacy,
    fun hsize hmoved => ⟨?w64, hadm.long64_of_w64 hsize⟩, fun hmoved hkeeps => ?notMoved, rfl⟩
  case w16 =>
    rw [hsize, hmoved]
    exact destAfter_w16_moved ..
  case w32 =>
    rw [hsize, hia32e]
    exact destAfter_w32_ia32e ..
  case w32Legacy =>
    rw [hsize, hia32e, hmoved]
    exact destAfter_w32_moved ..
  case w64 =>
    rw [hsize, hmoved]
    exact destAfter_w64_moved ..
  case notMoved =>
    rw [hmoved]
    exact destAfter_not_moved _ _ _ hkeeps

end Sys2Proof.Machine

/-! PROOFS. The family of 41_cmovcc_instructions.md: every mnemonic completes and moves by its own flags, pair by pair of
complementary conditions. -/

namespace Sys2Proof.Machine

open Sys2Proof

section
variable {c c' : Cond} {n : OpSize} {f : Form} {s : State} {t : QWord}

/-- An admitted canonical instruction whose source reads a value completes with R136's state for its condition. -/
theorem exec_ofParts (hadm : Admitted n f s) (hread : readSource n f s = .next t) :
    exec (Instr.ofParts c n f) s = .next (s.afterCmov (condHolds c s.flags) n f t) := by
  rw [exec_eq_cmov, Instr.ofParts_cond, Instr.ofParts_size, Instr.ofParts_form, cmov_of_admitted hadm, hread,
    andThen_next]

/-- The mnemonics of one opcode, condition `c`, all complete with R136's state for `c` (R113). -/
theorem exec_of_synonyms {is : List Instr} (hsyn : is.map Instr.canonical = List.replicate is.length (Instr.ofParts c n f))
    (hadm : Admitted n f s) (hread : readSource n f s = .next t) :
    ∀ i ∈ is, exec i s = .next (s.afterCmov (condHolds c s.flags) n f t) := by
  intro i hi
  have hcanonical : i.canonical = Instr.ofParts c n f := List.map_eq_replicate_iff.mp hsyn i hi
  rw [← exec_canonical, hcanonical, exec_ofParts hadm hread]

/-- Two opcodes of complementary conditions at one operand size: the mnemonics `is` of the first move exactly when the
flags' test `holds`, and the mnemonics `js` of the second exactly when it does not (R131, R132). -/
theorem exec_of_pair {is js : List Instr} {holds : Bool} (hc : condHolds c s.flags = holds)
    (hc' : condHolds c' s.flags = !condHolds c s.flags)
    (his : is.map Instr.canonical = List.replicate is.length (Instr.ofParts c n f))
    (hjs : js.map Instr.canonical = List.replicate js.length (Instr.ofParts c' n f))
    (hadm : Admitted n f s) (hread : readSource n f s = .next t) :
    (∀ i ∈ is, exec i s = .next (s.afterCmov holds n f t)) ∧
      ∀ i ∈ js, exec i s = .next (s.afterCmov (!holds) n f t) := by
  subst hc
  exact ⟨exec_of_synonyms his hadm hread, hc' ▸ exec_of_synonyms hjs hadm hread⟩

end

/-- Settles O12: conditions 0 and 1 (R180, R184). -/
theorem overflowPairMovesByItsFlags : Obligations.OverflowPairMovesByItsFlags := by
  intro s f t
  have hmoves : condHolds .o s.flags = s.rflags.getLsbD 11 := rfl
  have hnot : condHolds .no s.flags = !condHolds .o s.flags := complementaryConditions 0 s.flags
  exact ⟨exec_of_pair hmoves hnot rfl rfl, exec_of_pair hmoves hnot rfl rfl, exec_of_pair hmoves hnot rfl rfl⟩

/-- Settles O13: conditions 2 and 3 (R161, R162, R164, R171, R172, R174). -/
theorem carryPairMovesByItsFlags : Obligations.CarryPairMovesByItsFlags := by
  intro s f t
  have hmoves : condHolds .b s.flags = s.rflags.getLsbD 0 := rfl
  have hnot : condHolds .ae s.flags = !condHolds .b s.flags := complementaryConditions 1 s.flags
  exact ⟨exec_of_pair hmoves hnot rfl rfl, exec_of_pair hmoves hnot rfl rfl, exec_of_pair hmoves hnot rfl rfl⟩

/-- Settles O14: conditions 4 and 5 (R165, R175, R183, R189). -/
theorem zeroPairMovesByItsFlags : Obligations.ZeroPairMovesByItsFlags := by
  intro s f t
  have hmoves : condHolds .e s.flags = s.rflags.getLsbD 6 := rfl
  have hnot : condHolds .ne s.flags = !condHolds .e s.flags := complementaryConditions 2 s.flags
  exact ⟨exec_of_pair hmoves hnot rfl rfl, exec_of_pair hmoves hnot rfl rfl, exec_of_pair hmoves hnot rfl rfl⟩

/-- Settles O15: conditions 6 and 7 (R160, R163, R170, R173). -/
theorem belowOrEqualPairMovesByItsFlags : Obligations.BelowOrEqualPairMovesByItsFlags := by
  intro s f t
  have hmoves : condHolds .be s.flags = (s.rflags.getLsbD 0 || s.rflags.getLsbD 6) := rfl
  have hnot : condHolds .a s.flags = !condHolds .be s.flags := complementaryConditions 3 s.flags
  exact ⟨exec_of_pair hmoves hnot rfl rfl, exec_of_pair hmoves hnot rfl rfl, exec_of_pair hmoves hnot rfl rfl⟩

/-- Settles O16: conditions 8 and 9 (R182, R188). -/
theorem signPairMovesByItsFlags : Obligations.SignPairMovesByItsFlags := by
  intro s f t
  have hmoves : condHolds .s s.flags = s.rflags.getLsbD 7 := rfl
  have hnot : condHolds .ns s.flags = !condHolds .s s.flags := complementaryConditions 4 s.flags
  exact ⟨exec_of_pair hmoves hnot rfl rfl, exec_of_pair hmoves hnot rfl rfl, exec_of_pair hmoves hnot rfl rfl⟩

/-- Settles O17: conditions 10 and 11 (R181, R185, R186, R187). -/
theorem parityPairMovesByItsFlags : Obligations.ParityPairMovesByItsFlags := by
  intro s f t
  have hmoves : condHolds .p s.flags = s.rflags.getLsbD 2 := rfl
  have hnot : condHolds .np s.flags = !condHolds .p s.flags := complementaryConditions 5 s.flags
  exact ⟨exec_of_pair hmoves hnot rfl rfl, exec_of_pair hmoves hnot rfl rfl, exec_of_pair hmoves hnot rfl rfl⟩

/-- Settles O18: conditions 12 and 13 (R167, R168, R177, R178). -/
theorem lessPairMovesByItsFlags : Obligations.LessPairMovesByItsFlags := by
  intro s f t
  have hmoves : condHolds .l s.flags = (s.rflags.getLsbD 7 != s.rflags.getLsbD 11) := rfl
  have hnot : condHolds .ge s.flags = !condHolds .l s.flags := complementaryConditions 6 s.flags
  exact ⟨exec_of_pair hmoves hnot rfl rfl, exec_of_pair hmoves hnot rfl rfl, exec_of_pair hmoves hnot rfl rfl⟩

/-- Settles O19: conditions 14 and 15 (R166, R169, R176, R179). -/
theorem lessOrEqualPairMovesByItsFlags : Obligations.LessOrEqualPairMovesByItsFlags := by
  intro s f t
  have hmoves : condHolds .le s.flags = (s.rflags.getLsbD 6 || s.rflags.getLsbD 7 != s.rflags.getLsbD 11) := rfl
  have hnot : condHolds .g s.flags = !condHolds .le s.flags := complementaryConditions 7 s.flags
  exact ⟨exec_of_pair hmoves hnot rfl rfl, exec_of_pair hmoves hnot rfl rfl, exec_of_pair hmoves hnot rfl rfl⟩

end Sys2Proof.Machine

/-! PROOFS. The family of 60_exceptions.md: which exceptions an instruction raises, what each records, and the one that is
raised where an alignment check and a page fault both apply. -/

namespace Sys2Proof.Machine

open Sys2Proof

/-! ### The exceptions by mode and form (R200 to R207, R210) -/

/-- Alignment is checked only where it is enabled, and never in real-address mode (R207). -/
theorem ne_real_and_acEnabled_of_checksAlignment {s : State} (h : s.checksAlignment = true) :
    s.mode ≠ .real ∧ s.acEnabled = true := by
  simp only [State.checksAlignment, Bool.and_eq_true, beq_iff_eq] at h
  obtain ⟨henabled, hlevel⟩ := h
  refine ⟨fun hreal => ?_, henabled⟩
  simp [State.level, hreal] at hlevel

/-- In real-address mode no address faults in Translate (R62). -/
theorem mode_ne_real_of_pageFault {s : State} {a : BitVec 64} {acc : AccessKind} {c : BitVec 32}
    (h : translateAddress s a acc = .pageFault c) : s.mode ≠ .real := by
  intro hreal
  obtain ⟨p, hpage, _⟩ := translateAddress_eq_pageFault.mp h
  rw [pageOf_of_real hreal] at hpage
  cases hpage

/-- The checks of decoding raise `#GP` for length alone (R108, R109). -/
theorem length_of_decodeChecks_gp {n : OpSize} {f : Form} {s t : State} {c : Option (BitVec 32)} {a : Option (BitVec 64)}
    (h : decodeChecks n f s = .fault (.exception .gp c a t)) : Config.maxInsnLen < f.length := by
  by_contra hshort
  simp only [decodeChecks, gt_iff_lt, if_neg hshort, raiseUD, raise] at h
  repeat' split at h
  all_goals cases h

/-- The exceptions that an instruction of a form can raise in a state, as kind, error code and address: two before the
operand is looked at, and four that only a memory operand raises (R200, R206). -/
inductive CanRaise (f : Form) (s : State) : ExcKind → Option (BitVec 32) → Option (BitVec 64) → Prop where
  | invalidOpcode : CanRaise f s .ud none none
  | overlong (hlong : Config.maxInsnLen < f.length) : CanRaise f s .gp s.zeroCode none
  | generalProtection (hmem : f.modrm.mod ≠ 3#2) : CanRaise f s .gp s.zeroCode none
  | stackFault (hmem : f.modrm.mod ≠ 3#2) : CanRaise f s .ss s.zeroCode none
  | alignmentCheck (hmem : f.modrm.mod ≠ 3#2) (hchecks : s.checksAlignment = true) : CanRaise f s .ac (some 0#32) none
  | pageFault (hmem : f.modrm.mod ≠ 3#2) {code : BitVec 32} {addr : BitVec 64}
      (hfault : translateAddress s addr .read = .pageFault code) : CanRaise f s .pf (some code) (some addr)

section
variable {n : OpSize} {f : Form} {s t : State} {k : ExcKind} {c : Option (BitVec 32)} {a : Option (BitVec 64)}

/-- The checks of decoding raise `#UD`, and `#GP` for length. -/
theorem canRaise_of_decodeChecks (h : decodeChecks n f s = .fault (.exception k c a t)) : CanRaise f s k c a := by
  rcases decodeChecks_eq_fault h with hud | hgp
  · cases hud
    exact .invalidOpcode
  · cases hgp
    exact .overlong (length_of_decodeChecks_gp h)

/-- The operand read raises the four exceptions of a memory operand. -/
theorem canRaise_of_loadOperand {m : MemRef} {size : Nat} (hmem : f.modrm.mod ≠ 3#2)
    (h : loadOperand s m size = .fault (.exception k c a t)) : CanRaise f s k c a := by
  rcases loadOperand_eq_fault h with (hgp | hss | hwrap) | ⟨_, _, ⟨hac, hchecks, _⟩ | ⟨g, hg, hpf⟩ | ⟨_, hunmapped, _⟩⟩
  · cases hgp
    exact .generalProtection hmem
  · cases hss
    exact .stackFault hmem
  · cases hwrap
  · cases hac
    exact .alignmentCheck hmem hchecks
  · cases hpf
    obtain ⟨_, _, _, hfault⟩ := mem_pageFaults hg
    exact .pageFault hmem hfault
  · cases hunmapped

/-- Every exception of an instruction is one that its form can raise in the state before it. -/
theorem canRaise_of_exec {i : Instr} (h : exec i s = .fault (.exception k c a t)) : CanRaise i.form s k c a := by
  rw [exec_eq_cmov, cmov_eq_fault] at h
  rcases h with hdecode | ⟨_, hread⟩
  · exact canRaise_of_decodeChecks hdecode
  · obtain ⟨hmem, hload⟩ := readSource_eq_fault.mp hread
    exact canRaise_of_loadOperand hmem hload

/-- A register form raises only `#UD` and the `#GP` for length (R96, R209). -/
theorem CanRaise.of_registerForm (h : CanRaise f s k c a) (hmod : f.modrm.mod = 3#2) :
    k = .ud ∨ (k = .gp ∧ Config.maxInsnLen < f.length) := by
  cases h with
  | invalidOpcode => exact .inl rfl
  | overlong hlong => exact .inr ⟨rfl, hlong⟩
  | generalProtection hmem | stackFault hmem | alignmentCheck hmem _ | pageFault hmem _ => exact absurd hmod hmem

end

/-- Settles O32: what each exception records is read off the table of those that can be raised. -/
theorem exceptionsByModeAndForm : Obligations.ExceptionsByModeAndForm := by
  intro i s t k c a hexec
  have hraise : CanRaise i.form s k c a := canRaise_of_exec hexec
  refine ⟨exec_exception_state hexec, ?ud, ?gpOrSs, ?ac, ?pf, hraise.of_registerForm⟩
  case ud =>
    rintro rfl
    cases hraise with
    | invalidOpcode => exact ⟨rfl, rfl⟩
  case gpOrSs =>
    rw [← zeroCode_eq]
    rintro (rfl | rfl)
    · cases hraise with
      | overlong | generalProtection => exact ⟨rfl, rfl⟩
    · cases hraise with
      | stackFault => exact ⟨rfl, rfl⟩
  case ac =>
    rintro rfl
    cases hraise with
    | alignmentCheck _ hchecks => exact ⟨rfl, rfl, ne_real_and_acEnabled_of_checksAlignment hchecks⟩
  case pf =>
    rintro rfl
    cases hraise with
    | pageFault _ hfault => exact ⟨rfl, rfl, mode_ne_real_of_pageFault hfault⟩

/-! ### An alignment check and a page fault (R60, R209, U1) -/

/-- The access to an operand raises `#AC(0)` or is MemRead's. -/
theorem accessOperand_eq_alignmentCheck_or_memRead (s : State) (lin : BitVec 64) (n : Nat) :
    accessOperand s lin n = .fault (.exception .ac (some 0#32) none s) ∨ accessOperand s lin n = memRead s lin n := by
  simp only [accessOperand]
  split
  · split
    · exact .inl rfl
    · split
      · exact .inl rfl
      · exact .inr rfl
  · exact .inr rfl

/-- Settles O42: past the alignment check MemRead reports the page fault, and the choice between the two is not looked at. -/
theorem alignmentCheckOrPageFault : Obligations.AlignmentCheckOrPageFault := by
  intro i s lin hadm hmem hform _ _ hfault
  rw [exec_of_formLinear_next hadm hmem hform]
  rcases accessOperand_eq_alignmentCheck_or_memRead s lin (opBytes i.size) with hcheck | hread
  · exact .inl (by rw [hcheck, andThen_fault])
  · obtain ⟨f, hf, hreport⟩ := memRead_of_pageFault hfault
    obtain ⟨k, hk, haddress, hcode⟩ := mem_pageFaults hf
    rw [haddress] at hcode hreport
    exact .inr ⟨k, hk, f.1, hcode, by rw [hread, hreport, andThen_fault]⟩

end Sys2Proof.Machine
